-- ==== Sys2Proof/Word.lean ====
section
/-!
DEFINITION. The value types of the Q565 engine.
Rules of spec/: 00_scope.md R7 and R8 (bit numbering, values are unsigned), 20_memory.md R71 (widths).
-/

namespace Sys2Proof

/-- One element of the byte ports (20_memory.md R71). -/
abbrev Byte := BitVec 8

/-- A 16-bit pixel in the 5-6-5 layout; every 16-bit value is legal (10_state.md R21). -/
abbrev Pixel := BitVec 16

/-- One host register (10_state.md R29). -/
abbrev Word := BitVec 32

end Sys2Proof
end

