-- ==== Sys2Proof/Config.lean ====
section
/-!
DEFINITION. The constants of profile P0 (00_scope.md R6). They are pinned: a configuration with any
other value has no meaning (93_implementation_defined.md U4; log 13). The one parameter the spec
leaves open, STRICT_TRAILER, is a run-time bit of State (10_state.md R31), not a constant.
-/

namespace Sys2Proof.Config

/-- `CACHE_SIZE`: slots of the pixel cache (R6, 10_state.md R40). -/
abbrev cacheSize : Nat := 64

/-- `CACHE_INIT`: what every slot holds after START and RESET (R6, 10_state.md R41). -/
def cacheInit : Pixel := 0x0000

/-- `PREV_INIT`: the previous pixel after START and RESET (R6, 10_state.md R23). -/
def prevInit : Pixel := 0x0000

/-- `MAX_RUN`: the most pixels one RUN record stands for (R6, 41_run.md R143). -/
def maxRun : Nat := 62

/-- The four bytes of `MAGIC`, first byte of the stream first (R6, 30_encoding.md R92). -/
def magic : List Byte := [0x71, 0x35, 0x36, 0x35]

/-- The 8-bit tag of RGB565 (R6, 30_encoding.md R96). -/
def literalTag : Byte := 0xFE

/-- `TRAILER`: the END byte (R6, 30_encoding.md R97). -/
def trailer : Byte := 0xFF

/-- `OBUF_BYTES`: the capacity of the staging buffer (R6, 46_opcode_encoder.md R247). -/
def obufBytes : Nat := 8

end Sys2Proof.Config
end

