-- ==== Sys2Proof/Syntax.lean ====
section
/-!
DEFINITION. The instructions: one constructor for each row of spec/opcode_table.json. The items of the
byte stream (30_encoding.md R90 to R97) and the two host commands (48_host_commands.md R301, R302).
-/

namespace Sys2Proof

/-- An item of the byte stream or a host command. Operands are the raw fields of the encoding. -/
inductive Instr where
  /-- HEADER: the four bytes at the place of `MAGIC`, then width and height (30_encoding.md R92). -/
  | header (m0 m1 m2 m3 : Byte) (width height : BitVec 16)
  /-- INDEX: a slot index (R93). -/
  | index (idx : BitVec 6)
  /-- DIFF: the biased red, green and blue differences (R94). -/
  | diff (fr fg fb : BitVec 2)
  /-- The reserved tag `10`; `x` is ignored (R104). -/
  | reserved (x : BitVec 6)
  /-- RUN: the run length minus one (R95). -/
  | run (n : BitVec 6)
  /-- RGB565: the pixel verbatim (R96). -/
  | rgb565 (px : Pixel)
  /-- END: the trailer (R97). -/
  | endMarker
  /-- `cmd(START)` (48_host_commands.md R302). -/
  | start
  /-- `cmd(RESET)` (48_host_commands.md R301). -/
  | reset
deriving DecidableEq, Repr

end Sys2Proof
end

