-- ==== Sys2Proof/WellFormed.lean ====
section
/-!
DEFINITION. Which terms of Instr stand for an encoding of the spec.
-/

namespace Sys2Proof

/-- A HEADER carries `MAGIC` (30_encoding.md R92); a RUN field is 0..61, since 62 and 63 would be the
bytes of RGB565 and END (30_encoding.md R95). Every other term is an encoding. -/
def Instr.wellFormed : Instr → Bool
  | .header m0 m1 m2 m3 _ _ => [m0, m1, m2, m3] == Config.magic
  | .index _ => true
  | .diff _ _ _ => true
  | .reserved _ => true
  | .run n => n.toNat + 1 ≤ Config.maxRun
  | .rgb565 _ => true
  | .endMarker => true
  | .start => true
  | .reset => true

end Sys2Proof
end

