-- ==== Sys2Proof/Decode.lean ====
section
/-!
DEFINITION. Decoding and encoding. The leading-byte map of 30_encoding.md R98, the header by position
(R91, R92), the CTRL write of 10_state.md R29; the bit_packer's pack functions (46_opcode_encoder.md
R240 to R245) and the encoder built on them; and how a word of spec/opcode_table.json is laid out.
-/

namespace Sys2Proof

/-! ### Fields of bytes and 16-bit values (30_encoding.md R103, 20_memory.md R69: low byte first) -/

/-- `v[7:0]`. -/
def loByte (v : BitVec 16) : Byte := v.extractLsb' 0 8

/-- `v[15:8]`. -/
def hiByte (v : BitVec 16) : Byte := v.extractLsb' 8 8

/-- `{hi, lo}`. -/
def ofBytes (lo hi : Byte) : BitVec 16 := hi ++ lo

/-- The 2-bit tag `b[7:6]` of a leading byte. -/
def tagOf (b : Byte) : BitVec 2 := b.extractLsb' 6 2

/-- The payload `b[5:0]` of a leading byte. -/
def payloadOf (b : Byte) : BitVec 6 := b.extractLsb' 0 6

/-! ### The bit_packer (46_opcode_encoder.md R240 to R245) -/

/-- `pack_index(i) = {0b00, i}` (R240). -/
def packIndex (i : BitVec 6) : Byte := 0b00#2 ++ i

/-- `pack_diff(fr, fg, fb) = {0b01, fr, fg, fb}` (R241). -/
def packDiff (fr fg fb : BitVec 2) : Byte := 0b01#2 ++ fr ++ fg ++ fb

/-- `pack_run(len) = {0b11, (len - 1)[5:0]}`, for `1 <= len <= 62` (R242). -/
def packRun (len : Nat) : Byte := 0b11#2 ++ BitVec.ofNat 6 (len - 1)

/-- `pack_rgb565(px) = 0xFE, px[7:0], px[15:8]` (R243). -/
def packRgb565 (px : Pixel) : List Byte := [Config.literalTag, loByte px, hiByte px]

/-- `pack_header(w, h)`: `MAGIC`, then width and height, low byte first (R244). -/
def packHeader (w h : BitVec 16) : List Byte :=
  Config.magic ++ [loByte w, hiByte w, loByte h, hiByte h]

/-- `pack_end() = 0xFF` (R245). -/
def packEnd : List Byte := [Config.trailer]

/-- The reserved byte `{0b10, x}` (30_encoding.md R104); no encoder step produces one (R99). -/
def packReserved (x : BitVec 6) : Byte := 0b10#2 ++ x

/-! ### Decoding -/

/-- What is decoded, with the position that decides how it is read (30_encoding.md R91). -/
inductive Code where
  /-- The bytes from the start of a stream on: the HEADER by position (R91). -/
  | header (bytes : List Byte)
  /-- The bytes from a leading byte on (R98). -/
  | record (bytes : List Byte)
  /-- The value of a host write to CTRL (10_state.md R29). -/
  | control (v : Word)
deriving DecidableEq, Repr

/-- Why no instruction is decoded. -/
inductive DecodeError where
  /-- The bytes end before the item does (30_encoding.md R108). -/
  | truncated
  /-- The first four bytes of a stream are not `MAGIC` (30_encoding.md R105). -/
  | badMagic
  /-- A write of CTRL with bits 1:0 = 00 (48_host_commands.md R306). -/
  | noCommand
deriving DecidableEq, Repr

/-- The item a leading byte stands for, by its value alone: the two full-byte values first, then the
2-bit tag (30_encoding.md R98). The data bytes of an RGB565 are not part of the leading byte; they
stand as zero here (log 7). -/
def leadingItem (b : Byte) : Instr :=
  if b = Config.trailer then .endMarker
  else if b = Config.literalTag then .rgb565 0
  else if tagOf b = 0b00 then .index (payloadOf b)
  else if tagOf b = 0b01 then .diff (b.extractLsb' 4 2) (b.extractLsb' 2 2) (b.extractLsb' 0 2)
  else if tagOf b = 0b10 then .reserved (payloadOf b)
  else .run (payloadOf b)

/-- The item at a leading position and the bytes after it: 3 bytes if the leading byte is 0xFE, else 1
(30_encoding.md R98, R103, R108). -/
def decodeRecord : List Byte → Except DecodeError (Instr × List Byte)
  | [] => .error .truncated
  | b :: rest =>
    if b = Config.literalTag then
      match rest with
      | lo :: hi :: rest' => .ok (.rgb565 (ofBytes lo hi), rest')
      | _ => .error .truncated
    else .ok (leadingItem b, rest)

/-- The HEADER at the start of a stream and the bytes after it (30_encoding.md R92, R103). -/
def decodeHeader : List Byte → Except DecodeError (Instr × List Byte)
  | m0 :: m1 :: m2 :: m3 :: wl :: wh :: hl :: hh :: rest =>
    if [m0, m1, m2, m3] = Config.magic then
      .ok (.header m0 m1 m2 m3 (ofBytes wl wh) (ofBytes hl hh), rest)
    else .error .badMagic
  | _ => .error .truncated

/-- The command of a CTRL write: bit 1 is RESET and wins, bit 0 is START, bits 31:2 are ignored
(10_state.md R29, 48_host_commands.md R301, R302, R306). -/
def decodeControl (v : Word) : Except DecodeError Instr :=
  if v.getLsbD 1 then .ok .reset
  else if v.getLsbD 0 then .ok .start
  else .error .noCommand

/-- Decoding, total on any input: the instruction and the bytes after it, or why there is none. -/
def decode : Code → Except DecodeError (Instr × List Byte)
  | .header bytes => decodeHeader bytes
  | .record bytes => decodeRecord bytes
  | .control v => (decodeControl v).map (·, [])

/-! ### Encoding -/

/-- The bytes of an item of the stream; a host command has none. -/
def encodeBytes : Instr → List Byte
  | .header m0 m1 m2 m3 w h => [m0, m1, m2, m3, loByte w, hiByte w, loByte h, hiByte h]
  | .index i => [packIndex i]
  | .diff fr fg fb => [packDiff fr fg fb]
  | .reserved x => [packReserved x]
  | .run n => [packRun (n.toNat + 1)]
  | .rgb565 px => packRgb565 px
  | .endMarker => packEnd
  | .start => []
  | .reset => []

/-- The encoding of a well-formed instruction, with the position it stands at. -/
def encode : Instr → Code
  | .header m0 m1 m2 m3 w h => .header (encodeBytes (.header m0 m1 m2 m3 w h))
  | .index i => .record (encodeBytes (.index i))
  | .diff fr fg fb => .record (encodeBytes (.diff fr fg fb))
  | .reserved x => .record (encodeBytes (.reserved x))
  | .run n => .record (encodeBytes (.run n))
  | .rgb565 px => .record (encodeBytes (.rgb565 px))
  | .endMarker => .record (encodeBytes .endMarker)
  | .start => .control 0x00000001
  | .reset => .control 0x00000002

/-! ### Words of spec/opcode_table.json -/

/-- The `n` bytes of `w`, bits 7:0 first. -/
def bytesLowFirst (n w : Nat) : List Byte :=
  (List.range n).map fun k => BitVec.ofNat 8 (w / 256 ^ k)

/-- The `n` bytes of `w`, its most significant byte first: how the table's rows of more than one byte
number their bytes ("byte 0 as the most significant byte of the hex string"; log 5). -/
def bytesHighFirst (n w : Nat) : List Byte := (bytesLowFirst n w).reverse

/-- The bytes or the CTRL value that a row of `nbits` bits with value `w` stands for. A row of no byte
or of four is a CTRL write, of eight a HEADER, of one to three a record padded with zero bytes. The
bytes are read in the table's numbering, or else with byte 0 in bits 7:0; where both give the row's
item they are the same bytes (log 5). -/
def tableCode (nbits w : Nat) : Option Code :=
  let n := nbits / 8
  let high := bytesHighFirst n w
  let low := bytesLowFirst n w
  let zeros : List Byte := List.replicate (3 - n) 0
  if n = 0 ∨ n = 4 then some (.control (BitVec.ofNat 32 w))
  else if n = 8 then some (.header (if high.take 4 = Config.magic then high else low))
  else if n = 1 then some (.record (low ++ zeros))
  else if n = 2 ∨ n = 3 then
    if high.head? = some Config.literalTag then some (.record (high ++ zeros))
    else if low.head? = some Config.literalTag then some (.record (low ++ zeros))
    else none
  else none

/-- The instruction the decoder reads from a row's word. -/
def decodeTableWord (nbits w : Nat) : Option Instr :=
  match tableCode nbits w with
  | none => none
  | some c =>
    match decode c with
    | .ok (i, _) => some i
    | .error _ => none

end Sys2Proof
end

