-- ==== Sys2Proof/Machine/State.lean ====
section
/-!
DEFINITION. The state of the engine (10_state.md R20) and of its host's side (00_scope.md R12), the
reasons a step can stop, and the state after reset (10_state.md R50).
-/

namespace Sys2Proof.Machine

/-- `CFG.MODE` (10_state.md R30). -/
inductive Mode where
  /-- 0. -/
  | encode
  /-- 1. -/
  | decode
deriving DecidableEq, Repr

/-- `phase`, the state of the state machine; codes 6 and 7 are never produced (10_state.md R25). -/
inductive Phase where
  /-- 0: nothing started since RESET. -/
  | idle
  /-- 1: the header is being sent (encode) or read (decode). -/
  | header
  /-- 2: pixels and records. -/
  | body
  /-- 3: the trailer is being sent (encode) or awaited (strict decode). -/
  | trailer
  /-- 4: ended without error. -/
  | done
  /-- 5: a fatal error was raised; `err` says which. -/
  | error
deriving DecidableEq, Repr

/-- `err`; codes 6 and 7 are never produced (10_state.md R28, 60_exceptions.md R320). -/
inductive ErrCode where
  /-- 0: whenever the phase is not ERROR. -/
  | none
  /-- 1 (60_exceptions.md R322). -/
  | dimensionMismatch
  /-- 2 (R323). -/
  | invalidHeader
  /-- 3 (R324). -/
  | unexpectedEnd
  /-- 4 (R325). -/
  | corruptStream
  /-- 5 (R326). -/
  | trailingData
deriving DecidableEq, Repr

/-- The seven host registers, numbers 0 to 6; there is no other (10_state.md R29, U13). -/
inductive Reg where
  | ctrl | cfg | dim | npix | status | pixcnt | hdrdim
deriving DecidableEq, Repr

/-- What the host takes in one step: the two ready signals of the engine's outputs (20_memory.md R62, R64,
R67; log 2). What the host offers is `pixSrc` and `byteSrc` of the state. -/
structure Ports where
  /-- `byte_out_ready`. -/
  byteOut : Bool
  /-- `pix_out_ready`. -/
  pixOut : Bool
deriving DecidableEq, Repr

/-- What the host does in one step (48_host_commands.md R300). -/
inductive HostTurn where
  /-- `cfg(reg, v)`; a write of CTRL issues the commands (10_state.md R29). -/
  | writeReg (reg : Reg) (v : Word)
  /-- A register read (48_host_commands.md R307). -/
  | readReg (reg : Reg)
  /-- No host action: the engine may take a step with these ready signals. -/
  | ports (p : Ports)
  /-- The host's port offers become these: the pixels and the bytes it gives from now on, and whether the
  bytes then end (20_memory.md R61, R63; 70_reset_and_hazards.md R371; log 9). -/
  | offer (pixels : List Pixel) (bytes : List Byte) (ends : Bool)
deriving DecidableEq, Repr

/-- The pixel cache, slots 0 to 63 (10_state.md R40). -/
abbrev Cache := Vector Pixel Config.cacheSize

/-- Every slot at `CACHE_INIT` (10_state.md R41). -/
def Cache.init : Cache := Vector.replicate Config.cacheSize Config.cacheInit

/-- No host turn is left: the host takes nothing; its offers stand (log 2). -/
def Ports.idle : Ports := ⟨false, false⟩

/-- The state. The fields down to `hdrH` are all the spec gives the engine (10_state.md R20); those
after it are the host's side of the ports, the model's own fields (log 1). -/
structure State where
  /-- `CFG.MODE` (R30). -/
  mode : Mode
  /-- `CFG.STRICT` (R31). -/
  strict : Bool
  /-- `CFG.WIDTH` (R32). -/
  width : BitVec 16
  /-- `CFG.HEIGHT` (R32). -/
  height : BitVec 16
  /-- `NPIX` (R33). -/
  npix : Word
  /-- `phase` (R25). -/
  phase : Phase
  /-- `err` (R28). -/
  err : ErrCode
  /-- `prev` (R23). -/
  prev : Pixel
  /-- `run` (R26). -/
  run : BitVec 6
  /-- `pix_cnt` (R22). -/
  pixCnt : Word
  /-- `total` (R27). -/
  total : Word
  /-- `cache[0..63]` (R40). -/
  cache : Cache
  /-- `obuf`, first byte to leave first (R42). -/
  obuf : List Byte
  /-- `sub` (R43). -/
  sub : BitVec 4
  /-- `hold` (R43). -/
  hold : Byte
  /-- `hdr_bad` (R43). -/
  hdrBad : Bool
  /-- `hdr_w` (R43). -/
  hdrW : BitVec 16
  /-- `hdr_h` (R43). -/
  hdrH : BitVec 16
  /-- What the host does next, first turn first (log 2). -/
  script : List HostTurn
  /-- The pixels the host offers and will offer next, in order: `pix_in_valid` is 1 while there is one
  and `pix_in_data` is the first (20_memory.md R61; log 9). -/
  pixSrc : List Pixel
  /-- The bytes the host offers and will offer next, in order: `byte_in_valid` is 1 while there is one
  and `byte_in_data` is the first (20_memory.md R63; log 9). -/
  byteSrc : List Byte
  /-- Whether the byte source ends after `byteSrc`: `byte_in_end` is 1 while this holds and no byte is
  left (20_memory.md R63; log 9). -/
  byteSrcEnds : Bool
  /-- The bytes handed to the byte sink so far, in order (20_memory.md R62). -/
  byteSink : List Byte
  /-- The pixels handed to the pixel sink so far, in order (20_memory.md R64). -/
  pixSink : List Pixel
  /-- The values the host's register reads returned so far, in order (log 18). -/
  readLog : List Word
deriving DecidableEq, Repr

/-- The machine never stops with a fault: the spec's errors are states with phase ERROR
(60_exceptions.md R335, R337), reached by a step that answers a next state. No constructor. -/
inductive Fault where
deriving DecidableEq, Repr

/-- Why a step has no meaning. -/
inductive Refusal where
  /-- An instruction without a meaning yet; raised by no arm of exec. Safe. -/
  | notModelled (mnemonic : String)
  /-- Raised by HEADER and RGB565 at a value of `sub` that never occurs (8 to 15 in phase HEADER, 3 to
  15 in phase BODY): 93_implementation_defined.md U14 refuses it (log 8). Safe. -/
  | subNeverOccurs
  /-- Raised by a host turn that changes or withdraws, during an operation, the element it offers that
  operation, before the engine has taken it: 70_reset_and_hazards.md R371 H3 and
  93_implementation_defined.md U11 refuse it (log 9). Safe. -/
  | offerTakenBack
  /-- Raised by a host turn that, during a decode that has been offered end-of-source, offers a byte or
  lowers `byte_in_end`: 70_reset_and_hazards.md R371 H2 and 93_implementation_defined.md U10 refuse it
  (log 9). Safe. -/
  | endTakenBack
deriving DecidableEq, Repr

/-- The machine right after reset: 10_state.md R50, 70_reset_and_hazards.md R360; the host has nothing
on offer and nothing to do (log 1). -/
def State.reset : State where
  mode := .encode
  strict := false
  width := 0
  height := 0
  npix := 0
  phase := .idle
  err := .none
  prev := Config.prevInit
  run := 0
  pixCnt := 0
  total := 0
  cache := Cache.init
  obuf := []
  sub := 0
  hold := 0
  hdrBad := false
  hdrW := 0
  hdrH := 0
  script := []
  pixSrc := []
  byteSrc := []
  byteSrcEnds := false
  byteSink := []
  pixSink := []
  readLog := []

end Sys2Proof.Machine
end

