-- ==== Sys2Proof/Machine/Operands.lean ====
section
/-!
DEFINITION. Pixels and their channels (10_state.md R21), the operations of pixel_cache_lookup on a cache
(40_pixel_cache.md), the delta_encoder and its inverse (43_diff.md), the run_length_encoder's functions
(41_run.md R146). All are pure functions.
-/

namespace Sys2Proof.Machine

/-! ### Channels -/

/-- `r(p) = p[15:11]` (10_state.md R21). -/
def red (p : Pixel) : BitVec 5 := p.extractLsb' 11 5

/-- `g(p) = p[10:5]` (10_state.md R21). -/
def green (p : Pixel) : BitVec 6 := p.extractLsb' 5 6

/-- `b(p) = p[4:0]` (10_state.md R21). -/
def blue (p : Pixel) : BitVec 5 := p.extractLsb' 0 5

/-- `rgb(r, g, b) = {r, g, b}` (00_scope.md R9). -/
def rgb (r : BitVec 5) (g : BitVec 6) (b : BitVec 5) : Pixel := r ++ g ++ b

/-! ### pixel_cache_lookup -/

/-- `hash(p) = (3*r + 5*g + 7*b) mod 64` (40_pixel_cache.md R120). -/
def pixelHash (p : Pixel) : BitVec 6 :=
  BitVec.ofNat 6 (3 * (red p).toNat + 5 * (green p).toNat + 7 * (blue p).toNat)

/-- `get(i)` (40_pixel_cache.md R122). -/
def Cache.slot (cache : Cache) (i : BitVec 6) : Pixel := cache[i.toNat]'i.isLt

/-- `insert(p)`: `cache[hash(p)] <- p`, every other slot unchanged (40_pixel_cache.md R123). -/
def Cache.insertPixel (c : Cache) (p : Pixel) : Cache := c.set (pixelHash p).toNat p (pixelHash p).isLt

/-- `hit(p)`: the pixel's own slot and whether it holds the pixel (40_pixel_cache.md R125). -/
def Cache.hit (c : Cache) (p : Pixel) : BitVec 6 × Bool := (pixelHash p, c.slot (pixelHash p) = p)

/-! ### delta_encoder -/

/-- The outputs of the delta_encoder; the fields mean something only where `fits` holds
(43_diff.md R170). -/
structure Delta where
  fits : Bool
  fr : BitVec 2
  fg : BitVec 2
  fb : BitVec 2
deriving DecidableEq, Repr

/-- The differences plus the bias 2, modulo 32, 64 and 32, and whether all are below 4
(43_diff.md R170, R172). -/
def delta (prev px : Pixel) : Delta :=
  let tr := red px - red prev + 2
  let tg := green px - green prev + 2
  let tb := blue px - blue prev + 2
  { fits := tr.toNat < 4 && tg.toNat < 4 && tb.toNat < 4
    fr := tr.setWidth 2
    fg := tg.setWidth 2
    fb := tb.setWidth 2 }

/-- The pixel a DIFF record stands for: each field less the bias 2, added modulo the channel's range
(30_encoding.md R101, 43_diff.md R178). -/
def applyDelta (prev : Pixel) (fr fg fb : BitVec 2) : Pixel :=
  rgb (red prev + fr.setWidth 5 - 2) (green prev + fg.setWidth 6 - 2) (blue prev + fb.setWidth 5 - 2)

/-! ### run_length_encoder -/

/-- `rle_step(run, eq)`: the run after a pixel and the length of the RUN record it emits, if any
(41_run.md R142 to R144, R146). -/
def rleStep (run : BitVec 6) (eq : Bool) : BitVec 6 × Option Nat :=
  if eq then
    if run.toNat + 1 = Config.maxRun then (0, some Config.maxRun) else (run + 1, none)
  else if 0 < run.toNat then (0, some run.toNat)
  else (0, none)

/-- `rle_flush(run)`, once after the last pixel (41_run.md R145, R146). -/
def rleFlush (run : BitVec 6) : BitVec 6 × Option Nat :=
  if 0 < run.toNat then (0, some run.toNat) else (0, none)

/-- The bytes of an optional RUN record (46_opcode_encoder.md R225, R226, R228). -/
def runBytes : Option Nat → List Byte
  | none => []
  | some len => [packRun len]

/-! ### The choice of the record -/

/-- The record for a pixel that differs from `prev`, in the priority order INDEX, DIFF, RGB565, as a
function of the previous pixel, the pixel and the cache (46_opcode_encoder.md R227, 42_index.md R160,
43_diff.md R173, 44_literal.md R190). -/
def choose (prev px : Pixel) (c : Cache) : Instr :=
  if (c.hit px).2 then .index (c.hit px).1
  else if (delta prev px).fits then
    .diff (delta prev px).fr (delta prev px).fg (delta prev px).fb
  else .rgb565 px

/-! ### Dimensions -/

/-- The 32-bit full product of two 16-bit dimensions (10_state.md R27, 43_diff.md R185). -/
def area (w h : BitVec 16) : Word := w.setWidth 32 * h.setWidth 32

/-- `v` with bits 7:0 replaced (45_header_end.md R202). -/
def setLoByte (v : BitVec 16) (b : Byte) : BitVec 16 := hiByte v ++ b

/-- `v` with bits 15:8 replaced (45_header_end.md R202, R203). -/
def setHiByte (v : BitVec 16) (b : Byte) : BitVec 16 := b ++ loByte v

end Sys2Proof.Machine
end

