-- ==== Sys2Proof/Machine/Flags.lean ====
section
/-!
DEFINITION. What the engine shows: the five outputs of 10_state.md R45, the port signals of 20_memory.md
R61 to R64 and the values the host registers read as (10_state.md R29). The engine has no condition
code (10_state.md R28); all of these are functions of the state.
-/

namespace Sys2Proof.Machine

/-- The codes of `phase` (10_state.md R25). -/
def Phase.code : Phase → BitVec 3
  | .idle => 0
  | .header => 1
  | .body => 2
  | .trailer => 3
  | .done => 4
  | .error => 5

/-- The codes of `err` (60_exceptions.md R320). -/
def ErrCode.code : ErrCode → BitVec 3
  | .none => 0
  | .dimensionMismatch => 1
  | .invalidHeader => 2
  | .unexpectedEnd => 3
  | .corruptStream => 4
  | .trailingData => 5

/-- The code of `CFG.MODE` (10_state.md R30). -/
def Mode.code : Mode → BitVec 1
  | .encode => 0
  | .decode => 1

/-- `busy` (10_state.md R37, R45). -/
def State.busy (s : State) : Bool :=
  match s.phase with
  | .header => true
  | .body => true
  | .trailer => true
  | .idle => false
  | .done => false
  | .error => false

/-- `done` (R45). -/
def State.isDone (s : State) : Bool := s.phase = .done

/-- `error` (R45). -/
def State.isError (s : State) : Bool := s.phase = .error

/-- `need_out`: busy and the next step is an output transfer (R45). -/
def State.needOut (s : State) : Bool :=
  s.busy &&
    match s.mode with
    | .encode => !s.obuf.isEmpty
    | .decode => decide (0 < s.run.toNat)

/-- `need_in`: busy and the next step is an input transfer (R45). -/
def State.needIn (s : State) : Bool :=
  match s.mode with
  | .encode => decide (s.phase = .body) && s.obuf.isEmpty && decide (s.pixCnt.toNat < s.total.toNat)
  | .decode =>
    decide (s.run = 0) &&
      match s.phase with
      | .header => true
      | .body => decide (s.pixCnt.toNat < s.total.toNat)
      | .trailer => true
      | .idle => false
      | .done => false
      | .error => false

/-! ### Ports -/

/-- `pix_in_ready` (20_memory.md R61). -/
def State.pixInReady (s : State) : Bool := decide (s.mode = .encode) && s.needIn

/-- `byte_out_valid` (20_memory.md R62). -/
def State.byteOutValid (s : State) : Bool := decide (s.mode = .encode) && s.busy && !s.obuf.isEmpty

/-- `byte_out_data`, where `byte_out_valid` holds (20_memory.md R62). -/
def State.byteOutData (s : State) : Option Byte := if s.byteOutValid then s.obuf.head? else none

/-- `byte_in_ready` (20_memory.md R63). -/
def State.byteInReady (s : State) : Bool := decide (s.mode = .decode) && s.needIn

/-- `pix_out_valid` (20_memory.md R64). -/
def State.pixOutValid (s : State) : Bool :=
  decide (s.mode = .decode) && decide (s.phase = .body) && decide (0 < s.run.toNat)

/-- `pix_out_data`, where `pix_out_valid` holds (20_memory.md R64). -/
def State.pixOutData (s : State) : Option Pixel := if s.pixOutValid then some s.prev else none

/-! ### Register views (10_state.md R29) -/

/-- `STATUS`: phase in 2:0, err in 6:4, need_in in 8, need_out in 9, zero elsewhere. -/
def State.statusWord (s : State) : Word :=
  0#22 ++ BitVec.ofBool s.needOut ++ BitVec.ofBool s.needIn ++ 0#1 ++ s.err.code ++ 0#1 ++ s.phase.code

/-- `CFG`: MODE in 0, STRICT in 1, zero elsewhere. -/
def State.cfgWord (s : State) : Word := 0#30 ++ BitVec.ofBool s.strict ++ s.mode.code

/-- What a register reads as; CTRL reads 0 (48_host_commands.md R307). -/
def State.readWord (s : State) : Reg → Word
  | .ctrl => 0
  | .cfg => s.cfgWord
  | .dim => s.height ++ s.width
  | .npix => s.npix
  | .status => s.statusWord
  | .pixcnt => s.pixCnt
  | .hdrdim => s.hdrH ++ s.hdrW

/-! ### Where the decoder stands (30_encoding.md R91) -/

/-- The decoder is inside the HEADER and asks for a byte (45_header_end.md R202, R203). -/
def State.atHeader (s : State) : Bool := s.byteInReady && decide (s.phase = .header)

/-- The decoder asks for a record byte (47_opcode_decoder.md R261, R262). -/
def State.atRecord (s : State) : Bool := s.byteInReady && decide (s.phase = .body)

/-- The decoder asks for a leading byte: the common guard of the records (R161, R178, R148). -/
def State.atLeading (s : State) : Bool := s.atRecord && decide (s.sub = 0)

/-- The decoder asks for the trailer (45_header_end.md R209, R210). -/
def State.atTrailer (s : State) : Bool := s.byteInReady && decide (s.phase = .trailer)

end Sys2Proof.Machine
end

