-- ==== Sys2Proof/Machine/Ops.lean ====
section
/-!
DEFINITION. The shared operations on the state: entry into ERROR (60_exceptions.md R335), the operation
values START and RESET set (48_host_commands.md R303, R301), the output side of the bit_packer
(46_opcode_encoder.md R246), what a completed single-pixel record writes (47_opcode_decoder.md R263) and
which outcome a record has by position (30_encoding.md R91).
There is no return from an error: only START and RESET leave ERROR (60_exceptions.md R338).
-/

namespace Sys2Proof.Machine

open Host (Outcome)

/-! ### Errors -/

/-- `raise E`: `phase <- ERROR; err <- code(E)`, nothing else (60_exceptions.md R335). -/
def State.raise (s : State) (e : ErrCode) : State := { s with phase := .error, err := e }

/-! ### The start of an operation -/

/-- The values an accepted START gives the operation state before it looks at the mode; the
configuration and `phase` are not changed here (48_host_commands.md R303). -/
def State.clearOperation (s : State) : State :=
  { s with
    err := .none
    prev := Config.prevInit
    run := 0
    pixCnt := 0
    total := 0
    cache := Cache.init
    obuf := []
    sub := 0
    hold := 0
    hdrBad := false
    hdrW := 0
    hdrH := 0 }

/-- The engine's state after RESET, the host's side kept: bytes and pixels already handed over stay
with the host, as do its streams and its plans (48_host_commands.md R301; log 12). -/
def State.engineReset (s : State) : State :=
  { State.reset with
    script := s.script
    pixSrc := s.pixSrc
    byteSrc := s.byteSrc
    byteSrcEnds := s.byteSrcEnds
    byteSink := s.byteSink
    pixSink := s.pixSink
    readLog := s.readLog }

/-! ### The bit_packer's buffer -/

/-- `push(b0, b1, ...)`: the bytes go to the back of `obuf` in order (46_opcode_encoder.md R246). -/
def State.push (s : State) (bytes : List Byte) : State := { s with obuf := s.obuf ++ bytes }

/-! ### Pixels -/

/-- The bookkeeping of a pixel that is no run pixel, the same on both sides: `insert(px)` and
`prev <- px` (40_pixel_cache.md R124, 46_opcode_encoder.md R226). -/
def State.remember (s : State) (px : Pixel) : State :=
  { s with cache := s.cache.insertPixel px, prev := px }

/-- What a decoded single-pixel record leaves: the bookkeeping and one copy of `prev` owed to the sink
(42_index.md R161, 43_diff.md R178, 44_literal.md R191, 47_opcode_decoder.md R263). -/
def State.produce (s : State) (px : Pixel) : State := { s.remember px with run := 1 }

/-! ### A record by position -/

/-- The outcome of a one-byte record met in state `s`, `t` being what it does as a record: at a leading
position it is executed; at the trailer position its byte is not END and raises TrailingData
(45_header_end.md R210); anywhere else the byte is no record and no step is enabled (log 6). -/
def State.recordOutcome (s t : State) : Outcome State Fault Refusal :=
  if s.atLeading then .next t
  else if s.atTrailer then .next (s.raise .trailingData)
  else .next s

end Sys2Proof.Machine
end

