-- ==== Sys2Proof/Machine/Commands.lean ====
section
/-!
DEFINITION. The host commands START and RESET (48_host_commands.md R301 to R305).
-/

namespace Sys2Proof.Machine

open Host (Outcome)

/-- The encode part of an accepted START: DimensionMismatch unless `NPIX` is the product of the
dimensions; otherwise the header is pushed (48_host_commands.md R304, 45_header_end.md R201). -/
def State.startEncode (s : State) : State :=
  if s.npix ≠ area s.width s.height then s.raise .dimensionMismatch
  else { s.push (packHeader s.width s.height) with total := area s.width s.height, phase := .header }

/-- The decode part of an accepted START: nothing is checked (48_host_commands.md R305). -/
def State.startDecode (s : State) : State := { s with phase := .header }

/-- START: ignored while busy; else the operation state is set to its initial values and the operation
the mode bit selects begins (48_host_commands.md R302 to R305). -/
def execStart (s : State) : Outcome State Fault Refusal :=
  if s.busy then .next s
  else
    match s.mode with
    | .encode => .next s.clearOperation.startEncode
    | .decode => .next s.clearOperation.startDecode

/-- RESET: obeyed in every phase (48_host_commands.md R301). -/
def execReset (s : State) : Outcome State Fault Refusal := .next s.engineReset

end Sys2Proof.Machine
end

