-- ==== Sys2Proof/Machine/Framing.lean ====
section
/-!
DEFINITION. The decoder's meaning of the framing items HEADER and END (45_header_end.md).
-/

namespace Sys2Proof.Machine

open Host (Outcome)

/-- The eighth header byte: the height is completed and the header judged as a whole; InvalidHeader if
a magic byte was wrong, a dimension is zero or differs from the declared one (45_header_end.md R203). -/
def State.completeHeader (s : State) (b : Byte) : State :=
  let w := s.hdrW
  let h := setHiByte s.hdrH b
  if s.hdrBad = true ∨ w = 0 ∨ h = 0 ∨ w ≠ s.width ∨ h ≠ s.height then
    { s with hdrH := h }.raise .invalidHeader
  else
    { s with hdrH := h, total := area w h, sub := 0, phase := .body }

/-- A header byte at one of the places of `MAGIC`: a wrong one is remembered, not yet judged
(45_header_end.md R202). -/
def State.magicByte (s : State) (want got : Byte) : State :=
  { s with hdrBad := s.hdrBad || got != want, sub := s.sub + 1 }

/-- HEADER: one of its eight bytes a step, chosen by `sub` (45_header_end.md R202, R203). Outside phase
HEADER no header byte is taken (log 6). -/
def execHeader (m0 m1 m2 m3 : Byte) (w h : BitVec 16) (s : State) : Outcome State Fault Refusal :=
  if s.atHeader then
    if s.sub = 0 then .next (s.magicByte 0x71 m0)
    else if s.sub = 1 then .next (s.magicByte 0x35 m1)
    else if s.sub = 2 then .next (s.magicByte 0x36 m2)
    else if s.sub = 3 then .next (s.magicByte 0x35 m3)
    else if s.sub = 4 then .next { s with hdrW := setLoByte s.hdrW (loByte w), sub := s.sub + 1 }
    else if s.sub = 5 then .next { s with hdrW := setHiByte s.hdrW (hiByte w), sub := s.sub + 1 }
    else if s.sub = 6 then .next { s with hdrH := setLoByte s.hdrH (loByte h), sub := s.sub + 1 }
    else if s.sub = 7 then .next (s.completeHeader (hiByte h))
    else .refused .subNeverOccurs
  else .next s

/-- END: DONE at the trailer position of a strict decode (45_header_end.md R209); as a leading byte in
BODY it is no record and raises CorruptStream (R207); elsewhere the byte is no END (log 6). -/
def execEndMarker (s : State) : Outcome State Fault Refusal :=
  if s.atTrailer then .next { s with phase := .done }
  else if s.atLeading then .next (s.raise .corruptStream)
  else .next s

end Sys2Proof.Machine
end

