-- ==== Sys2Proof/Machine/Records.lean ====
section
/-!
DEFINITION. The decoder's meaning of the records INDEX, DIFF, RUN, RGB565 and of the reserved tag, after
the byte has been taken (42_index.md, 43_diff.md, 41_run.md, 44_literal.md, 30_encoding.md R104).
-/

namespace Sys2Proof.Machine

open Host (Outcome)

/-- INDEX: the pixel of slot `idx`, read before the insert of the same step (42_index.md R161,
40_pixel_cache.md R126). Every `idx` is legal. -/
def execIndex (idx : BitVec 6) (s : State) : Outcome State Fault Refusal :=
  s.recordOutcome (s.produce (s.cache.slot idx))

/-- DIFF: `prev` plus the three differences, each wrapping in its channel (43_diff.md R178). -/
def execDiff (fr fg fb : BitVec 2) (s : State) : Outcome State Fault Refusal :=
  s.recordOutcome (s.produce (applyDelta s.prev fr fg fb))

/-- The reserved tag `10`: CorruptStream, whatever the other bits (30_encoding.md R104). -/
def execReserved (_x : BitVec 6) (s : State) : Outcome State Fault Refusal :=
  s.recordOutcome (s.raise .corruptStream)

/-- RUN: `n + 1` copies of `prev` are owed, or CorruptStream where the image has fewer pixels left;
`prev`, the cache and `pix_cnt` are not written (41_run.md R148). -/
def execRun (n : BitVec 6) (s : State) : Outcome State Fault Refusal :=
  s.recordOutcome
    (if s.total.toNat - s.pixCnt.toNat < n.toNat + 1 then s.raise .corruptStream
     else { s with run := n + 1 })

/-- RGB565: one of its three bytes a step, chosen by `sub`. The tag; the low byte into `hold`; the high
byte, which completes `{b, hold}` (44_literal.md R191). At the trailer position its tag byte is not
END (45_header_end.md R210). -/
def execRgb565 (px : Pixel) (s : State) : Outcome State Fault Refusal :=
  if s.atRecord then
    if s.sub = 0 then .next { s with sub := 1 }
    else if s.sub = 1 then .next { s with hold := loByte px, sub := 2 }
    else if s.sub = 2 then .next { s.produce (ofBytes s.hold (hiByte px)) with sub := 0 }
    else .refused .subNeverOccurs
  else if s.atTrailer then .next (s.raise .trailingData)
  else .next s

end Sys2Proof.Machine
end

