-- ==== Sys2Proof/Machine/Dispatch.lean ====
section
/-!
DEFINITION. The meaning of every instruction, one arm each.
-/

namespace Sys2Proof.Machine

open Host (Outcome)

def exec (i : Instr) (s : State) : Host.Outcome State Fault Refusal :=
  match i with
  | .header m0 m1 m2 m3 w h => Sys2Proof.Machine.execHeader m0 m1 m2 m3 w h s
  | .index idx => Sys2Proof.Machine.execIndex idx s
  | .diff fr fg fb => Sys2Proof.Machine.execDiff fr fg fb s
  | .reserved x => Sys2Proof.Machine.execReserved x s
  | .run n => Sys2Proof.Machine.execRun n s
  | .rgb565 px => Sys2Proof.Machine.execRgb565 px s
  | .endMarker => Sys2Proof.Machine.execEndMarker s
  | .start => Sys2Proof.Machine.execStart s
  | .reset => Sys2Proof.Machine.execReset s

end Sys2Proof.Machine
end

