-- ==== Sys2Proof/Machine/Decoder.lean ====
section
/-!
DEFINITION. The decode operation: the engine's own steps when `CFG.MODE = 1` (47_opcode_decoder.md R260 to
R281). The bytes of the byte source are its instructions; the step that takes a byte executes the item
the byte belongs to.
-/

namespace Sys2Proof.Machine

open Host (Outcome)

/-- The item the byte on offer belongs to, by position: a HEADER byte, a data byte of an RGB565, or a
leading or trailer byte (30_encoding.md R91, 47_opcode_decoder.md R262). Of an item of several bytes the
engine knows only the one on offer; it stands in every byte of the item here, and the meaning reads the
one byte whose turn `sub` says it is (log 7). -/
def State.itemOf (s : State) (b : Byte) : Instr :=
  if s.phase = .header then .header b b b b (ofBytes b b) (ofBytes b b)
  else if s.phase = .body ∧ s.sub ≠ 0 then .rgb565 (ofBytes b b)
  else leadingItem b

/-- Emit pixel: `prev` goes to the pixel sink (47_opcode_decoder.md R268, 20_memory.md R67). -/
def State.emitPixel (s : State) : State :=
  { s with run := s.run - 1, pixCnt := s.pixCnt + 1, pixSink := s.pixSink ++ [s.prev] }

/-- End of body: no byte is consumed (45_header_end.md R208, R212). -/
def State.endBody (s : State) : State :=
  if s.strict then { s with phase := .trailer } else { s with phase := .done }

/-- A byte is asked for: the byte on offer is taken and its item executed; at the end of the source
UnexpectedEnd is raised; a source that is empty for now suspends
(47_opcode_decoder.md R262, R281, R273; 20_memory.md R66). -/
def State.takeByte (s : State) : Outcome State Fault Refusal :=
  match s.byteSrc with
  | b :: rest => exec (s.itemOf b) { s with byteSrc := rest }
  | [] => if s.byteSrcEnds then .next (s.raise .unexpectedEnd) else .next s

/-- The engine's own step in decode, if one is enabled, else the state stands still
(47_opcode_decoder.md R261, R273). -/
def State.decodeStep (p : Ports) (s : State) : Outcome State Fault Refusal :=
  if s.pixOutValid then
    if p.pixOut then .next s.emitPixel else .next s
  else if s.phase = .body ∧ s.run = 0 ∧ s.pixCnt = s.total then .next s.endBody
  else if s.byteInReady then
    s.takeByte
  else .next s

end Sys2Proof.Machine
end

