-- ==== Sys2Proof/Machine/Encoder.lean ====
section
/-!
DEFINITION. The encode operation: the engine's own steps when `CFG.MODE = 0` (46_opcode_encoder.md R220 to
R229, R248).
-/

namespace Sys2Proof.Machine

/-- Run-pixel branch: neither `prev` nor the cache is written (46_opcode_encoder.md R225). -/
def State.runPixel (s : State) : State :=
  let r := rleStep s.run true
  { s with run := r.1 }.push (runBytes r.2)

/-- Non-run branch: the pending RUN first, then the record chosen from the state before this step's
writes, then the bookkeeping (46_opcode_encoder.md R226, R227). -/
def State.nonRunPixel (s : State) (px : Pixel) : State :=
  let r := rleStep s.run false
  let bytes := runBytes r.2 ++ encodeBytes (choose s.prev px s.cache)
  { s with run := r.1 }.push bytes |>.remember px

/-- Take pixel: the pixel is counted, then taken by its branch (46_opcode_encoder.md R224). -/
def State.consumePixel (s : State) (px : Pixel) : State :=
  let s := { s with pixCnt := s.pixCnt + 1 }
  if px = s.prev then s.runPixel else s.nonRunPixel px

/-- Finish: the pending RUN, if any, and END (46_opcode_encoder.md R228, 45_header_end.md R206). -/
def State.finishEncode (s : State) : State :=
  let r := rleFlush s.run
  { s.push (runBytes r.2 ++ packEnd) with run := r.1, phase := .trailer }

/-- Emit: the first byte of `obuf` goes to the byte sink (46_opcode_encoder.md R248, 20_memory.md R67). -/
def State.emitByte (s : State) : State :=
  match s.obuf with
  | [] => s
  | b :: rest => { s with obuf := rest, byteSink := s.byteSink ++ [b] }

/-- The engine's own step in encode, if one is enabled, else the state stands still
(46_opcode_encoder.md R221, R233). -/
def State.encodeStep (p : Ports) (s : State) : State :=
  if s.byteOutValid then
    if p.byteOut then s.emitByte else s
  else
    match s.phase with
    | .header => { s with phase := .body }
    | .body =>
      if s.pixCnt.toNat < s.total.toNat then
        match s.pixSrc with
        | px :: rest => { s with pixSrc := rest }.consumePixel px
        | [] => s
      else if s.pixCnt = s.total then s.finishEncode
      else s
    | .trailer => { s with phase := .done }
    | .idle => s
    | .done => s
    | .error => s

end Sys2Proof.Machine
end

