-- ==== Sys2Proof/Machine/HostSide.lean ====
section
/-!
DEFINITION. One turn of the host or of the engine: register writes and reads (48_host_commands.md R300,
R306, R307), port offers (20_memory.md R61, R63; 70_reset_and_hazards.md R371), and otherwise the engine's
own step in the mode `CFG.MODE` selects (10_state.md R30).
-/

namespace Sys2Proof.Machine

open Host (Outcome)

/-- A write to a configuration register while the engine is not busy: reserved bits of CFG stay 0
(48_host_commands.md R306, 10_state.md R29). The other registers keep their values. -/
def State.writeConfig (s : State) (r : Reg) (v : Word) : State :=
  match r with
  | .cfg =>
    { s with
      mode := if v.getLsbD 0 then .decode else .encode
      strict := v.getLsbD 1 }
  | .dim => { s with width := v.extractLsb' 0 16, height := v.extractLsb' 16 16 }
  | .npix => { s with npix := v }
  | .ctrl => s
  | .status => s
  | .pixcnt => s
  | .hdrdim => s

/-- `cfg(reg, v)`. A write of CTRL issues the command it encodes, if any; any other write is ignored
while the engine is busy (48_host_commands.md R301, R302, R306; 10_state.md R37). -/
def State.writeReg (s : State) (r : Reg) (v : Word) : Outcome State Fault Refusal :=
  match r with
  | .ctrl =>
    match decodeControl v with
    | .ok i => exec i s
    | .error _ => .next s
  | .cfg => .next (if s.busy then s else s.writeConfig .cfg v)
  | .dim => .next (if s.busy then s else s.writeConfig .dim v)
  | .npix => .next (if s.busy then s else s.writeConfig .npix v)
  | .status => .next s
  | .pixcnt => .next s
  | .hdrdim => .next s

/-- A register read: no side effect on the engine; the host has the value (48_host_commands.md R307;
log 18). -/
def State.readReg (s : State) (r : Reg) : State := { s with readLog := s.readLog ++ [s.readWord r] }

/-- Whether new offers beginning with `first` hold the element that is on offer, if there is one
(70_reset_and_hazards.md R371 H3). -/
def holdsOffer {α : Type} [DecidableEq α] (offered : List α) (first : Option α) : Bool :=
  offered.isEmpty || offered.head? == first

/-- `byte_in_end`: the byte source has ended and no byte is left (20_memory.md R63). -/
def State.byteInEnd (s : State) : Bool := s.byteSrc.isEmpty && s.byteSrcEnds

/-- The host's port offers change. During an operation the element on offer to it is held until it is
taken, and once end-of-source has been offered to a decode there is only end; a host that breaks this
is given no meaning (70_reset_and_hazards.md R371 H2, H3; 93_implementation_defined.md U10, U11). That a
byte is never offered together with the end (H1) holds by construction. -/
def State.offer (s : State) (ps : List Pixel) (bs : List Byte) (ends : Bool) :
    Outcome State Fault Refusal :=
  let t := { s with pixSrc := ps, byteSrc := bs, byteSrcEnds := ends }
  if s.busy then
    match s.mode with
    | .encode => if holdsOffer s.pixSrc ps.head? then .next t else .refused .offerTakenBack
    | .decode =>
      if holdsOffer s.byteSrc bs.head? then
        if s.byteInEnd && !t.byteInEnd then .refused .endTakenBack else .next t
      else .refused .offerTakenBack
  else .next t

/-- The engine's own step with the host's offers and ready signals; where none is enabled the engine is suspended
and the state stands still (00_scope.md R10, R11; 20_memory.md R68). -/
def State.engineStep (p : Ports) (s : State) : Outcome State Fault Refusal :=
  match s.mode with
  | .encode => .next (s.encodeStep p)
  | .decode => s.decodeStep p

/-- One turn: a host action is a step of its own, between two engine steps (48_host_commands.md R300). -/
def State.takeTurn (s : State) : HostTurn → Outcome State Fault Refusal
  | .writeReg r v => s.writeReg r v
  | .readReg r => .next (s.readReg r)
  | .ports p => s.engineStep p
  | .offer ps bs ends => s.offer ps bs ends

/-- The next turn of the script; where none is left the host takes nothing (log 2). -/
def State.nextTurn (s : State) : Outcome State Fault Refusal :=
  match s.script with
  | [] => s.engineStep Ports.idle
  | t :: rest => { s with script := rest }.takeTurn t

/-! ### Placing an instruction where the next step takes it (log 4) -/

/-- A turn in which the host does nothing and takes nothing. -/
def HostTurn.standBy : HostTurn := .ports Ports.idle

/-- `bytes` are the next the host offers to a decode, and in its next turns it does nothing else. -/
def State.offerBytes (s : State) (bytes : List Byte) : State :=
  { s with
    mode := .decode
    run := 0
    sub := 0
    byteSrc := bytes ++ s.byteSrc
    script := List.replicate bytes.length HostTurn.standBy ++ s.script }

/-- The bytes of the one item that stands first in `bytes`. -/
def firstItemBytes (bytes : List Byte) : List Byte :=
  match decodeRecord bytes with
  | .ok (_, rest) => bytes.take (bytes.length - rest.length)
  | .error _ => bytes

/-- The code stands where the next step takes it: a HEADER as the next stream of a decode in phase
HEADER; END at the trailer position; any other record in phase BODY with `MAX_RUN` pixels still to
come, so that every RUN fits; a CTRL value as the host's next write (log 4). -/
def State.placeCode (s : State) : Code → State
  | .header bytes => { s.offerBytes (bytes.take 8) with phase := .header }
  | .record bytes =>
    if bytes.head? = some Config.trailer then
      { s.offerBytes (firstItemBytes bytes) with phase := .trailer }
    else
      { s.offerBytes (firstItemBytes bytes) with
        phase := .body
        pixCnt := 0
        total := BitVec.ofNat 32 Config.maxRun }
  | .control v => { s with script := .writeReg .ctrl v :: s.script }

end Sys2Proof.Machine
end

