-- ==== Sys2Proof/Machine/Step.lean ====
section
/-!
DEFINITION. One step of the machine (00_scope.md R10): the next turn of the host's script.
-/

namespace Sys2Proof.Machine

open Host (Outcome)

/-- One step: one host action, or one step of the engine with at most one port transfer, or none where
the engine is suspended (00_scope.md R10, R11). -/
def step (s : State) : Outcome State Fault Refusal := s.nextTurn

/-- `s` with the instruction of a table word placed where the next step takes it (log 4, log 5). -/
def State.withFetchWord (s : State) (nbits w : Nat) : State :=
  match tableCode nbits w with
  | none => s
  | some c => s.placeCode c

end Sys2Proof.Machine
end

