-- ==== Sys2Proof/Machine/Reference.lean ====
section
/-!
DEFINITION. The whole-operation functions of the spec: the encode of an image as one function
(46_opcode_encoder.md R230) and the outcome of a decode as one function (47_opcode_decoder.md R270). No step
of the machine uses them; statements compare the machine with them.
-/

namespace Sys2Proof.Machine

/-! ### Encode (R230) -/

/-- The RUN byte for a pending run, if there is one (R230). -/
def pendingRun (run : Nat) : List Byte := if 0 < run then [packRun run] else []

/-- The bytes for one pixel that differs from `prev`: INDEX, else DIFF, else RGB565 (R230). -/
def pixelBytes (prev px : Pixel) (cache : Cache) : List Byte :=
  let i := pixelHash px
  if cache.slot i = px then [packIndex i]
  else if (delta prev px).fits then
    [packDiff (delta prev px).fr (delta prev px).fg (delta prev px).fb]
  else packRgb565 px

/-- The record bytes and the END of an encode from the loop's state on (the loop of R230). -/
def encodeBody (prev : Pixel) (run : Nat) (cache : Cache) : List Pixel → List Byte
  | [] => pendingRun run ++ packEnd
  | px :: rest =>
    if px = prev then
      if run + 1 = Config.maxRun then packRun Config.maxRun :: encodeBody prev 0 cache rest
      else encodeBody prev (run + 1) cache rest
    else
      pendingRun run ++ pixelBytes prev px cache ++ encodeBody px 0 (cache.insertPixel px) rest

/-- `encode(P, W, H)` (R230). -/
def encodeImage (pixels : List Pixel) (w h : BitVec 16) : List Byte :=
  packHeader w h ++ encodeBody Config.prevInit 0 Cache.init pixels

/-! ### Decode (R270) -/

/-- How a decode ends (R270). -/
inductive DecodeEnd where
  /-- `phase = DONE`. -/
  | done
  /-- `phase = ERROR` with this code. -/
  | failed (e : ErrCode)
deriving DecidableEq, Repr

/-- What a decode comes to: how it ends, the pixels it hands over (R270) and the bytes of the source it
leaves with the host (47_opcode_decoder.md R283). -/
structure Decoded where
  fin : DecodeEnd
  pixels : List Pixel
  left : List Byte
deriving DecidableEq, Repr

/-- The decode ends here, with these bytes not taken. -/
def Decoded.stop (fin : DecodeEnd) (left : List Byte) : Decoded := ⟨fin, [], left⟩

/-- The pixels, and then what the rest of the decode gives. -/
def Decoded.after (pixels : List Pixel) (r : Decoded) : Decoded := { r with pixels := pixels ++ r.pixels }

/-- The end once every pixel is out: a strict decode takes one byte more, a lenient one none (R270;
45_header_end.md R208 to R212; 47_opcode_decoder.md R283). -/
def trailerEnd (strict : Bool) (bytes : List Byte) : Decoded :=
  if strict then
    match bytes with
    | [] => .stop (.failed .unexpectedEnd) []
    | b :: rest => .stop (if b = Config.trailer then .done else .failed .trailingData) rest
  else .stop .done bytes

/-- The loop of R270 with `missing` pixels still to come, and the trailer check after it. A byte that raises
an error has been taken, and a source that ends too soon has been taken whole (47_opcode_decoder.md R283). -/
def decodeBody (strict : Bool) (missing : Nat) (prev : Pixel) (cache : Cache) : List Byte → Decoded
  | [] => if missing = 0 then trailerEnd strict [] else .stop (.failed .unexpectedEnd) []
  | b :: rest =>
    if missing = 0 then trailerEnd strict (b :: rest)
    else if b = Config.trailer then .stop (.failed .corruptStream) rest
    else if b = Config.literalTag then
      match rest with
      | lo :: hi :: rest' =>
        let px := ofBytes lo hi
        .after [px] (decodeBody strict (missing - 1) px (cache.insertPixel px) rest')
      | _ => .stop (.failed .unexpectedEnd) []
    else if tagOf b = 0b00 then
      let px := cache.slot (payloadOf b)
      .after [px] (decodeBody strict (missing - 1) px (cache.insertPixel px) rest)
    else if tagOf b = 0b01 then
      let px := applyDelta prev (b.extractLsb' 4 2) (b.extractLsb' 2 2) (b.extractLsb' 0 2)
      .after [px] (decodeBody strict (missing - 1) px (cache.insertPixel px) rest)
    else if tagOf b = 0b10 then .stop (.failed .corruptStream) rest
    else
      let len := (payloadOf b).toNat + 1
      if missing < len then .stop (.failed .corruptStream) rest
      else .after (List.replicate len prev) (decodeBody strict (missing - len) prev cache rest)

/-- The decode of a byte source that ends after `bytes` (R270), with the bytes it leaves. The header is taken
whole before it is judged (45_header_end.md R202, R203). -/
def decodeSource (bytes : List Byte) (w h : BitVec 16) (strict : Bool) : Decoded :=
  match bytes with
  | m0 :: m1 :: m2 :: m3 :: wl :: wh :: hl :: hh :: rest =>
    if [m0, m1, m2, m3] ≠ Config.magic then .stop (.failed .invalidHeader) rest
    else if ofBytes wl wh = 0 ∨ ofBytes hl hh = 0 ∨ ofBytes wl wh ≠ w ∨ ofBytes hl hh ≠ h then
      .stop (.failed .invalidHeader) rest
    else decodeBody strict (w.toNat * h.toNat) Config.prevInit Cache.init rest
  | _ => .stop (.failed .unexpectedEnd) []

/-- `decode(B, W, H, strict)`: how the decode ends and the pixels it hands over (R270). -/
def decodeImage (bytes : List Byte) (w h : BitVec 16) (strict : Bool) : DecodeEnd × List Pixel :=
  ((decodeSource bytes w h strict).fin, (decodeSource bytes w h strict).pixels)

end Sys2Proof.Machine
end

