-- ==== Sys2Proof/Safety.lean ====
section
/-!
DEFINITION. What holds in every reachable state (the spec's own invariants), and the terms in which
statements speak of a run: what the host still gets, and which part of the state an action leaves alone.
-/

namespace Sys2Proof.Machine

/-! ### Invariants -/

/-- Every slot holds 0x0000 or a pixel whose hash it is (40_pixel_cache.md R128). -/
def Cache.Keyed (c : Cache) : Prop := ∀ i : BitVec 6, c.slot i = 0 ∨ pixelHash (c.slot i) = i

/-- The most bytes `obuf` holds in a phase (10_state.md R42, 46_opcode_encoder.md R247). -/
def Phase.obufLimit : Phase → Nat
  | .header => 8
  | .body => 4
  | .trailer => 2
  | .idle => 0
  | .done => 0
  | .error => 0

/-- The facts of spec/ that hold between steps. -/
structure State.Inv (s : State) : Prop where
  /-- `err` is 0 exactly outside ERROR (10_state.md R28). -/
  err_iff : s.err = .none ↔ s.phase ≠ .error
  /-- `run` is 0 to 62 (10_state.md R26). -/
  run_le : s.run.toNat ≤ Config.maxRun
  /-- In encode the run is flushed in the step that reaches 62 (70_reset_and_hazards.md R378). -/
  run_lt_of_encode : s.mode = .encode → s.run.toNat < Config.maxRun
  /-- A run is pending or owed in phase BODY only. -/
  run_eq_zero : s.phase ≠ .body → s.run = 0
  /-- `pix_cnt <= total` (10_state.md R27). -/
  pixCnt_le : s.pixCnt.toNat ≤ s.total.toNat
  /-- What the decoder owes the sink fits into the image (41_run.md R148, 47_opcode_decoder.md R268). -/
  owed_le : s.mode = .decode → s.run.toNat ≤ s.total.toNat - s.pixCnt.toNat
  /-- Nothing is missing once the body is over. -/
  pixCnt_eq : s.phase = .trailer ∨ s.phase = .done → s.pixCnt = s.total
  /-- In phase HEADER no pixel has been counted. -/
  pixCnt_header : s.phase = .header → s.pixCnt = 0
  /-- Until the first pixel or record `prev` and the cache hold their START values (10_state.md R50). -/
  fresh_header : s.phase = .header → s.prev = Config.prevInit ∧ s.cache = Cache.init
  /-- A wrong magic byte is one that has been read (45_header_end.md R202). -/
  hdrBad_header : s.phase = .header → s.hdrBad = true → s.sub ≠ 0
  /-- `obuf` is within its bound, and empty outside an operation (10_state.md R42). -/
  obuf_le : s.obuf.length ≤ s.phase.obufLimit
  /-- `obuf` is empty in decode (10_state.md R42). -/
  obuf_decode : s.mode = .decode → s.obuf = []
  /-- 40_pixel_cache.md R128. -/
  cache_keyed : s.cache.Keyed
  /-- 40_pixel_cache.md R129. -/
  prev_cached : s.cache.slot (pixelHash s.prev) = s.prev
  /-- The assembly registers keep their START values in an encode (10_state.md R43). -/
  unused_in_encode : s.mode = .encode → s.busy = true →
    s.sub = 0 ∧ s.hold = 0 ∧ s.hdrBad = false ∧ s.hdrW = 0 ∧ s.hdrH = 0
  /-- `sub` counts header bytes 0 to 7 (10_state.md R43). -/
  sub_header : s.phase = .header → s.sub.toNat ≤ 7
  /-- `sub` is 0, 1 or 2 in BODY, and not 0 only inside an RGB565 record (10_state.md R43). -/
  sub_body : s.phase = .body → s.sub.toNat ≤ 2
  /-- Inside an RGB565 record a pixel is missing and none is owed (44_literal.md R191). -/
  sub_literal : s.phase = .body → s.sub ≠ 0 → s.run = 0 ∧ s.pixCnt.toNat < s.total.toNat
  /-- At the trailer position no item is half read. -/
  sub_trailer : s.phase = .trailer → s.sub = 0
  /-- `total` is the declared product throughout an encode (10_state.md R27). -/
  total_encode : s.mode = .encode → s.busy = true →
    s.total = area s.width s.height ∧ s.npix = s.total
  /-- In decode `total` is 0 until the header completes (10_state.md R50). -/
  total_header : s.mode = .decode → s.phase = .header → s.total = 0
  /-- After a valid header: the declared dimensions, at least one pixel (45_header_end.md R203). -/
  total_decode : s.mode = .decode → s.phase = .body ∨ s.phase = .trailer →
    s.total = area s.width s.height ∧ s.hdrW = s.width ∧ s.hdrH = s.height ∧ s.hdrBad = false ∧
      0 < s.total.toNat

/-! ### What a run gives -/

/-- The operation ended without error; an operation that ended in ERROR has produced no usable output
(60_exceptions.md R337). -/
def State.endedWell (s : State) : Bool := s.phase = .done

/-- The bytes an encode still hands over if after `pixSrc` the host offers the pixels `more`: what is staged
and then the records and END of the missing pixels (46_opcode_encoder.md R230). -/
def State.pendingBytes (s : State) (more : List Pixel) : List Byte :=
  let missing := (s.pixSrc ++ more).take (s.total.toNat - s.pixCnt.toNat)
  s.obuf ++
    match s.phase with
    | .header => encodeBody s.prev s.run.toNat s.cache missing
    | .body => encodeBody s.prev s.run.toNat s.cache missing
    | .trailer => []
    | .idle => []
    | .done => []
    | .error => []

/-- The header bytes a decode has read, as far as it remembers them: the first `sub` of the eight bytes,
the dimensions as `hdr_w` and `hdr_h` hold them, and the magic right, or wrong in its first byte where
`hdr_bad` says that some byte of it was (45_header_end.md R202). -/
def State.takenHeader (s : State) : List Byte :=
  ((if s.hdrBad then [0x00, 0x35, 0x36, 0x35] else Config.magic) ++
    [loByte s.hdrW, hiByte s.hdrW, loByte s.hdrH, hiByte s.hdrH]).take s.sub.toNat

/-- The bytes of the record the decoder is inside of, as the source gave them: the tag and the low byte of
a half-read RGB565 (44_literal.md R191). -/
def State.takenBytes (s : State) : List Byte :=
  if s.sub = 0 then []
  else if s.sub = 1 then [Config.literalTag]
  else [Config.literalTag, s.hold]

/-- How a decode ends, the pixels it still hands over and the bytes it leaves, if after `byteSrc` the host
offers the bytes `more` and then the end, and keeps taking pixels (47_opcode_decoder.md R270, R283). In
IDLE, DONE and ERROR nothing is pending. -/
def State.pendingDecode (s : State) (more : List Byte) : Decoded :=
  let bytes := s.byteSrc ++ more
  match s.phase with
  | .header => decodeSource (s.takenHeader ++ bytes) s.width s.height s.strict
  | .body =>
    .after (List.replicate s.run.toNat s.prev)
      (decodeBody s.strict (s.total.toNat - s.pixCnt.toNat - s.run.toNat) s.prev s.cache
        (s.takenBytes ++ bytes))
  | .trailer => trailerEnd true bytes
  | .idle => .stop .done bytes
  | .done => .stop .done bytes
  | .error => .stop (.failed s.err) bytes

/-! ### Where the engine stands -/

/-- The decoder asks for a record byte: the common guard of the records (44_literal.md R191,
42_index.md R161, 43_diff.md R178, 41_run.md R148), as the spec writes it. -/
abbrev State.RecordGuard (s : State) : Prop :=
  s.mode = .decode ∧ s.phase = .body ∧ s.run = 0 ∧ s.pixCnt.toNat < s.total.toNat

/-- The decoder asks for a header byte (45_header_end.md R202, R203; log 11). -/
abbrev State.HeaderGuard (s : State) : Prop := s.mode = .decode ∧ s.phase = .header ∧ s.run = 0

/-- The decoder asks for the trailer (45_header_end.md R209, R210; log 11). -/
abbrev State.TrailerGuard (s : State) : Prop := s.mode = .decode ∧ s.phase = .trailer ∧ s.run = 0

/-- The encoder can take a pixel if one is offered (46_opcode_encoder.md R221). -/
abbrev State.PixelGuard (s : State) : Prop :=
  s.mode = .encode ∧ s.phase = .body ∧ s.obuf = [] ∧ s.pixCnt.toNat < s.total.toNat

/-- A turn in which the host takes what the engine offers (70_reset_and_hazards.md R371 H10). -/
def HostTurn.takeAll : HostTurn := .ports ⟨true, true⟩

/-! ### Parts of the state -/

/-- The two states agree on the configuration: CFG, DIM and NPIX (10_state.md R29). -/
def State.sameConfig (s t : State) : Prop :=
  t.mode = s.mode ∧ t.strict = s.strict ∧ t.width = s.width ∧ t.height = s.height ∧ t.npix = s.npix

/-- The engine's part of `t` is that of `s`; the host's side is its own (10_state.md R20). -/
def State.sameEngine (s t : State) : Prop :=
  t = { s with
    script := t.script
    pixSrc := t.pixSrc
    byteSrc := t.byteSrc
    byteSrcEnds := t.byteSrcEnds
    byteSink := t.byteSink
    pixSink := t.pixSink
    readLog := t.readLog }

end Sys2Proof.Machine
end

