-- ==== Sys2Proof/Certificates/Slice0/Obligations.lean ====
section
/-!
DEFINITION. The statements for the provers. Each docstring names the rules of spec/ it formalises.
-/

open Sys2Proof Sys2Proof.Machine
open Host (Outcome)

/-! ### Encoding -/

/-- Decoding the encoding of a well-formed instruction gives it back, also with bytes after it
(30_encoding.md R90 to R97, R103, 46_opcode_encoder.md R240 to R245, 10_state.md R29). -/
def Obligations.DecodeOfEncode : Prop :=
  ∀ i : Instr, i.wellFormed = true →
    decode (encode i) = .ok (i, []) ∧
    (∀ bytes rest, encode i = .record bytes → decode (.record (bytes ++ rest)) = .ok (i, rest)) ∧
    (∀ bytes rest, encode i = .header bytes → decode (.header (bytes ++ rest)) = .ok (i, rest))

/-- What is decoded is well formed and encodes to the bytes it was read from
(30_encoding.md R92 to R97, R104). -/
def Obligations.EncodeOfDecode : Prop :=
  (∀ bytes i rest, decode (.record bytes) = .ok (i, rest) →
    i.wellFormed = true ∧ encode i = .record (encodeBytes i) ∧ bytes = encodeBytes i ++ rest) ∧
  (∀ bytes i rest, decode (.header bytes) = .ok (i, rest) →
    i.wellFormed = true ∧ encode i = .header (encodeBytes i) ∧ bytes = encodeBytes i ++ rest)

/-- Which item each of the 256 values of a leading byte stands for, and with which fields
(30_encoding.md R93 to R98, R100 to R104). -/
def Obligations.LeadingByteMap : Prop :=
  ∀ (b : Byte) (rest : List Byte),
    (b.toNat ≤ 0x3F → decode (.record (b :: rest)) = .ok (.index (b.extractLsb' 0 6), rest)) ∧
    (0x40 ≤ b.toNat ∧ b.toNat ≤ 0x7F → decode (.record (b :: rest)) =
      .ok (.diff (b.extractLsb' 4 2) (b.extractLsb' 2 2) (b.extractLsb' 0 2), rest)) ∧
    (0x80 ≤ b.toNat ∧ b.toNat ≤ 0xBF →
      decode (.record (b :: rest)) = .ok (.reserved (b.extractLsb' 0 6), rest)) ∧
    (0xC0 ≤ b.toNat ∧ b.toNat ≤ 0xFD →
      decode (.record (b :: rest)) = .ok (.run (b.extractLsb' 0 6), rest)) ∧
    (b.toNat = 0xFE → ∀ lo hi,
      decode (.record (b :: lo :: hi :: rest)) = .ok (.rgb565 (hi ++ lo), rest)) ∧
    (b.toNat = 0xFF → decode (.record (b :: rest)) = .ok (.endMarker, rest))

/-- The length of a record is 3 if its leading byte is 0xFE and 1 otherwise (30_encoding.md R108). -/
def Obligations.RecordLengthByLeadingByte : Prop :=
  ∀ (b : Byte) (bytes rest : List Byte) (i : Instr),
    decode (.record (b :: bytes)) = .ok (i, rest) →
    ∃ item, b :: bytes = item ++ rest ∧ item.length = if b = 0xFE then 3 else 1

/-- Words written out from the spec's encodings decode to the items they stand for
(95_test_vectors.md 2.1 to 2.6; 10_state.md R29). A sanity statement. -/
def Obligations.SpecWordsDecode : Prop :=
  decode (.header [0x71, 0x35, 0x36, 0x35, 0x40, 0x01, 0xF0, 0x00]) =
    .ok (.header 0x71 0x35 0x36 0x35 320 240, []) ∧
  decode (.record [0x27]) = .ok (.index 39, []) ∧
  decode (.record [0x4D]) = .ok (.diff 0 3 1, []) ∧
  decode (.record [0x80]) = .ok (.reserved 0, []) ∧
  decode (.record [0xFD]) = .ok (.run 61, []) ∧
  decode (.record [0xFE, 0x34, 0x12]) = .ok (.rgb565 0x1234, []) ∧
  decode (.record [0xFF]) = .ok (.endMarker, []) ∧
  decode (.control 0x00000001) = .ok (.start, []) ∧
  decode (.control 0x00000003) = .ok (.reset, [])

/-- For a pixel that differs from `prev` the encoder's bytes are those of one well-formed INDEX, DIFF or
RGB565, never a RUN; their leading byte is never reserved, never END, and never the DIFF with all
differences zero (30_encoding.md R99, 43_diff.md R174, 41_run.md R147). -/
def Obligations.EncoderChoosesLegalRecord : Prop :=
  ∀ (prev px : Pixel) (c : Cache), px ≠ prev →
    (choose prev px c).wellFormed = true ∧
    (choose prev px c = .index (pixelHash px) ∨ (∃ fr fg fb, choose prev px c = .diff fr fg fb) ∨
      choose prev px c = .rgb565 px) ∧
    ∃ b rest, encodeBytes (choose prev px c) = b :: rest ∧
      ¬ (0x80 ≤ b.toNat ∧ b.toNat ≤ 0xBF) ∧ b ≠ 0xFF ∧ b ≠ 0x6A ∧
      (rest = [] ∨ (b = 0xFE ∧ rest.length = 2))

/-! ### Pixels, hash, deltas -/

/-- `hash` is the formula of the spec on the packed pixel (40_pixel_cache.md R120). -/
def Obligations.HashFormula : Prop :=
  ∀ p : Pixel, (pixelHash p).toNat =
    (3 * (p.toNat / 2048) + 5 * (p.toNat / 32 % 64) + 7 * (p.toNat % 32)) % 64

/-- For every slot, red and blue there is exactly one green: so exactly 1024 pixels map to each slot
(40_pixel_cache.md R121). -/
def Obligations.HashSpreadsEvenly : Prop :=
  ∀ (i : BitVec 6) (r : BitVec 5) (b : BitVec 5),
    ∃ g : BitVec 6, pixelHash (rgb r g b) = i ∧ ∀ g' : BitVec 6, pixelHash (rgb r g' b) = i → g' = g

/-- `fits` holds exactly when the three signed wrapped differences lie in -2..+1, and the fields are
then the differences plus 2 (43_diff.md R170, R171, R172). -/
def Obligations.DeltaFitsMeaning : Prop :=
  ∀ prev px : Pixel,
    let dr := (red px - red prev).toInt
    let dg := (green px - green prev).toInt
    let db := (blue px - blue prev).toInt
    ((delta prev px).fits = true ↔
      (-2 ≤ dr ∧ dr ≤ 1) ∧ (-2 ≤ dg ∧ dg ≤ 1) ∧ (-2 ≤ db ∧ db ≤ 1)) ∧
    ((delta prev px).fits = true →
      ((delta prev px).fr.toNat : Int) = dr + 2 ∧
      ((delta prev px).fg.toNat : Int) = dg + 2 ∧
      ((delta prev px).fb.toNat : Int) = db + 2)

/-- DIFF decodes what the delta_encoder encoded, and a decoded DIFF re-encodes to its own fields
(43_diff.md R179). -/
def Obligations.DeltaInverse : Prop :=
  (∀ prev px : Pixel, (delta prev px).fits = true →
    applyDelta prev (delta prev px).fr (delta prev px).fg (delta prev px).fb = px) ∧
  (∀ (prev : Pixel) (fr fg fb : BitVec 2),
    delta prev (applyDelta prev fr fg fb) = ⟨true, fr, fg, fb⟩)

/-! ### Records in the decoder -/

/-- INDEX: the pixel of the slot, read first, is inserted, becomes `prev` and is owed once; nothing else
changes (42_index.md R161). -/
def Obligations.IndexResult : Prop :=
  ∀ (idx : BitVec 6) (s : State), s.RecordGuard → s.sub = 0 →
    exec (.index idx) s = .next { s with
      cache := s.cache.insertPixel (s.cache.slot idx)
      prev := s.cache.slot idx
      run := 1 }

/-- The insert of an INDEX can write another slot than the one read only if that slot holds 0x0000, and
then it writes slot 0 (42_index.md R163). -/
def Obligations.IndexOfUnwrittenSlot : Prop :=
  ∀ (idx : BitVec 6) (s : State), s.RecordGuard → s.sub = 0 → s.cache.Keyed →
    pixelHash (s.cache.slot idx) ≠ idx →
    s.cache.slot idx = 0 ∧
      exec (.index idx) s = .next { s with cache := s.cache.set 0 0, prev := 0, run := 1 }

/-- DIFF: each channel is that of `prev` plus the field less 2, modulo 32, 64 and 32; the pixel is
inserted, becomes `prev` and is owed once; nothing else changes (43_diff.md R178, 30_encoding.md R101). -/
def Obligations.DiffResult : Prop :=
  ∀ (fr fg fb : BitVec 2) (s : State), s.RecordGuard → s.sub = 0 →
    ∃ px : Pixel,
      ((red px).toNat : Int) = (((red s.prev).toNat : Int) + fr.toNat - 2) % 32 ∧
      ((green px).toNat : Int) = (((green s.prev).toNat : Int) + fg.toNat - 2) % 64 ∧
      ((blue px).toNat : Int) = (((blue s.prev).toNat : Int) + fb.toNat - 2) % 32 ∧
      exec (.diff fr fg fb) s =
        .next { s with cache := s.cache.insertPixel px, prev := px, run := 1 }

/-- RUN: the run is owed, or CorruptStream where it would pass the end of the image; nothing else
changes (41_run.md R148). -/
def Obligations.RunResult : Prop :=
  ∀ (n : BitVec 6) (s : State), s.RecordGuard → s.sub = 0 → n.toNat ≤ 61 →
    exec (.run n) s =
      if s.total.toNat - s.pixCnt.toNat < n.toNat + 1 then
        .next { s with phase := .error, err := .corruptStream }
      else .next { s with run := BitVec.ofNat 6 (n.toNat + 1) }

/-- RGB565: its three steps, each with what it writes and nothing else (44_literal.md R191). -/
def Obligations.LiteralSteps : Prop :=
  ∀ (px : Pixel) (s : State), s.RecordGuard →
    (s.sub = 0 → exec (.rgb565 px) s = .next { s with sub := 1 }) ∧
    (s.sub = 1 → exec (.rgb565 px) s = .next { s with hold := px.extractLsb' 0 8, sub := 2 }) ∧
    (s.sub = 2 → exec (.rgb565 px) s = .next { s with
      cache := s.cache.insertPixel (px.extractLsb' 8 8 ++ s.hold)
      prev := px.extractLsb' 8 8 ++ s.hold
      run := 1
      sub := 0 })

/-- The three bytes of an RGB565, taken by three steps of the machine whatever the host takes meanwhile,
leave the pixel they carry, low byte first (44_literal.md R191, 30_encoding.md R103, 20_memory.md R71). -/
def Obligations.LiteralTakenWhole : Prop :=
  ∀ (s : State) (p q r : Ports) (turns : List HostTurn) (lo hi : Byte) (rest : List Byte),
    s.RecordGuard → s.sub = 0 →
    s.script = .ports p :: .ports q :: .ports r :: turns → s.byteSrc = 0xFE :: lo :: hi :: rest →
    core.run 3 s = .next { s with
      script := turns
      byteSrc := rest
      hold := lo
      cache := s.cache.insertPixel (hi ++ lo)
      prev := hi ++ lo
      run := 1 }

/-- The reserved tag: CorruptStream, whatever the other bits; nothing else changes
(30_encoding.md R104). -/
def Obligations.ReservedResult : Prop :=
  ∀ (x : BitVec 6) (s : State), s.RecordGuard → s.sub = 0 →
    exec (.reserved x) s = .next { s with phase := .error, err := .corruptStream }

/-! ### Framing items in the decoder -/

/-- HEADER, bytes 0 to 6 (45_header_end.md R202). -/
def Obligations.HeaderBytes : Prop :=
  ∀ (m0 m1 m2 m3 : Byte) (w h : BitVec 16) (s : State), s.HeaderGuard →
    (s.sub = 0 → exec (.header m0 m1 m2 m3 w h) s =
      .next { s with hdrBad := if m0 = 0x71 then s.hdrBad else true, sub := 1 }) ∧
    (s.sub = 1 → exec (.header m0 m1 m2 m3 w h) s =
      .next { s with hdrBad := if m1 = 0x35 then s.hdrBad else true, sub := 2 }) ∧
    (s.sub = 2 → exec (.header m0 m1 m2 m3 w h) s =
      .next { s with hdrBad := if m2 = 0x36 then s.hdrBad else true, sub := 3 }) ∧
    (s.sub = 3 → exec (.header m0 m1 m2 m3 w h) s =
      .next { s with hdrBad := if m3 = 0x35 then s.hdrBad else true, sub := 4 }) ∧
    (s.sub = 4 → exec (.header m0 m1 m2 m3 w h) s =
      .next { s with hdrW := s.hdrW.extractLsb' 8 8 ++ w.extractLsb' 0 8, sub := 5 }) ∧
    (s.sub = 5 → exec (.header m0 m1 m2 m3 w h) s =
      .next { s with hdrW := w.extractLsb' 8 8 ++ s.hdrW.extractLsb' 0 8, sub := 6 }) ∧
    (s.sub = 6 → exec (.header m0 m1 m2 m3 w h) s =
      .next { s with hdrH := s.hdrH.extractLsb' 8 8 ++ h.extractLsb' 0 8, sub := 7 })

/-- HEADER, byte 7: the header is judged as a whole (45_header_end.md R203). -/
def Obligations.HeaderCompletion : Prop :=
  ∀ (m0 m1 m2 m3 : Byte) (w h : BitVec 16) (s : State), s.HeaderGuard → s.sub = 7 →
    let h' : BitVec 16 := h.extractLsb' 8 8 ++ s.hdrH.extractLsb' 0 8
    exec (.header m0 m1 m2 m3 w h) s =
      if s.hdrBad = true ∨ s.hdrW = 0 ∨ h' = 0 ∨ s.hdrW ≠ s.width ∨ h' ≠ s.height then
        .next { s with hdrH := h', phase := .error, err := .invalidHeader }
      else
        .next { s with
          hdrH := h'
          total := BitVec.ofNat 32 (s.hdrW.toNat * h'.toNat)
          sub := 0
          phase := .body }

/-- The eight header bytes, taken by eight steps of the machine: BODY with `total = w * h` if the
dimensions are not zero and are those the host declared, InvalidHeader otherwise; HDRDIM shows the
header's dimensions either way (45_header_end.md R202, R203, R204). -/
def Obligations.HeaderTakenWhole : Prop :=
  ∀ (s : State) (served : List Ports) (turns : List HostTurn) (w h : BitVec 16) (rest : List Byte),
    s.HeaderGuard → s.sub = 0 → s.hdrBad = false →
    served.length = 8 →
    s.script = served.map .ports ++ turns →
    s.byteSrc = [0x71, 0x35, 0x36, 0x35, w.extractLsb' 0 8, w.extractLsb' 8 8,
      h.extractLsb' 0 8, h.extractLsb' 8 8] ++ rest →
    core.run 8 s =
      if w = 0 ∨ h = 0 ∨ w ≠ s.width ∨ h ≠ s.height then
        .next { s with
          script := turns, byteSrc := rest, hdrW := w, hdrH := h, sub := 7
          phase := .error, err := .invalidHeader }
      else
        .next { s with
          script := turns, byteSrc := rest, hdrW := w, hdrH := h, sub := 0
          phase := .body, total := BitVec.ofNat 32 (w.toNat * h.toNat) }

/-- END: it completes a strict decode in phase TRAILER; as a leading byte in BODY it raises
CorruptStream; nothing else changes (45_header_end.md R207, R209). -/
def Obligations.EndResult : Prop :=
  ∀ s : State,
    (s.TrailerGuard → exec .endMarker s = .next { s with phase := .done }) ∧
    (s.RecordGuard → s.sub = 0 →
      exec .endMarker s = .next { s with phase := .error, err := .corruptStream })

/-- Any byte other than 0xFF at the trailer position is consumed and raises TrailingData
(45_header_end.md R210). -/
def Obligations.TrailerByteNotEnd : Prop :=
  ∀ (s : State) (p : Ports) (turns : List HostTurn) (b : Byte) (rest : List Byte),
    s.TrailerGuard → s.script = .ports p :: turns →
    s.byteSrc = b :: rest → b ≠ 0xFF →
    step s = .next { s with
      script := turns, byteSrc := rest, phase := .error, err := .trailingData }

/-! ### Host commands -/

/-- START while busy changes nothing (48_host_commands.md R302). -/
def Obligations.StartIgnoredWhileBusy : Prop :=
  ∀ s : State, s.phase = .header ∨ s.phase = .body ∨ s.phase = .trailer →
    exec .start s = .next s

/-- An accepted START in encode: the operation state is set, then DimensionMismatch or the eight header
bytes (48_host_commands.md R303, R304). -/
def Obligations.StartEncodeResult : Prop :=
  ∀ s : State, s.phase = .idle ∨ s.phase = .done ∨ s.phase = .error → s.mode = .encode →
    let t : State := { s with
      err := .none, prev := 0, run := 0, pixCnt := 0, total := 0, cache := Vector.replicate 64 0
      obuf := [], sub := 0, hold := 0, hdrBad := false, hdrW := 0, hdrH := 0 }
    exec .start s =
      if s.npix.toNat ≠ s.width.toNat * s.height.toNat then
        .next { t with phase := .error, err := .dimensionMismatch }
      else
        .next { t with
          total := BitVec.ofNat 32 (s.width.toNat * s.height.toNat)
          obuf := [0x71, 0x35, 0x36, 0x35, s.width.extractLsb' 0 8, s.width.extractLsb' 8 8,
            s.height.extractLsb' 0 8, s.height.extractLsb' 8 8]
          phase := .header }

/-- An accepted START in decode: the operation state is set and nothing is checked
(48_host_commands.md R303, R305). -/
def Obligations.StartDecodeResult : Prop :=
  ∀ s : State, s.phase = .idle ∨ s.phase = .done ∨ s.phase = .error → s.mode = .decode →
    exec .start s = .next { s with
      err := .none, prev := 0, run := 0, pixCnt := 0, total := 0, cache := Vector.replicate 64 0
      obuf := [], sub := 0, hold := 0, hdrBad := false, hdrW := 0, hdrH := 0, phase := .header }

/-- The state left by an earlier operation does not influence the next one: after an accepted START the
engine's part depends on the configuration alone (70_reset_and_hazards.md R361). -/
def Obligations.StartForgetsTheLastOperation : Prop :=
  ∀ s s' t t' : State, s.busy = false → s'.busy = false → s.sameConfig s' →
    exec .start s = .next t → exec .start s' = .next t' → t.sameEngine t'

/-- RESET in any phase gives every item of the engine's state its reset value; the host's side is kept
(48_host_commands.md R301, 10_state.md R50; the host's side: log 12). -/
def Obligations.ResetResult : Prop :=
  ∀ s : State, exec .reset s = .next { s with
    mode := .encode, strict := false, width := 0, height := 0, npix := 0, phase := .idle, err := .none
    prev := 0, run := 0, pixCnt := 0, total := 0, cache := Vector.replicate 64 0, obuf := [], sub := 0
    hold := 0, hdrBad := false, hdrW := 0, hdrH := 0 }

/-- After reset the engine is in IDLE, every register reads zero, every other item of its state has its
reset value and every output signal is 0 (70_reset_and_hazards.md R360). -/
def Obligations.ResetShowsZero : Prop :=
  State.reset.phase = .idle ∧ State.reset.err = .none ∧ State.reset.mode = .encode ∧
    State.reset.strict = false ∧ (∀ r : Reg, State.reset.readWord r = 0) ∧
    (∀ i : BitVec 6, State.reset.cache.slot i = 0) ∧
    State.reset.prev = 0 ∧ State.reset.run = 0 ∧ State.reset.total = 0 ∧ State.reset.obuf = [] ∧
    State.reset.sub = 0 ∧ State.reset.hold = 0 ∧ State.reset.hdrBad = false ∧
    State.reset.busy = false ∧ State.reset.isDone = false ∧ State.reset.isError = false ∧
    State.reset.needIn = false ∧ State.reset.needOut = false ∧ State.reset.pixInReady = false ∧
    State.reset.byteOutValid = false ∧ State.reset.byteInReady = false ∧
    State.reset.pixOutValid = false

/-- A START straight after RESET encodes the 0 by 0 image: nine bytes and DONE
(70_reset_and_hazards.md R362). -/
def Obligations.EmptyImageAfterReset : Prop :=
  ∃ t : State,
    core.run 13 { State.reset with
      script := .writeReg .ctrl 1 :: List.replicate 12 HostTurn.takeAll } = .next t ∧
    t.byteSink = [0x71, 0x35, 0x36, 0x35, 0x00, 0x00, 0x00, 0x00, 0xFF] ∧ t.phase = .done

/-! ### A step runs the decoded item -/

/-- When the decoder asks for a byte and the byte on offer is the `sub`-th byte of an item that stands
there, the step takes the byte and is exec of that item (47_opcode_decoder.md R262, 45_header_end.md R202,
30_encoding.md R91). The step takes one turn of the script and one byte of the source; nothing else
happens around exec. The item is any, also a HEADER with wrong magic bytes, but a RUN whose operand is
62 or 63: those have no encoding of their own. -/
def Obligations.StepRunsDecodedItem : Prop :=
  ∀ (s : State) (i : Instr) (p : Ports) (turns : List HostTurn) (b : Byte) (rest : List Byte),
    (∀ n, i = .run n → n.toNat ≤ 61) → s.byteInReady = true →
    s.script = .ports p :: turns → s.byteSrc = b :: rest →
    (if s.phase = .header then encode i = .header (encodeBytes i)
      else encode i = .record (encodeBytes i)) →
    (encodeBytes i)[if s.phase = .trailer then 0 else s.sub.toNat]? = some b →
    step s = exec i { s with script := turns, byteSrc := rest }

/-- A host write of CTRL that decodes to a command is exec of that command; one that decodes to none
changes nothing (48_host_commands.md R301, R302, R306). The step takes one turn of the script. -/
def Obligations.StepRunsHostCommand : Prop :=
  ∀ (s : State) (v : Word) (turns : List HostTurn), s.script = .writeReg .ctrl v :: turns →
    (v.getLsbD 1 = true → step s = exec .reset { s with script := turns }) ∧
    (v.getLsbD 1 = false → v.getLsbD 0 = true → step s = exec .start { s with script := turns }) ∧
    (v.getLsbD 1 = false → v.getLsbD 0 = false → step s = .next { s with script := turns })

/-! ### The engine's own steps -/

/-- A pixel that equals `prev` extends the run; the run that reaches 62 is emitted in the same step;
`prev` and the cache are not written (46_opcode_encoder.md R224, R225, 41_run.md R142, R143, R147). -/
def Obligations.RunPixelStep : Prop :=
  ∀ (s : State) (p : Ports) (turns : List HostTurn) (rest : List Pixel),
    s.PixelGuard → s.script = .ports p :: turns → s.pixSrc = s.prev :: rest →
    s.run.toNat < 62 →
    step s = .next { s with
      script := turns
      pixSrc := rest
      pixCnt := BitVec.ofNat 32 (s.pixCnt.toNat + 1)
      run := if s.run.toNat = 61 then 0 else BitVec.ofNat 6 (s.run.toNat + 1)
      obuf := if s.run.toNat = 61 then [0xFD] else [] }

/-- A pixel that differs from `prev`: the pending run first, then INDEX if its slot holds it, else DIFF
if the difference fits, else RGB565; then it is inserted and becomes `prev`
(46_opcode_encoder.md R224, R226, R227, 41_run.md R144). -/
def Obligations.NonRunPixelStep : Prop :=
  ∀ (s : State) (p : Ports) (turns : List HostTurn) (px : Pixel) (rest : List Pixel),
    s.PixelGuard → s.script = .ports p :: turns → s.pixSrc = px :: rest →
    px ≠ s.prev → s.run.toNat < 62 →
    step s = .next { s with
      script := turns
      pixSrc := rest
      pixCnt := BitVec.ofNat 32 (s.pixCnt.toNat + 1)
      run := 0
      obuf := (if s.run.toNat = 0 then [] else [BitVec.ofNat 8 (0xC0 + (s.run.toNat - 1))]) ++
        (if s.cache.slot (pixelHash px) = px then [BitVec.ofNat 8 (pixelHash px).toNat]
          else if (delta s.prev px).fits = true then
            [BitVec.ofNat 8 (0x40 + (delta s.prev px).fr.toNat * 16 +
              (delta s.prev px).fg.toNat * 4 + (delta s.prev px).fb.toNat)]
          else [0xFE, px.extractLsb' 0 8, px.extractLsb' 8 8])
      cache := s.cache.insertPixel px
      prev := px }

/-- The three internal steps of an encode: the header is out, the image is complete, the stream is out
(46_opcode_encoder.md R223, R228, R229, 45_header_end.md R206). -/
def Obligations.EncodeTauSteps : Prop :=
  ∀ (s : State) (p : Ports) (turns : List HostTurn),
    s.mode = .encode → s.obuf = [] → s.script = .ports p :: turns →
    (s.phase = .header → step s = .next { s with script := turns, phase := .body }) ∧
    (s.phase = .body → s.pixCnt = s.total → s.run.toNat < 62 → step s = .next { s with
      script := turns
      obuf := if s.run.toNat = 0 then [0xFF]
        else [BitVec.ofNat 8 (0xC0 + (s.run.toNat - 1)), 0xFF]
      run := 0
      phase := .trailer }) ∧
    (s.phase = .trailer → step s = .next { s with script := turns, phase := .done })

/-- Emit: the first byte of `obuf` goes to the sink and nothing else changes
(46_opcode_encoder.md R248, 20_memory.md R67). -/
def Obligations.EmitByteStep : Prop :=
  ∀ (s : State) (p : Ports) (turns : List HostTurn) (b : Byte) (rest : List Byte),
    s.mode = .encode → s.busy = true → s.obuf = b :: rest → p.byteOut = true →
    s.script = .ports p :: turns →
    step s = .next { s with script := turns, obuf := rest, byteSink := s.byteSink ++ [b] }

/-- Emit pixel: `prev` goes to the sink, one copy fewer is owed, the pixel is counted
(47_opcode_decoder.md R268). -/
def Obligations.EmitPixelStep : Prop :=
  ∀ (s : State) (p : Ports) (turns : List HostTurn),
    s.mode = .decode → s.phase = .body → 0 < s.run.toNat → p.pixOut = true →
    s.script = .ports p :: turns →
    step s = .next { s with
      script := turns
      run := BitVec.ofNat 6 (s.run.toNat - 1)
      pixCnt := s.pixCnt + 1
      pixSink := s.pixSink ++ [s.prev] }

/-- End of body: TRAILER in a strict decode, DONE in a lenient one, no byte consumed
(45_header_end.md R208, R212). -/
def Obligations.EndOfBodyStep : Prop :=
  ∀ (s : State) (p : Ports) (turns : List HostTurn),
    s.mode = .decode → s.phase = .body → s.run = 0 → s.pixCnt = s.total →
    s.script = .ports p :: turns →
    step s = .next { s with
      script := turns
      phase := if s.strict = true then .trailer else .done }

/-- End of source where a byte is needed: UnexpectedEnd, nothing consumed, nothing else changed. While a
pixel is owed, and after the last pixel of a lenient decode, an end of source raises nothing
(47_opcode_decoder.md R281). -/
def Obligations.EndOfSourceStep : Prop :=
  ∀ (s : State) (p : Ports) (turns : List HostTurn),
    s.mode = .decode → s.byteSrc = [] → s.byteSrcEnds = true → s.script = .ports p :: turns →
    (s.needIn = true →
      step s = .next { s with script := turns, phase := .error, err := .unexpectedEnd }) ∧
    (s.phase = .body ∧ (0 < s.run.toNat ∨ (s.pixCnt = s.total ∧ s.strict = false)) ∨
        (s.phase = .done ∧ s.strict = false) →
      ∃ t, step s = .next t ∧ t.phase ≠ .error ∧ t.err = s.err)

/-- Suspension: while the host does not take what is offered, or offers nothing of what is asked for,
the engine takes no step and its state stands still (20_memory.md R67, R68, 46_opcode_encoder.md R233,
47_opcode_decoder.md R273). -/
def Obligations.SuspensionLeavesNoTrace : Prop :=
  ∀ (s : State) (p : Ports) (turns : List HostTurn), s.script = .ports p :: turns →
    (s.byteOutValid = true → p.byteOut = false → step s = .next { s with script := turns }) ∧
    (s.pixOutValid = true → p.pixOut = false → step s = .next { s with script := turns }) ∧
    (s.pixInReady = true → s.pixSrc = [] →
      step s = .next { s with script := turns }) ∧
    (s.byteInReady = true → s.byteSrc = [] → s.byteSrcEnds = false →
      step s = .next { s with script := turns })

/-! ### Register access -/

/-- Register writes: a write of CTRL with bit 1 set is RESET, with bits 1:0 clear nothing; the others are
ignored while busy; otherwise CFG takes MODE and STRICT, DIM its two halves, NPIX the word; writes to
the read-only registers change nothing (48_host_commands.md R306). -/
def Obligations.RegisterWrites : Prop :=
  ∀ (s : State) (r : Reg) (v : Word) (turns : List HostTurn), s.script = .writeReg r v :: turns →
    (r = .ctrl →
      (v.getLsbD 1 = true → step s = exec .reset { s with script := turns }) ∧
      (v.extractLsb' 0 2 = 0 → step s = .next { s with script := turns })) ∧
    (r ≠ .ctrl →
      step s = .next (
        if s.busy = true then { s with script := turns }
        else match r with
          | .cfg => { s with
              script := turns
              mode := if v.getLsbD 0 = true then .decode else .encode
              strict := v.getLsbD 1 }
          | .dim => { s with
              script := turns, width := v.extractLsb' 0 16, height := v.extractLsb' 16 16 }
          | .npix => { s with script := turns, npix := v }
          | _ => { s with script := turns }))

/-- Register reads have no side effect on the engine, and return the fields of the register map, STATUS
with the codes of the phases and of the errors and with the two needs
(48_host_commands.md R307, 10_state.md R25, R29, R45, 60_exceptions.md R320; where the value goes is the
model's, log 18). -/
def Obligations.RegisterReads : Prop :=
  ∀ (s : State) (r : Reg) (turns : List HostTurn), s.script = .readReg r :: turns →
    ∃ v : Word, step s = .next { s with script := turns, readLog := s.readLog ++ [v] } ∧
      match r with
      | .ctrl => v = 0
      | .cfg => v.toNat = (if s.mode = .decode then 1 else 0) + (if s.strict = true then 2 else 0)
      | .dim => v.toNat = s.width.toNat + 65536 * s.height.toNat
      | .npix => v = s.npix
      | .status => v.toNat =
          (match s.phase with
            | .idle => 0 | .header => 1 | .body => 2 | .trailer => 3 | .done => 4 | .error => 5) +
          16 * (match s.err with
            | .none => 0 | .dimensionMismatch => 1 | .invalidHeader => 2 | .unexpectedEnd => 3
            | .corruptStream => 4 | .trailingData => 5) +
          (if (s.mode = .encode ∧ s.phase = .body ∧ s.obuf = [] ∧ s.pixCnt.toNat < s.total.toNat) ∨
              (s.mode = .decode ∧ s.run.toNat = 0 ∧
                (s.phase = .header ∨ (s.phase = .body ∧ s.pixCnt.toNat < s.total.toNat) ∨
                  s.phase = .trailer)) then 256 else 0) +
          (if (s.phase = .header ∨ s.phase = .body ∨ s.phase = .trailer) ∧
              ((s.mode = .encode ∧ s.obuf ≠ []) ∨ (s.mode = .decode ∧ 0 < s.run.toNat)) then 512
            else 0)
      | .pixcnt => v = s.pixCnt
      | .hdrdim => v.toNat = s.hdrW.toNat + 65536 * s.hdrH.toNat

/-- The five outputs as the table gives them; `need_in` and `need_out` are never 1 together and are bits 8
and 9 of STATUS; and a busy engine that needs neither takes an internal step: it goes to another phase and moves nothing through a
port, in every state with no more pixels counted than the image has (10_state.md R45). -/
def Obligations.OutputsOfTheEngine : Prop :=
  ∀ s : State,
    (s.busy = true ↔ s.phase = .header ∨ s.phase = .body ∨ s.phase = .trailer) ∧
    (s.isDone = true ↔ s.phase = .done) ∧
    (s.isError = true ↔ s.phase = .error) ∧
    (s.needOut = true ↔ s.busy = true ∧
      ((s.mode = .encode ∧ s.obuf ≠ []) ∨ (s.mode = .decode ∧ 0 < s.run.toNat))) ∧
    (s.needIn = true ↔
      (s.mode = .encode ∧ s.phase = .body ∧ s.obuf = [] ∧ s.pixCnt.toNat < s.total.toNat) ∨
      (s.mode = .decode ∧ s.run.toNat = 0 ∧
        (s.phase = .header ∨ (s.phase = .body ∧ s.pixCnt.toNat < s.total.toNat) ∨
          s.phase = .trailer))) ∧
    ¬ (s.needIn = true ∧ s.needOut = true) ∧
    s.statusWord.getLsbD 8 = s.needIn ∧ s.statusWord.getLsbD 9 = s.needOut ∧
    (∀ p turns, s.busy = true → s.needIn = false → s.needOut = false →
      s.pixCnt.toNat ≤ s.total.toNat → s.script = .ports p :: turns →
      ∃ t, step s = .next t ∧ t.phase ≠ s.phase ∧ t.phase ≠ .error ∧ t.pixSrc = s.pixSrc ∧
        t.byteSrc = s.byteSrc ∧ t.byteSink = s.byteSink ∧ t.pixSink = s.pixSink)

/-! ### Rules of the whole machine -/

/-- The invariants hold at reset. -/
def Obligations.InvariantsAtReset : Prop := State.reset.Inv

/-- Every step keeps the invariants (10_state.md R26, R27, R28, R42, R43, 40_pixel_cache.md R128, R129). -/
def Obligations.StepKeepsInvariants : Prop :=
  ∀ s t : State, s.Inv → step s = .next t → t.Inv

/-- From a state that meets the invariants a step stops exactly where the host breaks a duty: during an
operation it changes or withdraws the element it offers that operation before it is taken (H3), or
after it has offered the end of the byte source to a decode it offers a byte or lowers the end (H2)
(70_reset_and_hazards.md R371; log 8, log 9). -/
def Obligations.StepStopsOnlyOnBrokenDuty : Prop :=
  ∀ s : State, s.Inv →
    ((∃ r, step s = .refused r) ↔ s.busy = true ∧ ∃ ps bs ends turns,
      s.script = .offer ps bs ends :: turns ∧
      ((s.mode = .encode ∧ ∃ px rest, s.pixSrc = px :: rest ∧ ps.head? ≠ some px) ∨
        (s.mode = .decode ∧ ∃ b rest, s.byteSrc = b :: rest ∧ bs.head? ≠ some b) ∨
        (s.mode = .decode ∧ s.byteSrc = [] ∧ s.byteSrcEnds = true ∧ (bs ≠ [] ∨ ends = false)))) ∧
    ((∀ r, step s ≠ .refused r) → ∃ t, step s = .next t)

/-- A step moves at most one element through at most one port; the sinks only grow and the sources only
lose their first element, except that a change of the host's offers replaces them and changes nothing
else (00_scope.md R10, 20_memory.md R65, R66, R67, 48_host_commands.md R300). -/
def Obligations.OneTransferPerStep : Prop :=
  ∀ s t : State, step s = .next t →
    (∀ ps bs ends turns, s.script = .offer ps bs ends :: turns →
      t = { s with script := turns, pixSrc := ps, byteSrc := bs, byteSrcEnds := ends }) ∧
    ((∀ ps bs ends turns, s.script ≠ .offer ps bs ends :: turns) →
    ∃ (pixIn pixOut : List Pixel) (byteIn byteOut : List Byte),
      s.pixSrc = pixIn ++ t.pixSrc ∧ s.byteSrc = byteIn ++ t.byteSrc ∧
      t.byteSink = s.byteSink ++ byteOut ∧ t.pixSink = s.pixSink ++ pixOut ∧
      pixIn.length + byteIn.length + byteOut.length + pixOut.length ≤ 1)

/-- An insert writes the slot of the pixel's hash and leaves the other 63 slots as they were
(40_pixel_cache.md R123). The cache and `prev` are written together, by the insert of the new `prev`, or
cleared together; nothing else ever writes them (10_state.md R40, 20_memory.md R80,
40_pixel_cache.md R124, R127). -/
def Obligations.CacheAndPrevMoveTogether : Prop :=
  (∀ (c : Cache) (p : Pixel) (i : BitVec 6),
    (c.insertPixel p).slot i = if i = pixelHash p then p else c.slot i) ∧
  ∀ s t : State, step s = .next t →
    (t.cache = s.cache ∧ t.prev = s.prev) ∨
    (t.cache = s.cache.insertPixel t.prev) ∨
    (t.cache = Cache.init ∧ t.prev = 0 ∧
      ∃ v turns, s.script = .writeReg .ctrl v :: turns ∧ (v.getLsbD 0 = true ∨ v.getLsbD 1 = true))

/-- While the engine is busy the configuration changes only by RESET (10_state.md R30, R37). -/
def Obligations.ConfigurationFrozenWhileBusy : Prop :=
  ∀ s t : State, s.busy = true → step s = .next t →
    s.sameConfig t ∨
    (t.phase = .idle ∧ ∃ v turns, s.script = .writeReg .ctrl v :: turns ∧ v.getLsbD 1 = true)

/-- In IDLE, DONE and ERROR the engine takes no step of its own: a turn of the engine, or no turn at all,
changes nothing but the turn. Only a write of CTRL with START or RESET ends such a phase; until then
the phase, `err` and all the operation state keep their values, the sinks gain nothing, only a write of
CFG, DIM or NPIX changes the configuration, and only the host changes its offers
(60_exceptions.md R337, R338, 46_opcode_encoder.md R229, 10_state.md R50, 20_memory.md R73,
48_host_commands.md R306, 70_reset_and_hazards.md R379). -/
def Obligations.OnlyTheHostActsOutsideAnOperation : Prop :=
  ∀ s : State, s.phase = .idle ∨ s.phase = .done ∨ s.phase = .error →
    (∀ p turns, s.script = .ports p :: turns → step s = .next { s with script := turns }) ∧
    (s.script = [] → step s = .next s) ∧
    (∀ t, step s = .next t →
      (∃ v turns, s.script = .writeReg .ctrl v :: turns ∧ (v.getLsbD 0 = true ∨ v.getLsbD 1 = true)) ∨
      ({ s with mode := t.mode, strict := t.strict, width := t.width, height := t.height
                npix := t.npix : State }.sameEngine t ∧
        t.byteSink = s.byteSink ∧ t.pixSink = s.pixSink ∧
        (s.sameConfig t ∨ ∃ r v turns, s.script = .writeReg r v :: turns ∧
          (r = .cfg ∨ r = .dim ∨ r = .npix)) ∧
        ((t.pixSrc = s.pixSrc ∧ t.byteSrc = s.byteSrc ∧ t.byteSrcEnds = s.byteSrcEnds) ∨
          ∃ ps bs ends turns, s.script = .offer ps bs ends :: turns)))

/-- Which error is raised where: in encode only DimensionMismatch, only by START, with nothing staged;
in decode only the other four, TrailingData only in phase TRAILER, InvalidHeader only in phase HEADER,
CorruptStream only in phase BODY (60_exceptions.md R320, 46_opcode_encoder.md R220,
47_opcode_decoder.md R280). -/
def Obligations.ErrorsByOperation : Prop :=
  ∀ s t : State, step s = .next t → s.phase ≠ .error → t.phase = .error →
    (s.mode = .encode ∧ t.err = .dimensionMismatch ∧ t.obuf = [] ∧
      ∃ v turns, s.script = .writeReg .ctrl v :: turns ∧ v.getLsbD 0 = true) ∨
    (s.mode = .decode ∧ t.err = .unexpectedEnd ∧ s.busy = true ∧ s.byteSrc = []) ∨
    (s.mode = .decode ∧ t.err = .invalidHeader ∧ s.phase = .header) ∨
    (s.mode = .decode ∧ t.err = .corruptStream ∧ s.phase = .body) ∨
    (s.mode = .decode ∧ t.err = .trailingData ∧ s.phase = .trailer)

/-- Errors are precise: the step that raises a decode error produces no pixel and writes neither `prev`
nor the cache, and no pixel is owed (60_exceptions.md R335, R336). -/
def Obligations.DecodeErrorsArePrecise : Prop :=
  ∀ s t : State, step s = .next t → s.mode = .decode → s.phase ≠ .error → t.phase = .error →
    s.run = 0 ∧ t.run = 0 ∧ t.prev = s.prev ∧ t.cache = s.cache ∧ t.pixCnt = s.pixCnt ∧
      t.pixSink = s.pixSink ∧ t.total = s.total

/-! ### Whole operations -/

/-- Encode and decode of an image give the image back, strict or lenient (47_opcode_decoder.md R271); and
where further bytes follow the stream, a strict decode leaves exactly those, a lenient one the END byte
and those (47_opcode_decoder.md R283, 45_header_end.md R209, R212). -/
def Obligations.RoundTripOfImages : Prop :=
  ∀ (w h : BitVec 16) (pixels : List Pixel) (strict : Bool),
    1 ≤ w.toNat → 1 ≤ h.toNat → pixels.length = w.toNat * h.toNat →
    decodeImage (encodeImage pixels w h) w h strict = (.done, pixels) ∧
    ∀ rest, decodeSource (encodeImage pixels w h ++ rest) w h strict =
      ⟨.done, pixels, if strict = true then rest else 0xFF :: rest⟩

/-- A stream cut strictly before its trailer ends in UnexpectedEnd; cut exactly at the trailer it is
complete for a lenient decode only (47_opcode_decoder.md R272). -/
def Obligations.TruncationIsDetected : Prop :=
  ∀ (w h : BitVec 16) (pixels : List Pixel) (strict : Bool) (k : Nat),
    1 ≤ w.toNat → 1 ≤ h.toNat → pixels.length = w.toNat * h.toNat →
    (k < (encodeImage pixels w h).length - 1 →
      (decodeImage ((encodeImage pixels w h).take k) w h strict).1 = .failed .unexpectedEnd) ∧
    (k = (encodeImage pixels w h).length - 1 →
      (decodeImage ((encodeImage pixels w h).take k) w h strict).1 =
        if strict = true then .failed .unexpectedEnd else .done)

/-- The bounds on the size of the output (46_opcode_encoder.md R231). -/
def Obligations.EncodedSizeBounds : Prop :=
  ∀ (w h : BitVec 16) (pixels : List Pixel), pixels.length = w.toNat * h.toNat →
    9 + (pixels.length + 61) / 62 ≤ (encodeImage pixels w h).length ∧
      (encodeImage pixels w h).length ≤ 9 + 3 * pixels.length

/-- A solid image of 0x0000 is run records only; of another colour one record and then run records
(41_run.md R151). -/
def Obligations.SolidImageStream : Prop :=
  ∀ (w h : BitVec 16) (n : Nat) (c : Pixel),
    let runs := fun m : Nat => List.replicate (m / 62) (0xFD : Byte) ++
      (if m % 62 = 0 then [] else [BitVec.ofNat 8 (0xC0 + (m % 62 - 1))])
    encodeImage (List.replicate n 0) w h = packHeader w h ++ runs n ++ [0xFF] ∧
    (c ≠ 0 → 1 ≤ n →
      encodeImage (List.replicate n c) w h =
        packHeader w h ++
          (if (delta 0 c).fits = true then
            [packDiff (delta 0 c).fr (delta 0 c).fg (delta 0 c).fb] else packRgb565 c) ++
          runs (n - 1) ++ [0xFF])

/-- One pixel of the lockstep: a decoder that holds the encoder's `prev` and cache, and is fed the bytes
the encoder chose for a pixel that differs from `prev`, ends with the encoder's new `prev` and cache
and owes the pixel once (70_reset_and_hazards.md R376, 20_memory.md R76). -/
def Obligations.LockstepOfOnePixel : Prop :=
  ∀ (d : State) (px : Pixel) (served : List Ports) (turns : List HostTurn) (rest : List Byte),
    d.RecordGuard → d.sub = 0 → px ≠ d.prev →
    served.length = (encodeBytes (choose d.prev px d.cache)).length →
    d.script = served.map .ports ++ turns →
    d.byteSrc = encodeBytes (choose d.prev px d.cache) ++ rest →
    ∃ t, core.run served.length d = .next t ∧ t.prev = px ∧ t.cache = d.cache.insertPixel px ∧
      t.run = 1 ∧ t.sub = 0 ∧ t.phase = .body ∧ t.byteSrc = rest ∧ t.script = turns

/-- What an encode has handed over and what it still hands over is the same before and after every step
of its own, whatever the host takes and when, and before and after every change of the host's offers
that only adds the next pixels: the output depends neither on when output is taken nor on when input
is offered (46_opcode_encoder.md R230, R233, 20_memory.md R68, 70_reset_and_hazards.md R381). -/
def Obligations.EncodeOutputIsScheduleFree : Prop :=
  ∀ (s t : State) (turns : List HostTurn) (more : List Pixel), s.Inv → s.mode = .encode →
    step s = .next t →
    (∀ p, s.script = .ports p :: turns →
      s.total.toNat - s.pixCnt.toNat ≤ (s.pixSrc ++ more).length →
      t.byteSink ++ t.pendingBytes more = s.byteSink ++ s.pendingBytes more ∧
        t.total.toNat - t.pixCnt.toNat ≤ (t.pixSrc ++ more).length) ∧
    (∀ new bs ends, s.script = .offer (s.pixSrc ++ new) bs ends :: turns →
      t.byteSink ++ t.pendingBytes more = s.byteSink ++ s.pendingBytes (new ++ more))

/-- The same of a decode, from its header on: the pixels handed over and still to come, how the decode
ends, and the bytes it leaves with the host, are the same before and after every step of its own, and
before and after every change of the host's offers that only adds the next bytes
(47_opcode_decoder.md R270, R273, R283, 20_memory.md R68,
70_reset_and_hazards.md R381). -/
def Obligations.DecodeOutputIsScheduleFree : Prop :=
  ∀ (s t : State) (turns : List HostTurn) (more : List Byte), s.Inv → s.mode = .decode →
    step s = .next t →
    (∀ p, s.script = .ports p :: turns → (s.byteSrcEnds = true → more = []) →
      (t.pendingDecode more).fin = (s.pendingDecode more).fin ∧
        (t.pendingDecode more).left = (s.pendingDecode more).left ∧
        t.pixSink ++ (t.pendingDecode more).pixels = s.pixSink ++ (s.pendingDecode more).pixels) ∧
    (∀ new ps ends, s.script = .offer ps (s.byteSrc ++ new) ends :: turns →
      (t.pendingDecode more).fin = (s.pendingDecode (new ++ more)).fin ∧
        (t.pendingDecode more).left = (s.pendingDecode (new ++ more)).left ∧
        t.pixSink ++ (t.pendingDecode more).pixels =
          s.pixSink ++ (s.pendingDecode (new ++ more)).pixels)

/-- An encode with a host that offers its pixels and takes its bytes reaches DONE within the spec's
count of steps and hands over exactly the bytes of the encode function
(46_opcode_encoder.md R230, 70_reset_and_hazards.md R380). -/
def Obligations.EncodeCompletes : Prop :=
  ∀ (s : State) (pixels rest : List Pixel) (n : Nat),
    s.mode = .encode → s.busy = false → pixels.length = s.width.toNat * s.height.toNat →
    s.npix.toNat = pixels.length → s.pixSrc = pixels ++ rest →
    12 + 4 * pixels.length ≤ n →
    s.script = .writeReg .ctrl 1 :: List.replicate n HostTurn.takeAll →
    ∃ t, core.run (n + 1) s = .next t ∧ t.phase = .done ∧ t.pixSrc = rest ∧
      t.byteSink = s.byteSink ++ encodeImage pixels s.width s.height

/-- A decode with a host that offers its bytes and then their end and takes the pixels reaches DONE or
ERROR within the spec's count of steps, as the decode function says, hands over exactly its pixels and
leaves with the host exactly the bytes it has not read: a lenient decode leaves END, a strict one what
follows it (47_opcode_decoder.md R270, R283, 45_header_end.md R209, R212, 70_reset_and_hazards.md R380). -/
def Obligations.DecodeCompletes : Prop :=
  ∀ (s : State) (n : Nat),
    s.mode = .decode → s.busy = false → s.byteSrcEnds = true →
    12 + 4 * (s.width.toNat * s.height.toNat) ≤ n →
    s.script = .writeReg .ctrl 1 :: List.replicate n HostTurn.takeAll →
    ∃ t, core.run (n + 1) s = .next t ∧
      (match (decodeSource s.byteSrc s.width s.height s.strict).fin with
        | .done => t.phase = .done
        | .failed e => t.phase = .error ∧ t.err = e) ∧
      t.pixSink = s.pixSink ++ (decodeSource s.byteSrc s.width s.height s.strict).pixels ∧
      t.byteSrc = (decodeSource s.byteSrc s.width s.height s.strict).left
end

