-- ==== Sys2Proof/Laws/Operands.lean ====
section
/-!
SUPPORT. Laws of bytes, channels, the cache and the run-length functions.
-/

namespace Sys2Proof

/-! ### Values of byte and field operations -/

/-- Concatenation as arithmetic. -/
theorem toNat_append_eq {n m : Nat} (x : BitVec n) (y : BitVec m) :
    (x ++ y).toNat = x.toNat * 2 ^ m + y.toNat := by
  rw [BitVec.toNat_append, ← Nat.shiftLeft_add_eq_or_of_lt y.isLt, Nat.shiftLeft_eq]

theorem ofBytes_toNat (lo hi : Byte) : (ofBytes lo hi).toNat = hi.toNat * 256 + lo.toNat :=
  toNat_append_eq hi lo

theorem loByte_toNat (v : BitVec 16) : (loByte v).toNat = v.toNat % 256 := by
  simp [loByte]

theorem hiByte_toNat (v : BitVec 16) : (hiByte v).toNat = v.toNat / 256 := by
  simp [hiByte, Nat.shiftRight_eq_div_pow]
  omega

theorem tagOf_toNat (b : Byte) : (tagOf b).toNat = b.toNat / 64 := by
  simp [tagOf, Nat.shiftRight_eq_div_pow]
  omega

theorem payloadOf_toNat (b : Byte) : (payloadOf b).toNat = b.toNat % 64 := by
  simp [payloadOf]

theorem packIndex_toNat (i : BitVec 6) : (packIndex i).toNat = i.toNat :=
  (toNat_append_eq 0b00#2 i).trans (by simp)

theorem packReserved_toNat (x : BitVec 6) : (packReserved x).toNat = 0x80 + x.toNat :=
  (toNat_append_eq 0b10#2 x).trans (by simp)

theorem packRun_toNat (len : Nat) : (packRun len).toNat = 0xC0 + (len - 1) % 64 :=
  (toNat_append_eq 0b11#2 (BitVec.ofNat 6 (len - 1))).trans (by simp)

theorem packDiff_toNat (fr fg fb : BitVec 2) :
    (packDiff fr fg fb).toNat = 0x40 + fr.toNat * 16 + fg.toNat * 4 + fb.toNat := by
  have h1 := toNat_append_eq (0b01#2 ++ fr ++ fg) fb
  have h2 := toNat_append_eq (0b01#2 ++ fr) fg
  have h3 := toNat_append_eq 0b01#2 fr
  have h : (packDiff fr fg fb).toNat = (0b01#2 ++ fr ++ fg ++ fb).toNat := rfl
  simp only [h, h1, h2, h3, BitVec.toNat_ofNat]
  omega

@[simp] theorem loByte_ofBytes (lo hi : Byte) : loByte (ofBytes lo hi) = lo := by
  apply BitVec.eq_of_toNat_eq
  rw [loByte_toNat, ofBytes_toNat]
  omega

@[simp] theorem hiByte_ofBytes (lo hi : Byte) : hiByte (ofBytes lo hi) = hi := by
  apply BitVec.eq_of_toNat_eq
  rw [hiByte_toNat, ofBytes_toNat]
  omega

@[simp] theorem ofBytes_loByte_hiByte (v : BitVec 16) : ofBytes (loByte v) (hiByte v) = v := by
  apply BitVec.eq_of_toNat_eq
  rw [ofBytes_toNat, hiByte_toNat, loByte_toNat]
  omega

end Sys2Proof

namespace Sys2Proof.Machine

/-! ### Channels (10_state.md R21) -/

theorem red_toNat (p : Pixel) : (red p).toNat = p.toNat / 2048 := by
  simp [red, Nat.shiftRight_eq_div_pow]
  omega

theorem green_toNat (p : Pixel) : (green p).toNat = p.toNat / 32 % 64 := by
  simp [green, Nat.shiftRight_eq_div_pow]

theorem blue_toNat (p : Pixel) : (blue p).toNat = p.toNat % 32 := by
  simp [blue]

theorem rgb_toNat (r : BitVec 5) (g : BitVec 6) (b : BitVec 5) :
    (rgb r g b).toNat = r.toNat * 2048 + g.toNat * 32 + b.toNat := by
  have h1 := toNat_append_eq (r ++ g) b
  have h2 := toNat_append_eq r g
  have h : (rgb r g b).toNat = (r ++ g ++ b).toNat := rfl
  simp only [h, h1, h2]
  omega

@[simp] theorem red_rgb (r : BitVec 5) (g : BitVec 6) (b : BitVec 5) : red (rgb r g b) = r := by
  apply BitVec.eq_of_toNat_eq
  rw [red_toNat, rgb_toNat]
  omega

@[simp] theorem green_rgb (r : BitVec 5) (g : BitVec 6) (b : BitVec 5) : green (rgb r g b) = g := by
  apply BitVec.eq_of_toNat_eq
  rw [green_toNat, rgb_toNat]
  omega

@[simp] theorem blue_rgb (r : BitVec 5) (g : BitVec 6) (b : BitVec 5) : blue (rgb r g b) = b := by
  apply BitVec.eq_of_toNat_eq
  rw [blue_toNat, rgb_toNat]
  omega

@[simp] theorem rgb_channels (p : Pixel) : rgb (red p) (green p) (blue p) = p := by
  apply BitVec.eq_of_toNat_eq
  rw [rgb_toNat, red_toNat, green_toNat, blue_toNat]
  omega

/-- The 32-bit product of two dimensions does not wrap (10_state.md R27). -/
theorem area_toNat (w h : BitVec 16) : (area w h).toNat = w.toNat * h.toNat := by
  have hw := w.isLt
  have hh := h.isLt
  have hm : w.toNat * h.toNat ≤ 65535 * 65535 := Nat.mul_le_mul (by omega) (by omega)
  simp only [area, BitVec.toNat_mul, BitVec.toNat_setWidth]
  rw [Nat.mod_eq_of_lt (a := w.toNat) (by omega), Nat.mod_eq_of_lt (a := h.toNat) (by omega),
    Nat.mod_eq_of_lt (by omega)]

/-! ### The cache (40_pixel_cache.md R122, R123) -/

@[simp] theorem Cache.slot_init (i : BitVec 6) : Cache.init.slot i = 0 := by
  simp [Cache.init, Cache.slot, Config.cacheInit]

/-- A read after an insert: the inserted pixel at its own slot, the old entry at every other. -/
theorem Cache.slot_insertPixel (c : Cache) (p : Pixel) (i : BitVec 6) :
    (c.insertPixel p).slot i = if i = pixelHash p then p else c.slot i := by
  simp only [Cache.slot, Cache.insertPixel, Vector.getElem_set, BitVec.toNat_inj]
  by_cases h : i = pixelHash p
  · simp [h]
  · simp [h, Ne.symm h]

@[simp] theorem Cache.slot_insertPixel_self (c : Cache) (p : Pixel) :
    (c.insertPixel p).slot (pixelHash p) = p := by
  simp [Cache.slot_insertPixel]

@[simp] theorem Cache.slot_insertPixel_of_ne (c : Cache) (p : Pixel) (i : BitVec 6)
    (h : i ≠ pixelHash p) : (c.insertPixel p).slot i = c.slot i := by
  simp [Cache.slot_insertPixel, h]

/-- Two caches that read the same at every slot are equal. -/
theorem Cache.ext_slot {c d : Cache} (h : ∀ i : BitVec 6, c.slot i = d.slot i) : c = d := by
  apply Vector.ext
  intro i hi
  have hi' : i < 64 := hi
  have := h (BitVec.ofNat 6 i)
  simpa [Cache.slot, Nat.mod_eq_of_lt hi'] using this

/-- An insert of the pixel a slot holds already, at its own slot, changes nothing
(40_pixel_cache.md R123). -/
theorem Cache.insertPixel_of_slot_eq {c : Cache} {p : Pixel} (h : c.slot (pixelHash p) = p) :
    c.insertPixel p = c := by
  apply Cache.ext_slot
  intro i
  rw [Cache.slot_insertPixel]
  split
  · next hi => rw [hi, h]
  · rfl

@[simp] theorem pixelHash_zero : pixelHash 0 = 0 := by decide

/-! ### The run-length functions (41_run.md R146) -/

/-- What one pixel does to the run: it extends it, completes it, flushes it, or finds none. -/
theorem rleStep_cases (run : BitVec 6) (eq : Bool) :
    (eq = true ∧ run.toNat = 61 ∧ rleStep run eq = (0, some 62)) ∨
    (eq = true ∧ run.toNat ≠ 61 ∧ rleStep run eq = (run + 1, none)) ∨
    (eq = false ∧ 0 < run.toNat ∧ rleStep run eq = (0, some run.toNat)) ∨
    (eq = false ∧ run.toNat = 0 ∧ rleStep run eq = (0, none)) := by
  cases eq
  · by_cases h : 0 < run.toNat
    · exact .inr (.inr (.inl ⟨rfl, h, by simp [rleStep, h]⟩))
    · exact .inr (.inr (.inr ⟨rfl, by omega, by simp [rleStep, h]⟩))
  · by_cases h : run.toNat = 61
    · exact .inl ⟨rfl, h, by simp [rleStep, h, Config.maxRun]⟩
    · exact .inr (.inl ⟨rfl, h, by simp [rleStep, Config.maxRun]; omega⟩)

/-- What the end of the image does to the run. -/
theorem rleFlush_cases (run : BitVec 6) :
    (0 < run.toNat ∧ rleFlush run = (0, some run.toNat)) ∨
    (run.toNat = 0 ∧ rleFlush run = (0, none)) := by
  by_cases h : 0 < run.toNat
  · exact .inl ⟨h, by simp [rleFlush, h]⟩
  · exact .inr ⟨by omega, by simp [rleFlush, h]⟩

/-- The three records the encoder may choose, with the test each passed (46_opcode_encoder.md R227). -/
theorem choose_cases (prev px : Pixel) (c : Cache) :
    (c.slot (pixelHash px) = px ∧ choose prev px c = .index (pixelHash px)) ∨
    (c.slot (pixelHash px) ≠ px ∧ (delta prev px).fits = true ∧
      choose prev px c = .diff (delta prev px).fr (delta prev px).fg (delta prev px).fb) ∨
    (c.slot (pixelHash px) ≠ px ∧ (delta prev px).fits = false ∧ choose prev px c = .rgb565 px) := by
  by_cases h : c.slot (pixelHash px) = px
  · exact .inl ⟨h, by simp [choose, Cache.hit, h]⟩
  · cases hf : (delta prev px).fits
    · exact .inr (.inr ⟨h, rfl, by simp [choose, Cache.hit, h, hf]⟩)
    · exact .inr (.inl ⟨h, rfl, by simp [choose, Cache.hit, h, hf]⟩)

/-! ### What a decode comes to (47_opcode_decoder.md R270, R283) -/

@[simp] theorem Decoded.stop_fin (e : DecodeEnd) (l : List Byte) : (Decoded.stop e l).fin = e := rfl
@[simp] theorem Decoded.stop_pixels (e : DecodeEnd) (l : List Byte) : (Decoded.stop e l).pixels = [] := rfl
@[simp] theorem Decoded.stop_left (e : DecodeEnd) (l : List Byte) : (Decoded.stop e l).left = l := rfl

@[simp] theorem Decoded.after_fin (ps : List Pixel) (r : Decoded) : (Decoded.after ps r).fin = r.fin := rfl
@[simp] theorem Decoded.after_pixels (ps : List Pixel) (r : Decoded) : (Decoded.after ps r).pixels = ps ++ r.pixels := rfl
@[simp] theorem Decoded.after_left (ps : List Pixel) (r : Decoded) : (Decoded.after ps r).left = r.left := rfl

@[simp] theorem Decoded.after_nil (r : Decoded) : Decoded.after [] r = r := rfl

@[simp] theorem Decoded.after_after (ps qs : List Pixel) (r : Decoded) :
    Decoded.after ps (Decoded.after qs r) = Decoded.after (ps ++ qs) r := by
  simp [Decoded.after, List.append_assoc]

/-- Once every pixel is out the loop is the trailer check. -/
@[simp] theorem decodeBody_zero (strict : Bool) (prev : Pixel) (cache : Cache) (bytes : List Byte) :
    decodeBody strict 0 prev cache bytes = trailerEnd strict bytes := by
  cases bytes <;> unfold decodeBody <;> simp

end Sys2Proof.Machine
end

