-- ==== Sys2Proof/Laws/State.lean ====
section
/-!
SUPPORT. One lemma per field and named update of the state, each true by unfolding: a proof that rewrites
with them never unfolds a record update.
-/

namespace Sys2Proof.Machine

/-! ### `raise` (60_exceptions.md R335) -/

section
variable (s : State) (e : ErrCode)

@[simp] theorem State.raise_mode : (s.raise e).mode = s.mode := rfl
@[simp] theorem State.raise_strict : (s.raise e).strict = s.strict := rfl
@[simp] theorem State.raise_width : (s.raise e).width = s.width := rfl
@[simp] theorem State.raise_height : (s.raise e).height = s.height := rfl
@[simp] theorem State.raise_npix : (s.raise e).npix = s.npix := rfl
@[simp] theorem State.raise_phase : (s.raise e).phase = .error := rfl
@[simp] theorem State.raise_err : (s.raise e).err = e := rfl
@[simp] theorem State.raise_prev : (s.raise e).prev = s.prev := rfl
@[simp] theorem State.raise_run : (s.raise e).run = s.run := rfl
@[simp] theorem State.raise_pixCnt : (s.raise e).pixCnt = s.pixCnt := rfl
@[simp] theorem State.raise_total : (s.raise e).total = s.total := rfl
@[simp] theorem State.raise_cache : (s.raise e).cache = s.cache := rfl
@[simp] theorem State.raise_obuf : (s.raise e).obuf = s.obuf := rfl
@[simp] theorem State.raise_sub : (s.raise e).sub = s.sub := rfl
@[simp] theorem State.raise_hold : (s.raise e).hold = s.hold := rfl
@[simp] theorem State.raise_hdrBad : (s.raise e).hdrBad = s.hdrBad := rfl
@[simp] theorem State.raise_hdrW : (s.raise e).hdrW = s.hdrW := rfl
@[simp] theorem State.raise_hdrH : (s.raise e).hdrH = s.hdrH := rfl
@[simp] theorem State.raise_script : (s.raise e).script = s.script := rfl
@[simp] theorem State.raise_pixSrc : (s.raise e).pixSrc = s.pixSrc := rfl
@[simp] theorem State.raise_byteSrc : (s.raise e).byteSrc = s.byteSrc := rfl
@[simp] theorem State.raise_byteSrcEnds : (s.raise e).byteSrcEnds = s.byteSrcEnds := rfl
@[simp] theorem State.raise_byteSink : (s.raise e).byteSink = s.byteSink := rfl
@[simp] theorem State.raise_pixSink : (s.raise e).pixSink = s.pixSink := rfl
@[simp] theorem State.raise_readLog : (s.raise e).readLog = s.readLog := rfl

end

/-! ### `clearOperation` (48_host_commands.md R303) -/

section
variable (s : State)

@[simp] theorem State.clearOperation_mode : s.clearOperation.mode = s.mode := rfl
@[simp] theorem State.clearOperation_strict : s.clearOperation.strict = s.strict := rfl
@[simp] theorem State.clearOperation_width : s.clearOperation.width = s.width := rfl
@[simp] theorem State.clearOperation_height : s.clearOperation.height = s.height := rfl
@[simp] theorem State.clearOperation_npix : s.clearOperation.npix = s.npix := rfl
@[simp] theorem State.clearOperation_phase : s.clearOperation.phase = s.phase := rfl
@[simp] theorem State.clearOperation_err : s.clearOperation.err = .none := rfl
@[simp] theorem State.clearOperation_prev : s.clearOperation.prev = Config.prevInit := rfl
@[simp] theorem State.clearOperation_run : s.clearOperation.run = 0 := rfl
@[simp] theorem State.clearOperation_pixCnt : s.clearOperation.pixCnt = 0 := rfl
@[simp] theorem State.clearOperation_total : s.clearOperation.total = 0 := rfl
@[simp] theorem State.clearOperation_cache : s.clearOperation.cache = Cache.init := rfl
@[simp] theorem State.clearOperation_obuf : s.clearOperation.obuf = [] := rfl
@[simp] theorem State.clearOperation_sub : s.clearOperation.sub = 0 := rfl
@[simp] theorem State.clearOperation_hold : s.clearOperation.hold = 0 := rfl
@[simp] theorem State.clearOperation_hdrBad : s.clearOperation.hdrBad = false := rfl
@[simp] theorem State.clearOperation_hdrW : s.clearOperation.hdrW = 0 := rfl
@[simp] theorem State.clearOperation_hdrH : s.clearOperation.hdrH = 0 := rfl
@[simp] theorem State.clearOperation_script : s.clearOperation.script = s.script := rfl
@[simp] theorem State.clearOperation_pixSrc : s.clearOperation.pixSrc = s.pixSrc := rfl
@[simp] theorem State.clearOperation_byteSrc : s.clearOperation.byteSrc = s.byteSrc := rfl
@[simp] theorem State.clearOperation_byteSrcEnds : s.clearOperation.byteSrcEnds = s.byteSrcEnds := rfl
@[simp] theorem State.clearOperation_byteSink : s.clearOperation.byteSink = s.byteSink := rfl
@[simp] theorem State.clearOperation_pixSink : s.clearOperation.pixSink = s.pixSink := rfl
@[simp] theorem State.clearOperation_readLog : s.clearOperation.readLog = s.readLog := rfl

end

/-! ### `engineReset` (48_host_commands.md R301) -/

section
variable (s : State)

@[simp] theorem State.engineReset_mode : s.engineReset.mode = .encode := rfl
@[simp] theorem State.engineReset_strict : s.engineReset.strict = false := rfl
@[simp] theorem State.engineReset_width : s.engineReset.width = 0 := rfl
@[simp] theorem State.engineReset_height : s.engineReset.height = 0 := rfl
@[simp] theorem State.engineReset_npix : s.engineReset.npix = 0 := rfl
@[simp] theorem State.engineReset_phase : s.engineReset.phase = .idle := rfl
@[simp] theorem State.engineReset_err : s.engineReset.err = .none := rfl
@[simp] theorem State.engineReset_prev : s.engineReset.prev = Config.prevInit := rfl
@[simp] theorem State.engineReset_run : s.engineReset.run = 0 := rfl
@[simp] theorem State.engineReset_pixCnt : s.engineReset.pixCnt = 0 := rfl
@[simp] theorem State.engineReset_total : s.engineReset.total = 0 := rfl
@[simp] theorem State.engineReset_cache : s.engineReset.cache = Cache.init := rfl
@[simp] theorem State.engineReset_obuf : s.engineReset.obuf = [] := rfl
@[simp] theorem State.engineReset_sub : s.engineReset.sub = 0 := rfl
@[simp] theorem State.engineReset_hold : s.engineReset.hold = 0 := rfl
@[simp] theorem State.engineReset_hdrBad : s.engineReset.hdrBad = false := rfl
@[simp] theorem State.engineReset_hdrW : s.engineReset.hdrW = 0 := rfl
@[simp] theorem State.engineReset_hdrH : s.engineReset.hdrH = 0 := rfl
@[simp] theorem State.engineReset_script : s.engineReset.script = s.script := rfl
@[simp] theorem State.engineReset_pixSrc : s.engineReset.pixSrc = s.pixSrc := rfl
@[simp] theorem State.engineReset_byteSrc : s.engineReset.byteSrc = s.byteSrc := rfl
@[simp] theorem State.engineReset_byteSrcEnds : s.engineReset.byteSrcEnds = s.byteSrcEnds := rfl
@[simp] theorem State.engineReset_byteSink : s.engineReset.byteSink = s.byteSink := rfl
@[simp] theorem State.engineReset_pixSink : s.engineReset.pixSink = s.pixSink := rfl
@[simp] theorem State.engineReset_readLog : s.engineReset.readLog = s.readLog := rfl

end

/-! ### `push` (46_opcode_encoder.md R246) -/

section
variable (s : State) (bs : List Byte)

@[simp] theorem State.push_mode : (s.push bs).mode = s.mode := rfl
@[simp] theorem State.push_strict : (s.push bs).strict = s.strict := rfl
@[simp] theorem State.push_width : (s.push bs).width = s.width := rfl
@[simp] theorem State.push_height : (s.push bs).height = s.height := rfl
@[simp] theorem State.push_npix : (s.push bs).npix = s.npix := rfl
@[simp] theorem State.push_phase : (s.push bs).phase = s.phase := rfl
@[simp] theorem State.push_err : (s.push bs).err = s.err := rfl
@[simp] theorem State.push_prev : (s.push bs).prev = s.prev := rfl
@[simp] theorem State.push_run : (s.push bs).run = s.run := rfl
@[simp] theorem State.push_pixCnt : (s.push bs).pixCnt = s.pixCnt := rfl
@[simp] theorem State.push_total : (s.push bs).total = s.total := rfl
@[simp] theorem State.push_cache : (s.push bs).cache = s.cache := rfl
@[simp] theorem State.push_obuf : (s.push bs).obuf = s.obuf ++ bs := rfl
@[simp] theorem State.push_sub : (s.push bs).sub = s.sub := rfl
@[simp] theorem State.push_hold : (s.push bs).hold = s.hold := rfl
@[simp] theorem State.push_hdrBad : (s.push bs).hdrBad = s.hdrBad := rfl
@[simp] theorem State.push_hdrW : (s.push bs).hdrW = s.hdrW := rfl
@[simp] theorem State.push_hdrH : (s.push bs).hdrH = s.hdrH := rfl
@[simp] theorem State.push_script : (s.push bs).script = s.script := rfl
@[simp] theorem State.push_pixSrc : (s.push bs).pixSrc = s.pixSrc := rfl
@[simp] theorem State.push_byteSrc : (s.push bs).byteSrc = s.byteSrc := rfl
@[simp] theorem State.push_byteSrcEnds : (s.push bs).byteSrcEnds = s.byteSrcEnds := rfl
@[simp] theorem State.push_byteSink : (s.push bs).byteSink = s.byteSink := rfl
@[simp] theorem State.push_pixSink : (s.push bs).pixSink = s.pixSink := rfl
@[simp] theorem State.push_readLog : (s.push bs).readLog = s.readLog := rfl

end

/-! ### `remember` (40_pixel_cache.md R124) -/

section
variable (s : State) (px : Pixel)

@[simp] theorem State.remember_mode : (s.remember px).mode = s.mode := rfl
@[simp] theorem State.remember_strict : (s.remember px).strict = s.strict := rfl
@[simp] theorem State.remember_width : (s.remember px).width = s.width := rfl
@[simp] theorem State.remember_height : (s.remember px).height = s.height := rfl
@[simp] theorem State.remember_npix : (s.remember px).npix = s.npix := rfl
@[simp] theorem State.remember_phase : (s.remember px).phase = s.phase := rfl
@[simp] theorem State.remember_err : (s.remember px).err = s.err := rfl
@[simp] theorem State.remember_prev : (s.remember px).prev = px := rfl
@[simp] theorem State.remember_run : (s.remember px).run = s.run := rfl
@[simp] theorem State.remember_pixCnt : (s.remember px).pixCnt = s.pixCnt := rfl
@[simp] theorem State.remember_total : (s.remember px).total = s.total := rfl
@[simp] theorem State.remember_cache : (s.remember px).cache = s.cache.insertPixel px := rfl
@[simp] theorem State.remember_obuf : (s.remember px).obuf = s.obuf := rfl
@[simp] theorem State.remember_sub : (s.remember px).sub = s.sub := rfl
@[simp] theorem State.remember_hold : (s.remember px).hold = s.hold := rfl
@[simp] theorem State.remember_hdrBad : (s.remember px).hdrBad = s.hdrBad := rfl
@[simp] theorem State.remember_hdrW : (s.remember px).hdrW = s.hdrW := rfl
@[simp] theorem State.remember_hdrH : (s.remember px).hdrH = s.hdrH := rfl
@[simp] theorem State.remember_script : (s.remember px).script = s.script := rfl
@[simp] theorem State.remember_pixSrc : (s.remember px).pixSrc = s.pixSrc := rfl
@[simp] theorem State.remember_byteSrc : (s.remember px).byteSrc = s.byteSrc := rfl
@[simp] theorem State.remember_byteSrcEnds : (s.remember px).byteSrcEnds = s.byteSrcEnds := rfl
@[simp] theorem State.remember_byteSink : (s.remember px).byteSink = s.byteSink := rfl
@[simp] theorem State.remember_pixSink : (s.remember px).pixSink = s.pixSink := rfl
@[simp] theorem State.remember_readLog : (s.remember px).readLog = s.readLog := rfl

end

/-! ### `produce` (47_opcode_decoder.md R263) -/

section
variable (s : State) (px : Pixel)

@[simp] theorem State.produce_mode : (s.produce px).mode = s.mode := rfl
@[simp] theorem State.produce_strict : (s.produce px).strict = s.strict := rfl
@[simp] theorem State.produce_width : (s.produce px).width = s.width := rfl
@[simp] theorem State.produce_height : (s.produce px).height = s.height := rfl
@[simp] theorem State.produce_npix : (s.produce px).npix = s.npix := rfl
@[simp] theorem State.produce_phase : (s.produce px).phase = s.phase := rfl
@[simp] theorem State.produce_err : (s.produce px).err = s.err := rfl
@[simp] theorem State.produce_prev : (s.produce px).prev = px := rfl
@[simp] theorem State.produce_run : (s.produce px).run = 1 := rfl
@[simp] theorem State.produce_pixCnt : (s.produce px).pixCnt = s.pixCnt := rfl
@[simp] theorem State.produce_total : (s.produce px).total = s.total := rfl
@[simp] theorem State.produce_cache : (s.produce px).cache = s.cache.insertPixel px := rfl
@[simp] theorem State.produce_obuf : (s.produce px).obuf = s.obuf := rfl
@[simp] theorem State.produce_sub : (s.produce px).sub = s.sub := rfl
@[simp] theorem State.produce_hold : (s.produce px).hold = s.hold := rfl
@[simp] theorem State.produce_hdrBad : (s.produce px).hdrBad = s.hdrBad := rfl
@[simp] theorem State.produce_hdrW : (s.produce px).hdrW = s.hdrW := rfl
@[simp] theorem State.produce_hdrH : (s.produce px).hdrH = s.hdrH := rfl
@[simp] theorem State.produce_script : (s.produce px).script = s.script := rfl
@[simp] theorem State.produce_pixSrc : (s.produce px).pixSrc = s.pixSrc := rfl
@[simp] theorem State.produce_byteSrc : (s.produce px).byteSrc = s.byteSrc := rfl
@[simp] theorem State.produce_byteSrcEnds : (s.produce px).byteSrcEnds = s.byteSrcEnds := rfl
@[simp] theorem State.produce_byteSink : (s.produce px).byteSink = s.byteSink := rfl
@[simp] theorem State.produce_pixSink : (s.produce px).pixSink = s.pixSink := rfl
@[simp] theorem State.produce_readLog : (s.produce px).readLog = s.readLog := rfl

end

/-! ### `magicByte` (45_header_end.md R202) -/

section
variable (s : State) (want got : Byte)

@[simp] theorem State.magicByte_mode : (s.magicByte want got).mode = s.mode := rfl
@[simp] theorem State.magicByte_strict : (s.magicByte want got).strict = s.strict := rfl
@[simp] theorem State.magicByte_width : (s.magicByte want got).width = s.width := rfl
@[simp] theorem State.magicByte_height : (s.magicByte want got).height = s.height := rfl
@[simp] theorem State.magicByte_npix : (s.magicByte want got).npix = s.npix := rfl
@[simp] theorem State.magicByte_phase : (s.magicByte want got).phase = s.phase := rfl
@[simp] theorem State.magicByte_err : (s.magicByte want got).err = s.err := rfl
@[simp] theorem State.magicByte_prev : (s.magicByte want got).prev = s.prev := rfl
@[simp] theorem State.magicByte_run : (s.magicByte want got).run = s.run := rfl
@[simp] theorem State.magicByte_pixCnt : (s.magicByte want got).pixCnt = s.pixCnt := rfl
@[simp] theorem State.magicByte_total : (s.magicByte want got).total = s.total := rfl
@[simp] theorem State.magicByte_cache : (s.magicByte want got).cache = s.cache := rfl
@[simp] theorem State.magicByte_obuf : (s.magicByte want got).obuf = s.obuf := rfl
@[simp] theorem State.magicByte_sub : (s.magicByte want got).sub = s.sub + 1 := rfl
@[simp] theorem State.magicByte_hold : (s.magicByte want got).hold = s.hold := rfl
@[simp] theorem State.magicByte_hdrBad : (s.magicByte want got).hdrBad = (s.hdrBad || got != want) := rfl
@[simp] theorem State.magicByte_hdrW : (s.magicByte want got).hdrW = s.hdrW := rfl
@[simp] theorem State.magicByte_hdrH : (s.magicByte want got).hdrH = s.hdrH := rfl
@[simp] theorem State.magicByte_script : (s.magicByte want got).script = s.script := rfl
@[simp] theorem State.magicByte_pixSrc : (s.magicByte want got).pixSrc = s.pixSrc := rfl
@[simp] theorem State.magicByte_byteSrc : (s.magicByte want got).byteSrc = s.byteSrc := rfl
@[simp] theorem State.magicByte_byteSrcEnds : (s.magicByte want got).byteSrcEnds = s.byteSrcEnds := rfl
@[simp] theorem State.magicByte_byteSink : (s.magicByte want got).byteSink = s.byteSink := rfl
@[simp] theorem State.magicByte_pixSink : (s.magicByte want got).pixSink = s.pixSink := rfl
@[simp] theorem State.magicByte_readLog : (s.magicByte want got).readLog = s.readLog := rfl

end

/-! ### `runPixel` (46_opcode_encoder.md R225) -/

section
variable (s : State)

@[simp] theorem State.runPixel_mode : s.runPixel.mode = s.mode := rfl
@[simp] theorem State.runPixel_strict : s.runPixel.strict = s.strict := rfl
@[simp] theorem State.runPixel_width : s.runPixel.width = s.width := rfl
@[simp] theorem State.runPixel_height : s.runPixel.height = s.height := rfl
@[simp] theorem State.runPixel_npix : s.runPixel.npix = s.npix := rfl
@[simp] theorem State.runPixel_phase : s.runPixel.phase = s.phase := rfl
@[simp] theorem State.runPixel_err : s.runPixel.err = s.err := rfl
@[simp] theorem State.runPixel_prev : s.runPixel.prev = s.prev := rfl
@[simp] theorem State.runPixel_run : s.runPixel.run = (rleStep s.run true).1 := rfl
@[simp] theorem State.runPixel_pixCnt : s.runPixel.pixCnt = s.pixCnt := rfl
@[simp] theorem State.runPixel_total : s.runPixel.total = s.total := rfl
@[simp] theorem State.runPixel_cache : s.runPixel.cache = s.cache := rfl
@[simp] theorem State.runPixel_obuf : s.runPixel.obuf = s.obuf ++ runBytes (rleStep s.run true).2 := rfl
@[simp] theorem State.runPixel_sub : s.runPixel.sub = s.sub := rfl
@[simp] theorem State.runPixel_hold : s.runPixel.hold = s.hold := rfl
@[simp] theorem State.runPixel_hdrBad : s.runPixel.hdrBad = s.hdrBad := rfl
@[simp] theorem State.runPixel_hdrW : s.runPixel.hdrW = s.hdrW := rfl
@[simp] theorem State.runPixel_hdrH : s.runPixel.hdrH = s.hdrH := rfl
@[simp] theorem State.runPixel_script : s.runPixel.script = s.script := rfl
@[simp] theorem State.runPixel_pixSrc : s.runPixel.pixSrc = s.pixSrc := rfl
@[simp] theorem State.runPixel_byteSrc : s.runPixel.byteSrc = s.byteSrc := rfl
@[simp] theorem State.runPixel_byteSrcEnds : s.runPixel.byteSrcEnds = s.byteSrcEnds := rfl
@[simp] theorem State.runPixel_byteSink : s.runPixel.byteSink = s.byteSink := rfl
@[simp] theorem State.runPixel_pixSink : s.runPixel.pixSink = s.pixSink := rfl
@[simp] theorem State.runPixel_readLog : s.runPixel.readLog = s.readLog := rfl

end

/-! ### `nonRunPixel` (46_opcode_encoder.md R226) -/

section
variable (s : State) (px : Pixel)

@[simp] theorem State.nonRunPixel_mode : (s.nonRunPixel px).mode = s.mode := rfl
@[simp] theorem State.nonRunPixel_strict : (s.nonRunPixel px).strict = s.strict := rfl
@[simp] theorem State.nonRunPixel_width : (s.nonRunPixel px).width = s.width := rfl
@[simp] theorem State.nonRunPixel_height : (s.nonRunPixel px).height = s.height := rfl
@[simp] theorem State.nonRunPixel_npix : (s.nonRunPixel px).npix = s.npix := rfl
@[simp] theorem State.nonRunPixel_phase : (s.nonRunPixel px).phase = s.phase := rfl
@[simp] theorem State.nonRunPixel_err : (s.nonRunPixel px).err = s.err := rfl
@[simp] theorem State.nonRunPixel_prev : (s.nonRunPixel px).prev = px := rfl
@[simp] theorem State.nonRunPixel_run : (s.nonRunPixel px).run = (rleStep s.run false).1 := rfl
@[simp] theorem State.nonRunPixel_pixCnt : (s.nonRunPixel px).pixCnt = s.pixCnt := rfl
@[simp] theorem State.nonRunPixel_total : (s.nonRunPixel px).total = s.total := rfl
@[simp] theorem State.nonRunPixel_cache : (s.nonRunPixel px).cache = s.cache.insertPixel px := rfl
@[simp] theorem State.nonRunPixel_obuf : (s.nonRunPixel px).obuf = s.obuf ++ (runBytes (rleStep s.run false).2 ++ encodeBytes (choose s.prev px s.cache)) := rfl
@[simp] theorem State.nonRunPixel_sub : (s.nonRunPixel px).sub = s.sub := rfl
@[simp] theorem State.nonRunPixel_hold : (s.nonRunPixel px).hold = s.hold := rfl
@[simp] theorem State.nonRunPixel_hdrBad : (s.nonRunPixel px).hdrBad = s.hdrBad := rfl
@[simp] theorem State.nonRunPixel_hdrW : (s.nonRunPixel px).hdrW = s.hdrW := rfl
@[simp] theorem State.nonRunPixel_hdrH : (s.nonRunPixel px).hdrH = s.hdrH := rfl
@[simp] theorem State.nonRunPixel_script : (s.nonRunPixel px).script = s.script := rfl
@[simp] theorem State.nonRunPixel_pixSrc : (s.nonRunPixel px).pixSrc = s.pixSrc := rfl
@[simp] theorem State.nonRunPixel_byteSrc : (s.nonRunPixel px).byteSrc = s.byteSrc := rfl
@[simp] theorem State.nonRunPixel_byteSrcEnds : (s.nonRunPixel px).byteSrcEnds = s.byteSrcEnds := rfl
@[simp] theorem State.nonRunPixel_byteSink : (s.nonRunPixel px).byteSink = s.byteSink := rfl
@[simp] theorem State.nonRunPixel_pixSink : (s.nonRunPixel px).pixSink = s.pixSink := rfl
@[simp] theorem State.nonRunPixel_readLog : (s.nonRunPixel px).readLog = s.readLog := rfl

end

/-! ### `finishEncode` (46_opcode_encoder.md R228) -/

section
variable (s : State)

@[simp] theorem State.finishEncode_mode : s.finishEncode.mode = s.mode := rfl
@[simp] theorem State.finishEncode_strict : s.finishEncode.strict = s.strict := rfl
@[simp] theorem State.finishEncode_width : s.finishEncode.width = s.width := rfl
@[simp] theorem State.finishEncode_height : s.finishEncode.height = s.height := rfl
@[simp] theorem State.finishEncode_npix : s.finishEncode.npix = s.npix := rfl
@[simp] theorem State.finishEncode_phase : s.finishEncode.phase = .trailer := rfl
@[simp] theorem State.finishEncode_err : s.finishEncode.err = s.err := rfl
@[simp] theorem State.finishEncode_prev : s.finishEncode.prev = s.prev := rfl
@[simp] theorem State.finishEncode_run : s.finishEncode.run = (rleFlush s.run).1 := rfl
@[simp] theorem State.finishEncode_pixCnt : s.finishEncode.pixCnt = s.pixCnt := rfl
@[simp] theorem State.finishEncode_total : s.finishEncode.total = s.total := rfl
@[simp] theorem State.finishEncode_cache : s.finishEncode.cache = s.cache := rfl
@[simp] theorem State.finishEncode_obuf : s.finishEncode.obuf = s.obuf ++ (runBytes (rleFlush s.run).2 ++ packEnd) := rfl
@[simp] theorem State.finishEncode_sub : s.finishEncode.sub = s.sub := rfl
@[simp] theorem State.finishEncode_hold : s.finishEncode.hold = s.hold := rfl
@[simp] theorem State.finishEncode_hdrBad : s.finishEncode.hdrBad = s.hdrBad := rfl
@[simp] theorem State.finishEncode_hdrW : s.finishEncode.hdrW = s.hdrW := rfl
@[simp] theorem State.finishEncode_hdrH : s.finishEncode.hdrH = s.hdrH := rfl
@[simp] theorem State.finishEncode_script : s.finishEncode.script = s.script := rfl
@[simp] theorem State.finishEncode_pixSrc : s.finishEncode.pixSrc = s.pixSrc := rfl
@[simp] theorem State.finishEncode_byteSrc : s.finishEncode.byteSrc = s.byteSrc := rfl
@[simp] theorem State.finishEncode_byteSrcEnds : s.finishEncode.byteSrcEnds = s.byteSrcEnds := rfl
@[simp] theorem State.finishEncode_byteSink : s.finishEncode.byteSink = s.byteSink := rfl
@[simp] theorem State.finishEncode_pixSink : s.finishEncode.pixSink = s.pixSink := rfl
@[simp] theorem State.finishEncode_readLog : s.finishEncode.readLog = s.readLog := rfl

end

/-! ### `emitPixel` (47_opcode_decoder.md R268) -/

section
variable (s : State)

@[simp] theorem State.emitPixel_mode : s.emitPixel.mode = s.mode := rfl
@[simp] theorem State.emitPixel_strict : s.emitPixel.strict = s.strict := rfl
@[simp] theorem State.emitPixel_width : s.emitPixel.width = s.width := rfl
@[simp] theorem State.emitPixel_height : s.emitPixel.height = s.height := rfl
@[simp] theorem State.emitPixel_npix : s.emitPixel.npix = s.npix := rfl
@[simp] theorem State.emitPixel_phase : s.emitPixel.phase = s.phase := rfl
@[simp] theorem State.emitPixel_err : s.emitPixel.err = s.err := rfl
@[simp] theorem State.emitPixel_prev : s.emitPixel.prev = s.prev := rfl
@[simp] theorem State.emitPixel_run : s.emitPixel.run = s.run - 1 := rfl
@[simp] theorem State.emitPixel_pixCnt : s.emitPixel.pixCnt = s.pixCnt + 1 := rfl
@[simp] theorem State.emitPixel_total : s.emitPixel.total = s.total := rfl
@[simp] theorem State.emitPixel_cache : s.emitPixel.cache = s.cache := rfl
@[simp] theorem State.emitPixel_obuf : s.emitPixel.obuf = s.obuf := rfl
@[simp] theorem State.emitPixel_sub : s.emitPixel.sub = s.sub := rfl
@[simp] theorem State.emitPixel_hold : s.emitPixel.hold = s.hold := rfl
@[simp] theorem State.emitPixel_hdrBad : s.emitPixel.hdrBad = s.hdrBad := rfl
@[simp] theorem State.emitPixel_hdrW : s.emitPixel.hdrW = s.hdrW := rfl
@[simp] theorem State.emitPixel_hdrH : s.emitPixel.hdrH = s.hdrH := rfl
@[simp] theorem State.emitPixel_script : s.emitPixel.script = s.script := rfl
@[simp] theorem State.emitPixel_pixSrc : s.emitPixel.pixSrc = s.pixSrc := rfl
@[simp] theorem State.emitPixel_byteSrc : s.emitPixel.byteSrc = s.byteSrc := rfl
@[simp] theorem State.emitPixel_byteSrcEnds : s.emitPixel.byteSrcEnds = s.byteSrcEnds := rfl
@[simp] theorem State.emitPixel_byteSink : s.emitPixel.byteSink = s.byteSink := rfl
@[simp] theorem State.emitPixel_pixSink : s.emitPixel.pixSink = s.pixSink ++ [s.prev] := rfl
@[simp] theorem State.emitPixel_readLog : s.emitPixel.readLog = s.readLog := rfl

end

/-! ### `readReg` (48_host_commands.md R307) -/

section
variable (s : State) (r : Reg)

@[simp] theorem State.readReg_mode : (s.readReg r).mode = s.mode := rfl
@[simp] theorem State.readReg_strict : (s.readReg r).strict = s.strict := rfl
@[simp] theorem State.readReg_width : (s.readReg r).width = s.width := rfl
@[simp] theorem State.readReg_height : (s.readReg r).height = s.height := rfl
@[simp] theorem State.readReg_npix : (s.readReg r).npix = s.npix := rfl
@[simp] theorem State.readReg_phase : (s.readReg r).phase = s.phase := rfl
@[simp] theorem State.readReg_err : (s.readReg r).err = s.err := rfl
@[simp] theorem State.readReg_prev : (s.readReg r).prev = s.prev := rfl
@[simp] theorem State.readReg_run : (s.readReg r).run = s.run := rfl
@[simp] theorem State.readReg_pixCnt : (s.readReg r).pixCnt = s.pixCnt := rfl
@[simp] theorem State.readReg_total : (s.readReg r).total = s.total := rfl
@[simp] theorem State.readReg_cache : (s.readReg r).cache = s.cache := rfl
@[simp] theorem State.readReg_obuf : (s.readReg r).obuf = s.obuf := rfl
@[simp] theorem State.readReg_sub : (s.readReg r).sub = s.sub := rfl
@[simp] theorem State.readReg_hold : (s.readReg r).hold = s.hold := rfl
@[simp] theorem State.readReg_hdrBad : (s.readReg r).hdrBad = s.hdrBad := rfl
@[simp] theorem State.readReg_hdrW : (s.readReg r).hdrW = s.hdrW := rfl
@[simp] theorem State.readReg_hdrH : (s.readReg r).hdrH = s.hdrH := rfl
@[simp] theorem State.readReg_script : (s.readReg r).script = s.script := rfl
@[simp] theorem State.readReg_pixSrc : (s.readReg r).pixSrc = s.pixSrc := rfl
@[simp] theorem State.readReg_byteSrc : (s.readReg r).byteSrc = s.byteSrc := rfl
@[simp] theorem State.readReg_byteSrcEnds : (s.readReg r).byteSrcEnds = s.byteSrcEnds := rfl
@[simp] theorem State.readReg_byteSink : (s.readReg r).byteSink = s.byteSink := rfl
@[simp] theorem State.readReg_pixSink : (s.readReg r).pixSink = s.pixSink := rfl
@[simp] theorem State.readReg_readLog : (s.readReg r).readLog = s.readLog ++ [s.readWord r] := rfl

end

end Sys2Proof.Machine
end

