-- ==== Sys2Proof/Laws/Ops.lean ====
section
/-!
SUPPORT. What the guards say, and for each shared operation and each kind of step everything it can do.
-/

namespace Sys2Proof.Machine

open Host (Outcome)

/-! ### Guards -/

theorem State.busy_iff (s : State) :
    s.busy = true ↔ s.phase = .header ∨ s.phase = .body ∨ s.phase = .trailer := by
  unfold State.busy
  cases s.phase <;> simp

theorem State.not_busy_iff (s : State) :
    s.busy = false ↔ s.phase = .idle ∨ s.phase = .done ∨ s.phase = .error := by
  unfold State.busy
  cases s.phase <;> simp

/-- Where the decoder asks for a byte (10_state.md R45, 20_memory.md R63). -/
theorem State.byteInReady_iff (s : State) :
    s.byteInReady = true ↔ s.mode = .decode ∧ s.run = 0 ∧
      (s.phase = .header ∨ (s.phase = .body ∧ s.pixCnt.toNat < s.total.toNat) ∨
        s.phase = .trailer) := by
  unfold State.byteInReady State.needIn
  cases s.mode <;> cases s.phase <;> simp

theorem State.atRecord_iff (s : State) : s.atRecord = true ↔ s.RecordGuard := by
  simp only [State.atRecord, Bool.and_eq_true, State.byteInReady_iff, decide_eq_true_eq]
  constructor
  · rintro ⟨⟨hm, hr, hp⟩, hb⟩
    have hlt : s.pixCnt.toNat < s.total.toNat := by simpa [hb] using hp
    exact ⟨hm, hb, hr, hlt⟩
  · rintro ⟨hm, hb, hr, hp⟩
    exact ⟨⟨hm, hr, .inr (.inl ⟨hb, hp⟩)⟩, hb⟩

theorem State.atLeading_iff (s : State) : s.atLeading = true ↔ s.RecordGuard ∧ s.sub = 0 := by
  simp only [State.atLeading, Bool.and_eq_true, State.atRecord_iff, decide_eq_true_eq]

theorem State.atHeader_iff (s : State) : s.atHeader = true ↔ s.HeaderGuard := by
  simp only [State.atHeader, Bool.and_eq_true, State.byteInReady_iff, decide_eq_true_eq]
  constructor
  · rintro ⟨⟨hm, hr, _⟩, hh⟩
    exact ⟨hm, hh, hr⟩
  · rintro ⟨hm, hh, hr⟩
    exact ⟨⟨hm, hr, .inl hh⟩, hh⟩

theorem State.atTrailer_iff (s : State) : s.atTrailer = true ↔ s.TrailerGuard := by
  simp only [State.atTrailer, Bool.and_eq_true, State.byteInReady_iff, decide_eq_true_eq]
  constructor
  · rintro ⟨⟨hm, hr, _⟩, ht⟩
    exact ⟨hm, ht, hr⟩
  · rintro ⟨hm, ht, hr⟩
    exact ⟨⟨hm, hr, .inr (.inr ht)⟩, ht⟩

theorem State.pixOutValid_iff (s : State) :
    s.pixOutValid = true ↔ s.mode = .decode ∧ s.phase = .body ∧ 0 < s.run.toNat := by
  simp [State.pixOutValid, and_assoc]

theorem State.byteOutValid_iff (s : State) :
    s.byteOutValid = true ↔ s.mode = .encode ∧ s.busy = true ∧ s.obuf ≠ [] := by
  simp [State.byteOutValid, and_assoc]

/-- Of the three positions at most one holds. -/
theorem State.RecordGuard.not_atTrailer {s : State} (h : s.RecordGuard) : s.atTrailer = false := by
  cases ht : s.atTrailer
  · rfl
  · exact absurd (h.2.1.symm.trans ((State.atTrailer_iff s).1 ht).2.1) (by simp)

theorem State.TrailerGuard.not_atRecord {s : State} (h : s.TrailerGuard) : s.atRecord = false := by
  cases ht : s.atRecord
  · rfl
  · exact absurd (h.2.1.symm.trans ((State.atRecord_iff s).1 ht).2.1) (by simp)

/-! ### Meanings -/

/-- Everything a one-byte record can do. -/
theorem State.recordOutcome_cases (s t : State) :
    (s.RecordGuard ∧ s.sub = 0 ∧ s.recordOutcome t = .next t) ∨
    (s.TrailerGuard ∧ s.recordOutcome t = .next (s.raise .trailingData)) ∨
    (¬ (s.RecordGuard ∧ s.sub = 0) ∧ ¬ s.TrailerGuard ∧ s.recordOutcome t = .next s) := by
  rw [← State.atLeading_iff, ← State.atTrailer_iff]
  by_cases hl : s.atLeading = true
  · exact .inl ⟨((State.atLeading_iff s).1 hl).1, ((State.atLeading_iff s).1 hl).2,
      by simp [State.recordOutcome, hl]⟩
  · by_cases ht : s.atTrailer = true
    · exact .inr (.inl ⟨ht, by simp [State.recordOutcome, hl, ht]⟩)
    · exact .inr (.inr ⟨hl, ht, by simp [State.recordOutcome, hl, ht]⟩)

/-- The two ways a header completes (45_header_end.md R203). -/
theorem State.completeHeader_cases (s : State) (b : Byte) :
    s.completeHeader b = { s with hdrH := setHiByte s.hdrH b }.raise .invalidHeader ∨
    (s.hdrBad = false ∧ s.hdrW ≠ 0 ∧ setHiByte s.hdrH b ≠ 0 ∧ s.hdrW = s.width ∧
      setHiByte s.hdrH b = s.height ∧
      s.completeHeader b = { s with
        hdrH := setHiByte s.hdrH b
        total := area s.hdrW (setHiByte s.hdrH b)
        sub := 0
        phase := .body }) := by
  unfold State.completeHeader
  simp only
  split
  · exact .inl rfl
  · next h =>
    simp only [not_or, ne_eq, Decidable.not_not, Bool.not_eq_true] at h
    exact .inr ⟨h.1, h.2.1, h.2.2.1, h.2.2.2.1, h.2.2.2.2, rfl⟩

/-- Everything HEADER can do when it answers a next state (45_header_end.md R202, R203). -/
theorem execHeader_cases {m0 m1 m2 m3 : Byte} {w h : BitVec 16} {s t : State}
    (hx : execHeader m0 m1 m2 m3 w h s = .next t) :
    (¬ s.HeaderGuard ∧ t = s) ∨
    (s.HeaderGuard ∧ s.sub.toNat < 4 ∧ ∃ want got, t = s.magicByte want got) ∨
    (s.HeaderGuard ∧ s.sub.toNat < 7 ∧ ∃ w' h' : BitVec 16,
      t = { s with hdrW := w', hdrH := h', sub := s.sub + 1 }) ∨
    (s.HeaderGuard ∧ s.sub = 7 ∧ ∃ b, t = s.completeHeader b) := by
  unfold execHeader at hx
  split at hx
  · next hg =>
    have hg := (State.atHeader_iff s).1 hg
    refine .inr ?_
    repeat' split at hx
    all_goals first
      | (cases hx; exact .inl ⟨hg, by simp_all, _, _, rfl⟩)
      | (cases hx; exact .inr (.inl ⟨hg, by simp_all, _, _, rfl⟩))
      | (cases hx; exact .inr (.inr ⟨hg, by assumption, _, rfl⟩))
      | cases hx
  · next hg =>
    cases hx
    exact .inl ⟨fun h => hg ((State.atHeader_iff _).2 h), rfl⟩

/-- Everything RGB565 can do when it answers a next state (44_literal.md R191). -/
theorem execRgb565_cases {px : Pixel} {s t : State} (hx : execRgb565 px s = .next t) :
    (s.RecordGuard ∧ s.sub = 0 ∧ t = { s with sub := 1 }) ∨
    (s.RecordGuard ∧ s.sub = 1 ∧ t = { s with hold := loByte px, sub := 2 }) ∨
    (s.RecordGuard ∧ s.sub = 2 ∧ t = { s.produce (ofBytes s.hold (hiByte px)) with sub := 0 }) ∨
    (s.TrailerGuard ∧ t = s.raise .trailingData) ∨
    (¬ s.RecordGuard ∧ ¬ s.TrailerGuard ∧ t = s) := by
  unfold execRgb565 at hx
  split at hx
  · next hg =>
    have hg := (State.atRecord_iff s).1 hg
    split at hx
    · next h0 => cases hx; exact .inl ⟨hg, h0, rfl⟩
    · split at hx
      · next h1 => cases hx; exact .inr (.inl ⟨hg, h1, rfl⟩)
      · split at hx
        · next h2 => cases hx; exact .inr (.inr (.inl ⟨hg, h2, rfl⟩))
        · cases hx
  · next hg =>
    split at hx
    · next ht => cases hx; exact .inr (.inr (.inr (.inl ⟨(State.atTrailer_iff _).1 ht, rfl⟩)))
    · next ht =>
      cases hx
      exact .inr (.inr (.inr (.inr ⟨fun h => hg ((State.atRecord_iff _).2 h),
        fun h => ht ((State.atTrailer_iff _).2 h), rfl⟩)))

/-- Everything END can do: it always answers a next state (45_header_end.md R207, R209). -/
theorem execEndMarker_cases (s : State) :
    (s.TrailerGuard ∧ execEndMarker s = .next { s with phase := .done }) ∨
    (s.RecordGuard ∧ s.sub = 0 ∧ execEndMarker s = .next (s.raise .corruptStream)) ∨
    (¬ s.TrailerGuard ∧ ¬ (s.RecordGuard ∧ s.sub = 0) ∧ execEndMarker s = .next s) := by
  rw [← State.atTrailer_iff]
  by_cases ht : s.atTrailer = true
  · exact .inl ⟨ht, by simp [execEndMarker, ht]⟩
  · by_cases hl : s.atLeading = true
    · have h := (State.atLeading_iff s).1 hl
      exact .inr (.inl ⟨h.1, h.2, by simp [execEndMarker, ht, hl]⟩)
    · exact .inr (.inr ⟨ht, fun h => hl ((State.atLeading_iff s).2 h),
        by simp [execEndMarker, ht, hl]⟩)

/-- Everything START can do: it always answers a next state (48_host_commands.md R302 to R305). -/
theorem execStart_cases (s : State) :
    (s.busy = true ∧ execStart s = .next s) ∨
    (s.busy = false ∧ s.mode = .encode ∧ s.npix ≠ area s.width s.height ∧
      execStart s = .next (s.clearOperation.raise .dimensionMismatch)) ∨
    (s.busy = false ∧ s.mode = .encode ∧ s.npix = area s.width s.height ∧
      execStart s = .next { s.clearOperation.push (packHeader s.width s.height) with
        total := area s.width s.height
        phase := .header }) ∨
    (s.busy = false ∧ s.mode = .decode ∧
      execStart s = .next { s.clearOperation with phase := .header }) := by
  cases hb : s.busy
  · cases hm : s.mode
    · by_cases hn : s.npix = area s.width s.height
      · exact .inr (.inr (.inl ⟨rfl, rfl, hn, by simp [execStart, hb, hm, State.startEncode, hn]⟩))
      · exact .inr (.inl ⟨rfl, rfl, hn, by simp [execStart, hb, hm, State.startEncode, hn]⟩)
    · exact .inr (.inr (.inr ⟨rfl, rfl, by simp [execStart, hb, hm, State.startDecode]⟩))
  · exact .inl ⟨rfl, by simp [execStart, hb]⟩

/-! ### The engine's own steps -/

/-- The two branches of a consumed pixel (46_opcode_encoder.md R224). -/
theorem State.consumePixel_cases (s : State) (px : Pixel) :
    (px = s.prev ∧ s.consumePixel px = { s with pixCnt := s.pixCnt + 1 }.runPixel) ∨
    (px ≠ s.prev ∧ s.consumePixel px = { s with pixCnt := s.pixCnt + 1 }.nonRunPixel px) := by
  by_cases h : px = s.prev
  · exact .inl ⟨h, by simp [State.consumePixel, h]⟩
  · exact .inr ⟨h, by simp [State.consumePixel, h]⟩

/-- Everything a step of an encode can do (46_opcode_encoder.md R221). -/
theorem State.encodeStep_cases (p : Ports) (s : State) :
    s.encodeStep p = s ∨
    (s.byteOutValid = true ∧ p.byteOut = true ∧ ∃ b rest, s.obuf = b :: rest ∧
      s.encodeStep p = { s with obuf := rest, byteSink := s.byteSink ++ [b] }) ∨
    (s.byteOutValid = false ∧ s.phase = .header ∧ s.encodeStep p = { s with phase := .body }) ∨
    (s.byteOutValid = false ∧ s.phase = .body ∧ s.pixCnt.toNat < s.total.toNat ∧
      ∃ px rest, s.pixSrc = px :: rest ∧
        s.encodeStep p = { s with pixSrc := rest }.consumePixel px) ∨
    (s.byteOutValid = false ∧ s.phase = .body ∧ s.pixCnt = s.total ∧
      s.encodeStep p = s.finishEncode) ∨
    (s.byteOutValid = false ∧ s.phase = .trailer ∧ s.encodeStep p = { s with phase := .done }) := by
  cases hv : s.byteOutValid
  · cases hp : s.phase
    case idle => exact .inl (by simp [State.encodeStep, hv, hp])
    case done => exact .inl (by simp [State.encodeStep, hv, hp])
    case error => exact .inl (by simp [State.encodeStep, hv, hp])
    case header => exact .inr (.inr (.inl ⟨rfl, rfl, by simp [State.encodeStep, hv, hp]⟩))
    case trailer =>
      exact .inr (.inr (.inr (.inr (.inr ⟨rfl, rfl, by simp [State.encodeStep, hv, hp]⟩))))
    case body =>
      by_cases hlt : s.pixCnt.toNat < s.total.toNat
      · cases hs : s.pixSrc with
        | nil => exact .inl (by simp [State.encodeStep, hv, hp, hlt, hs])
        | cons px rest =>
          exact .inr (.inr (.inr (.inl ⟨rfl, rfl, hlt, px, rest, rfl,
            by simp [State.encodeStep, hv, hp, hlt, hs]⟩)))
      · by_cases heq : s.pixCnt = s.total
        · exact .inr (.inr (.inr (.inr (.inl ⟨rfl, rfl, heq,
            by simp [State.encodeStep, hv, hp, heq]⟩))))
        · exact .inl (by simp [State.encodeStep, hv, hp, hlt, heq])
  · have hne := ((State.byteOutValid_iff s).1 hv).2.2
    cases hb : p.byteOut
    · exact .inl (by simp [State.encodeStep, hv, hb])
    · cases ho : s.obuf with
      | nil => exact absurd ho hne
      | cons b rest =>
        exact .inr (.inl ⟨rfl, by simp, b, rest, rfl,
          by simp [State.encodeStep, hv, hb, State.emitByte, ho]⟩)

/-- Everything a step of a decode can do (47_opcode_decoder.md R261). -/
theorem State.decodeStep_cases (p : Ports) (s : State) :
    s.decodeStep p = .next s ∨
    (s.pixOutValid = true ∧ p.pixOut = true ∧ s.decodeStep p = .next s.emitPixel) ∨
    (s.pixOutValid = false ∧ s.phase = .body ∧ s.run = 0 ∧ s.pixCnt = s.total ∧
      s.decodeStep p = .next s.endBody) ∨
    (s.byteInReady = true ∧ s.byteSrc = [] ∧ s.byteSrcEnds = true ∧
      s.decodeStep p = .next (s.raise .unexpectedEnd)) ∨
    (s.byteInReady = true ∧ ∃ b rest, s.byteSrc = b :: rest ∧
      s.decodeStep p = exec (s.itemOf b) { s with byteSrc := rest }) := by
  unfold State.decodeStep
  cases hv : s.pixOutValid
  · simp only [Bool.false_eq_true, if_false]
    split
    · next he => exact .inr (.inr (.inl ⟨trivial, he.1, he.2.1, he.2.2, rfl⟩))
    · split
      · next hr =>
        cases hs : s.byteSrc with
        | nil =>
          cases he : s.byteSrcEnds
          · exact .inl (by simp [State.takeByte, hs, he])
          · exact .inr (.inr (.inr (.inl ⟨hr, rfl, rfl, by simp [State.takeByte, hs, he]⟩)))
        | cons b rest =>
          exact .inr (.inr (.inr (.inr ⟨hr, b, rest, rfl, by simp [State.takeByte, hs]⟩)))
      · exact .inl rfl
  · simp only [if_true]
    split
    · next hp => exact .inr (.inl ⟨trivial, hp, rfl⟩)
    · exact .inl rfl

/-! ### Turns -/

/-- The invariants speak of the engine's part of the state only. -/
theorem State.Inv.of_sameEngine {s t : State} (h : s.sameEngine t) (hs : s.Inv) : t.Inv := by
  rw [State.sameEngine] at h
  rw [h]
  exact { hs with }

/-- Everything a register write can do (48_host_commands.md R306). -/
theorem State.writeReg_cases (s : State) (r : Reg) (v : Word) :
    (r = .ctrl ∧ v.getLsbD 1 = true ∧ s.writeReg r v = execReset s) ∨
    (r = .ctrl ∧ v.getLsbD 1 = false ∧ v.getLsbD 0 = true ∧ s.writeReg r v = execStart s) ∨
    (r = .ctrl ∧ v.getLsbD 1 = false ∧ v.getLsbD 0 = false ∧ s.writeReg r v = .next s) ∨
    (r ≠ .ctrl ∧ s.busy = false ∧ s.writeReg r v = .next (s.writeConfig r v)) ∨
    (r ≠ .ctrl ∧ s.busy = true ∧ s.writeReg r v = .next s) := by
  cases r
  case ctrl =>
    cases h1 : v.getLsbD 1
    · cases h0 : v.getLsbD 0
      · exact .inr (.inr (.inl ⟨rfl, rfl, rfl, by
          unfold State.writeReg decodeControl
          rw [h1, h0]
          rfl⟩))
      · exact .inr (.inl ⟨rfl, rfl, rfl, by
          unfold State.writeReg decodeControl
          rw [h1, h0]
          rfl⟩)
    · exact .inl ⟨rfl, rfl, by
        unfold State.writeReg decodeControl
        rw [h1]
        rfl⟩
  all_goals
    cases hb : s.busy
    · exact .inr (.inr (.inr (.inl ⟨by simp, rfl, by simp [State.writeReg, State.writeConfig, hb]⟩)))
    · exact .inr (.inr (.inr (.inr ⟨by simp, rfl, by simp [State.writeReg, hb]⟩)))

/-- Everything a change of the host's offers can do (70_reset_and_hazards.md R371 H2, H3). -/
theorem State.offer_cases (s : State) (ps : List Pixel) (bs : List Byte) (ends : Bool) :
    s.offer ps bs ends = .next { s with pixSrc := ps, byteSrc := bs, byteSrcEnds := ends } ∨
    (s.busy = true ∧ s.mode = .encode ∧ s.pixSrc ≠ [] ∧ s.pixSrc.head? ≠ ps.head? ∧
      s.offer ps bs ends = .refused .offerTakenBack) ∨
    (s.busy = true ∧ s.mode = .decode ∧ s.byteSrc ≠ [] ∧ s.byteSrc.head? ≠ bs.head? ∧
      s.offer ps bs ends = .refused .offerTakenBack) ∨
    (s.busy = true ∧ s.mode = .decode ∧ s.byteSrc = [] ∧ s.byteSrcEnds = true ∧
      (bs ≠ [] ∨ ends = false) ∧ s.offer ps bs ends = .refused .endTakenBack) := by
  cases hb : s.busy
  · exact .inl (by simp [State.offer, hb])
  · cases hm : s.mode
    · by_cases hh : holdsOffer s.pixSrc ps.head? = true
      · exact .inl (by simp [State.offer, hb, hm, hh])
      · refine .inr (.inl ⟨rfl, rfl, ?_, ?_, by simp [State.offer, hb, hm, hh]⟩) <;>
          simp_all [holdsOffer]
    · by_cases hh : holdsOffer s.byteSrc bs.head? = true
      · by_cases he : s.byteSrc = [] ∧ s.byteSrcEnds = true ∧ (bs ≠ [] ∨ ends = false)
        · refine .inr (.inr (.inr ⟨rfl, rfl, he.1, he.2.1, he.2.2, ?_⟩))
          rcases he with ⟨h1, h2, h3 | h3⟩ <;> simp [State.offer, State.byteInEnd, holdsOffer, hb, hm, h1, h2, h3]
        · refine .inl ?_
          simp only [State.offer, hb, hm, hh, if_true]
          rw [if_neg]
          simpa [State.byteInEnd] using he
      · refine .inr (.inr (.inl ⟨rfl, rfl, ?_, ?_, by simp [State.offer, hb, hm, hh]⟩)) <;>
          simp_all [holdsOffer]

/-- Everything a step can do, by the next turn of the script. -/
theorem step_cases (s : State) :
    (s.script = [] ∧ step s = s.engineStep Ports.idle) ∨
    (∃ t rest, s.script = t :: rest ∧ step s = { s with script := rest }.takeTurn t) := by
  cases h : s.script with
  | nil => exact .inl ⟨rfl, by simp [step, State.nextTurn, h]⟩
  | cons t rest => exact .inr ⟨t, rest, rfl, by simp [step, State.nextTurn, h]⟩

end Sys2Proof.Machine
end

