-- ==== Sys2Proof/Laws/PerInstr.lean ====
section
/-!
SUPPORT. Facts about every instruction as syntax, one lemma for each constructor.
-/

namespace Sys2Proof.Laws

/-- How many bytes of the stream an instruction is (30_encoding.md R92, R108; a host command is none). -/
def itemLength : Instr → Nat
  | .header _ _ _ _ _ _ => 8
  | .index _ => 1
  | .diff _ _ _ => 1
  | .reserved _ => 1
  | .run _ => 1
  | .rgb565 _ => 3
  | .endMarker => 1
  | .start => 0
  | .reset => 0

end Sys2Proof.Laws

namespace Sys2Proof.Laws.EncodingLength

/-- The encoder writes as many bytes as the spec gives the item. -/
def Statement (i : Instr) : Prop := (encodeBytes i).length = itemLength i

theorem header (m0 m1 m2 m3 : Byte) (w h : BitVec 16) : Statement (.header m0 m1 m2 m3 w h) := rfl
theorem index (idx : BitVec 6) : Statement (.index idx) := rfl
theorem diff (fr fg fb : BitVec 2) : Statement (.diff fr fg fb) := rfl
theorem reserved (x : BitVec 6) : Statement (.reserved x) := rfl
theorem run (n : BitVec 6) : Statement (.run n) := rfl
theorem rgb565 (px : Pixel) : Statement (.rgb565 px) := rfl
theorem endMarker : Statement .endMarker := rfl
theorem start : Statement .start := rfl
theorem reset : Statement .reset := rfl

end Sys2Proof.Laws.EncodingLength
end

