-- ==== Sys2Proof/Tests/Slice0.lean ====
section
/-!
SUPPORT. Tests on fixed values, each with the place of spec/ its expected result comes from, and for
every obligation with hypotheses a state and operands that meet them together (witness_<Name>).
-/

namespace Sys2Proof.Tests

open Sys2Proof.Machine
open Host (Outcome)

/-! ### Helpers -/

/-- The next state, if the outcome is one. -/
def next? (o : Outcome State Fault Refusal) : Option State :=
  match o with
  | .next t => some t
  | .fault _ => none
  | .refused _ => none

/-- One field of the next state, if there is one. -/
def see {α : Type} (f : State → α) (o : Outcome State Fault Refusal) : Option α := (next? o).map f

/-- The host takes one kind of output, or nothing. -/
def takeByte : Ports := ⟨true, false⟩
def takePixel : Ports := ⟨false, true⟩
def takeNothing : Ports := ⟨false, false⟩

/-- A decode of a 2 by 2 image right after its header. -/
def body : State :=
  { State.reset with mode := .decode, phase := .body, width := 2, height := 2, hdrW := 2, hdrH := 2, total := 4 }

/-- The same, started and before its header. -/
def head : State := { State.reset with mode := .decode, phase := .header, width := 2, height := 2 }

/-- The same, all pixels out, strict. -/
def trail : State := { body with strict := true, phase := .trailer, pixCnt := 4 }

/-- An encode of a 2 by 2 image right after its header. -/
def enc : State := { State.reset with phase := .body, width := 2, height := 2, npix := 4, total := 4 }

/-- `prev = 0x1A55` and slot 39 holds 0x1234 (95_test_vectors.md V-PRIO). -/
def encHit : State := { enc with prev := 0x1A55, cache := Cache.init.insertPixel 0x1234 }

/-! ### WellFormed -/

theorem test_wf_header_wrong_magic : (Instr.header 0x71 0x35 0x36 0x36 2 2).wellFormed = false := by decide
theorem test_wf_header : (Instr.header 0x71 0x35 0x36 0x35 0 0).wellFormed = true := by decide
theorem test_wf_run_62 : (Instr.run 62).wellFormed = false := by decide
theorem test_wf_run_61 : (Instr.run 61).wellFormed = true := by decide

/-! ### Decoding: words written out from 30_encoding.md R92 to R97, 10_state.md R29 -/

-- 320 by 240: 46_opcode_encoder.md R244
theorem test_decode_header :
    decode (.header [0b01110001, 0b00110101, 0b00110110, 0b00110101, 0x40, 0x01, 0xF0, 0x00]) =
      .ok (.header 0x71 0x35 0x36 0x35 320 240, []) := rfl
theorem test_decode_index : decode (.record [0b00100111]) = .ok (.index 39, []) := rfl
-- fr = 0, fg = 3, fb = 1: 46_opcode_encoder.md R241
theorem test_decode_diff : decode (.record [0b01001101]) = .ok (.diff 0 3 1, []) := rfl
theorem test_decode_reserved : decode (.record [0b10111111]) = .ok (.reserved 63, []) := rfl
theorem test_decode_run : decode (.record [0b11000010]) = .ok (.run 2, []) := rfl
-- low byte first: 95_test_vectors.md V-LIT-5
theorem test_decode_rgb565 : decode (.record [0b11111110, 0x34, 0x12]) = .ok (.rgb565 0x1234, []) := rfl
theorem test_decode_end : decode (.record [0b11111111]) = .ok (.endMarker, []) := rfl
theorem test_decode_start : decode (.control 0xFFFFFFFD) = .ok (.start, []) := rfl
-- bit 1 wins: 10_state.md R29
theorem test_decode_reset : decode (.control 0xFFFFFFFF) = .ok (.reset, []) := rfl
theorem test_decode_no_command : decode (.control 0xFFFFFFFC) = .error .noCommand := rfl
theorem test_decode_bad_magic :
    decode (.header [0x71, 0x35, 0x36, 0x36, 2, 0, 2, 0]) = .error .badMagic := rfl
theorem test_decode_truncated : decode (.record [0xFE, 0x34]) = .error .truncated := rfl
-- the table numbers byte 0 as the most significant; the other numbering is read too (log 5)
theorem test_table_rgb565 :
    decodeTableWord 24 0xFE3412 = some (.rgb565 0x1234) ∧
      decodeTableWord 24 0x1234FE = some (.rgb565 0x1234) := by decide
theorem test_table_header :
    decodeTableWord 64 0x7135363540000300 = some (.header 0x71 0x35 0x36 0x35 0x40 3) := by decide
theorem test_table_commands :
    decodeTableWord 0 1 = some .start ∧ decodeTableWord 32 2 = some .reset := by decide

/-! ### Pixels: 40_pixel_cache.md R121, 43_diff.md R175, R180 -/

theorem test_hash :
    [0x0000, 0x0001, 0x0020, 0x0800, 0x001F, 0x07E0, 0xF800, 0xFFFF, 0x1234, 0xABCD, 0x8410].map pixelHash =
      [0, 7, 5, 3, 25, 59, 29, 49, 39, 48, 0] := by decide
theorem test_delta_wraps : delta 0 0xF7DE = ⟨true, 0, 0, 0⟩ := by decide
theorem test_delta_too_far : (delta 0 0x1000).fits = false ∧ (delta 0 0x07A0).fits = false := by decide
theorem test_apply_delta : applyDelta 0x1234 1 1 1 = 0x0A13 ∧ applyDelta 0x001F 2 2 3 = 0 := by decide

/-! ### Instructions, one step each -/

-- 45_header_end.md R203, 95_test_vectors.md V-HDR-1
theorem test_header_completes :
    see (fun t => (t.phase, t.total, t.sub)) (exec (.header 0 0 0 0 2 2) { head with sub := 7, hdrW := 2, hdrH := 2 }) =
      some (.body, 4, 0) := by decide
-- V-HDR-2: sub stays 7
theorem test_header_invalid :
    see (fun t => (t.phase, t.err, t.sub))
      (exec (.header 0 0 0 0 2 2) { head with sub := 7, hdrW := 2, hdrH := 2, hdrBad := true }) =
      some (.error, .invalidHeader, 7) := by decide
-- 42_index.md R161, example
theorem test_index :
    see (fun t => (t.prev, t.run, t.cache.slot 39))
      (exec (.index 0x27) { body with cache := Cache.init.insertPixel 0x1234 }) =
      some (0x1234, 1, 0x1234) := by decide
-- 95_test_vectors.md V-DIFF-35
theorem test_diff :
    see (fun t => (t.prev, t.cache.slot 54)) (exec (.diff 3 3 3) { body with prev := 0x1234 }) =
      some (0x1A55, 0x1A55) := by decide
-- V-ERR-2
theorem test_reserved : see State.statusWord (exec (.reserved 63) body) = some 0x045 := by decide
-- V-RUN-8, V-RUN-9
theorem test_run : see (fun t => t.run) (exec (.run 3) body) = some 4 := by decide
theorem test_run_too_long : see (fun t => (t.err, t.run)) (exec (.run 4) body) = some (.corruptStream, 0) := by decide
-- 44_literal.md R191
theorem test_rgb565_last_byte :
    see (fun t => (t.prev, t.sub, t.run, t.cache.slot 39))
      (exec (.rgb565 0x1234) { body with sub := 2, hold := 0x34 }) = some (0x1234, 0, 1, 0x1234) := by decide
-- V-END-1, V-ERR-4
theorem test_end_at_trailer : see State.statusWord (exec .endMarker trail) = some 0x004 := by decide
theorem test_end_in_body : see State.statusWord (exec .endMarker body) = some 0x045 := by decide
-- V-HOST, V-ERR-10, V-ERR-11
theorem test_start :
    see (fun t => (t.statusWord, t.obuf)) (exec .start { State.reset with width := 4, height := 4, npix := 16 }) =
      some (0x201, [0x71, 0x35, 0x36, 0x35, 4, 0, 4, 0]) := by decide
theorem test_start_mismatch :
    see State.statusWord (exec .start { State.reset with width := 4, height := 0, npix := 4 }) = some 0x015 := by decide
-- V-HOST, last RESET
theorem test_reset : next? (exec .reset { enc with run := 5, pixCnt := 5 }) = some State.reset := by decide

/-! ### The encoder's step: 95_test_vectors.md V-PRIO -/

theorem test_prio_index :
    see (fun t => t.obuf) (step { encHit with script := [.ports takeNothing], pixSrc := [0x1234] }) =
      some [0x27] := by decide
theorem test_prio_diff :
    see (fun t => t.obuf)
      (step { encHit with cache := Cache.init.insertPixel 0x002E, script := [.ports takeNothing], pixSrc := [0x1234] }) =
      some [0x55] := by decide
theorem test_prio_run_then_index :
    see (fun t => t.obuf)
      (step { encHit with prev := 0, run := 5, script := [.ports takeNothing], pixSrc := [0x1234] }) =
      some [0xC4, 0x27] := by decide
-- the whole encode of P-1
theorem test_encode_P1 :
    encodeImage [0, 0, 0x1234, 0x1A55, 0x1A55, 0x1A55, 0x1234, 0xABCD] 4 2 =
      [0x71, 0x35, 0x36, 0x35, 4, 0, 2, 0, 0xC1, 0xFE, 0x34, 0x12, 0x7F, 0xC1, 0x27, 0xFE, 0xCD, 0xAB, 0xFF] := by
  decide

/-! ### Port offers: 70_reset_and_hazards.md R371, 93_implementation_defined.md U10, U11 -/

/-- Why a step stopped, if it did. -/
def refused? (o : Outcome State Fault Refusal) : Option Refusal :=
  match o with
  | .next _ => none
  | .fault _ => none
  | .refused r => some r

-- more behind the byte on offer, or a first byte where none was on offer, breaks no duty
theorem test_offer_more :
    see (fun t => t.byteSrc) (step { body with byteSrc := [0x27], script := [.offer [] [0x27, 0x28] true] }) =
        some [0x27, 0x28] ∧
      see (fun t => t.byteSrc) (step { body with script := [.offer [] [0x27] false] }) = some [0x27] := by decide
-- H3: the byte on offer is held until it is taken
theorem test_offer_changed :
    refused? (step { body with byteSrc := [0x27], script := [.offer [] [0x28] true] }) = some .offerTakenBack ∧
      refused? (step { enc with pixSrc := [7], script := [.offer [] [] false] }) = some .offerTakenBack := by decide
-- H2: after the end only the end, also while a pixel is owed
theorem test_byte_after_end :
    refused? (step { body with run := 1, byteSrcEnds := true, script := [.offer [] [0x27] true] }) =
        some .endTakenBack ∧
      refused? (step { body with run := 1, byteSrcEnds := true, script := [.offer [] [] false] }) =
        some .endTakenBack := by decide

-- a strict decode takes END and nothing after it, a lenient one leaves END: 45_header_end.md R209, R212
theorem test_bytes_left :
    decodeSource [0x71, 0x35, 0x36, 0x35, 2, 0, 2, 0, 0xC3, 0xFF, 0xAA] 2 2 true = ⟨.done, [0, 0, 0, 0], [0xAA]⟩ ∧
      decodeSource [0x71, 0x35, 0x36, 0x35, 2, 0, 2, 0, 0xC3, 0xFF, 0xAA] 2 2 false =
        ⟨.done, [0, 0, 0, 0], [0xFF, 0xAA]⟩ := by decide

/-! ### withFetchWord: the first step after reset runs the instruction -/

theorem test_fetch_index : see (fun t => t.run) (step (State.reset.withFetchWord 8 0x27)) = some 1 := by decide
theorem test_fetch_end : see (fun t => t.phase) (step (State.reset.withFetchWord 8 0xFF)) = some .done := by decide
theorem test_fetch_rgb565 : see (fun t => t.sub) (step (State.reset.withFetchWord 24 0xFE3412)) = some 1 := by decide
theorem test_fetch_header :
    see (fun t => (t.sub, t.hdrBad)) (step (State.reset.withFetchWord 64 0x7135363504000300)) = some (1, false) := by
  decide
theorem test_fetch_start : see (fun t => t.phase) (step (State.reset.withFetchWord 32 1)) = some .header := by decide

/-! ### Witnesses: states and operands that meet an obligation's hypotheses together -/

theorem witness_DecodeOfEncode :
    (Instr.run 61).wellFormed = true ∧ encode (.run 61) = .record [0xFD] ∧
      (Instr.header 0x71 0x35 0x36 0x35 65535 0).wellFormed = true ∧
      encode (.header 0x71 0x35 0x36 0x35 65535 0) =
        .header [0x71, 0x35, 0x36, 0x35, 0xFF, 0xFF, 0, 0] := by decide

theorem witness_EncodeOfDecode :
    decode (.record [0xFE, 0xFF, 0xFF, 0x00]) = .ok (.rgb565 0xFFFF, [0x00]) ∧
      decode (.header [0x71, 0x35, 0x36, 0x35, 0, 0, 0, 0, 0xFF]) =
        .ok (.header 0x71 0x35 0x36 0x35 0 0, [0xFF]) := ⟨rfl, rfl⟩

theorem witness_LeadingByteMap :
    (0x3F#8).toNat ≤ 0x3F ∧ (0x40 ≤ (0x40#8).toNat ∧ (0x7F#8).toNat ≤ 0x7F) ∧
      (0x80 ≤ (0x80#8).toNat ∧ (0xBF#8).toNat ≤ 0xBF) ∧
      (0xC0 ≤ (0xC0#8).toNat ∧ (0xFD#8).toNat ≤ 0xFD) ∧ (0xFE#8).toNat = 0xFE ∧
      (0xFF#8).toNat = 0xFF := by decide

theorem witness_RecordLengthByLeadingByte :
    decode (.record [0xFE, 1, 2, 3]) = .ok (.rgb565 0x0201, [3]) ∧
      decode (.record [0xFD, 1]) = .ok (.run 61, [1]) := ⟨rfl, rfl⟩

theorem witness_EncoderChoosesLegalRecord : (0x1234 : Pixel) ≠ 0 := by decide

theorem witness_DeltaFitsMeaning : (delta 0x1234 0x1A55).fits = true := by decide

theorem witness_DeltaInverse : (delta 0xFFFF 0).fits = true := by decide

theorem witness_IndexResult : body.RecordGuard ∧ body.sub = 0 := by decide

theorem witness_IndexOfUnwrittenSlot :
    body.RecordGuard ∧ body.sub = 0 ∧ body.cache.Keyed ∧ pixelHash (body.cache.slot 63) ≠ 63 :=
  ⟨by decide, by decide, fun i => .inl (show Cache.init.slot i = 0 by
    simp [Cache.init, Cache.slot, Config.cacheInit]), by decide⟩

theorem witness_DiffResult : { body with prev := 0xFFFF }.RecordGuard ∧ body.sub = 0 := by decide

theorem witness_RunResult :
    body.RecordGuard ∧ body.sub = 0 ∧ (61 : BitVec 6).toNat ≤ 61 ∧
      body.total.toNat - body.pixCnt.toNat < (4 : BitVec 6).toNat + 1 ∧
      ¬ body.total.toNat - body.pixCnt.toNat < (3 : BitVec 6).toNat + 1 := by decide

theorem witness_LiteralSteps :
    body.RecordGuard ∧ body.sub = 0 ∧ { body with sub := 1 }.RecordGuard ∧
      { body with sub := 2 }.RecordGuard := by decide

theorem witness_LiteralTakenWhole :
    { body with
      script := [.ports takeNothing, .ports takeNothing, .ports takeNothing]
      byteSrc := [0xFE, 0xFF, 0xFF] }.RecordGuard := by decide

theorem witness_ReservedResult : body.RecordGuard ∧ body.sub = 0 := by decide

theorem witness_HeaderBytes :
    head.HeaderGuard ∧ head.sub = 0 ∧
      ∀ k : Fin 7, { head with sub := BitVec.ofNat 4 k.val }.HeaderGuard := by decide

theorem witness_HeaderCompletion :
    { head with sub := 7 }.HeaderGuard ∧ { head with sub := 7, hdrW := 2, hdrH := 2 }.HeaderGuard := by decide

theorem witness_HeaderTakenWhole :
    let s : State := { head with
      script := (List.replicate 8 takeNothing).map HostTurn.ports ++ []
      byteSrc := [0x71, 0x35, 0x36, 0x35, 2, 0, 2, 0] }
    s.HeaderGuard ∧ s.sub = 0 ∧ s.hdrBad = false ∧ (List.replicate 8 takeNothing).length = 8 ∧
      s.byteSrc = [0x71, 0x35, 0x36, 0x35, (2#16).extractLsb' 0 8, (2#16).extractLsb' 8 8,
        (2#16).extractLsb' 0 8, (2#16).extractLsb' 8 8] ++ [] := by decide

theorem witness_EndResult : trail.TrailerGuard ∧ body.RecordGuard ∧ body.sub = 0 := by decide

theorem witness_TrailerByteNotEnd :
    { trail with script := [.ports takeNothing], byteSrc := [0xFE] }.TrailerGuard ∧ (0xFE : Byte) ≠ 0xFF := by decide

theorem witness_StartIgnoredWhileBusy :
    head.phase = .header ∧ body.phase = .body ∧ trail.phase = .trailer := by decide

theorem witness_StartEncodeResult :
    State.reset.phase = .idle ∧ State.reset.mode = .encode ∧
      ({ State.reset with npix := 15, width := 4, height := 4, phase := .error }).npix.toNat ≠ 4 * 4 := by decide

theorem witness_StartDecodeResult :
    { trail with phase := .done }.phase = .done ∧ { trail with phase := .done }.mode = .decode := by decide

theorem witness_StartForgetsTheLastOperation :
    { trail with phase := .done }.busy = false ∧
      { trail with phase := .done }.sameConfig { trail with phase := .idle, prev := 7, pixCnt := 1 } ∧
      exec .start { trail with phase := .done } =
        .next { trail.clearOperation with phase := .header } ∧
      exec .start { trail with phase := .idle, prev := 7, pixCnt := 1 } =
        .next { trail.clearOperation with phase := .header } :=
  ⟨by decide, ⟨rfl, rfl, rfl, rfl, rfl⟩, rfl, rfl⟩

theorem witness_StepRunsDecodedItem :
    let s : State := { body with sub := 2, hold := 0x34, script := [.ports takeNothing], byteSrc := [0x12] }
    (Instr.rgb565 0x1234).wellFormed = true ∧ s.byteInReady = true ∧ s.phase ≠ .header ∧
      encode (.rgb565 0x1234) = .record (encodeBytes (.rgb565 0x1234)) ∧
      (encodeBytes (.rgb565 0x1234))[2]? = some 0x12 := by decide

theorem witness_StepRunsDecodedItem_header :
    let s : State := { head with sub := 7, script := [.ports takeNothing], byteSrc := [0x00] }
    s.byteInReady = true ∧ s.phase = .header ∧
      (encodeBytes (.header 0x71 0x35 0x36 0x35 2 2))[7]? = some 0x00 := by decide

theorem witness_StepRunsDecodedItem_trailer :
    { trail with script := [.ports takeNothing], byteSrc := [0xFF] }.byteInReady = true ∧
      (encodeBytes .endMarker)[0]? = some 0xFF := by decide

/-- A wrong magic byte is met too. -/
theorem witness_StepRunsDecodedItem_bad_magic :
    { head with sub := 1, script := [.ports takeNothing], byteSrc := [0x99] }.byteInReady = true ∧
      encode (.header 0x71 0x99 0x36 0x35 2 2) = .header (encodeBytes (.header 0x71 0x99 0x36 0x35 2 2)) ∧
      (encodeBytes (.header 0x71 0x99 0x36 0x35 2 2))[1]? = some 0x99 := by decide

theorem witness_StepRunsHostCommand :
    (3#32).getLsbD 1 = true ∧ (1#32).getLsbD 1 = false ∧ (1#32).getLsbD 0 = true ∧
      (4#32).getLsbD 1 = false ∧ (4#32).getLsbD 0 = false := by decide

theorem witness_RunPixelStep :
    { enc with script := [.ports takeNothing], pixSrc := [0] }.PixelGuard ∧
      ({ enc with run := 61 }).run.toNat = 61 := by decide

theorem witness_NonRunPixelStep :
    { encHit with script := [.ports takeNothing], pixSrc := [0x1234], run := 61 }.PixelGuard ∧
      (0x1234 : Pixel) ≠ encHit.prev := by decide

theorem witness_EncodeTauSteps :
    enc.mode = .encode ∧ enc.obuf = [] ∧ { enc with phase := .header }.phase = .header ∧
      { enc with pixCnt := 4, run := 61 }.pixCnt = enc.total ∧ { enc with phase := .trailer }.phase = .trailer := by
  decide

theorem witness_EmitByteStep :
    { enc with obuf := [0xFD], script := [.ports takeByte] }.busy = true ∧ takeByte.byteOut = true := by decide

theorem witness_EmitPixelStep :
    { body with run := 1, script := [.ports takePixel] }.phase = .body ∧ 0 < (1 : BitVec 6).toNat ∧
      takePixel.pixOut = true := by decide

theorem witness_EndOfBodyStep :
    { body with pixCnt := 4 }.mode = .decode ∧ { body with pixCnt := 4 }.run = 0 ∧
      { body with pixCnt := 4 }.pixCnt = body.total := by decide

theorem witness_EndOfSourceStep :
    { body with sub := 1, byteSrcEnds := true, script := [.ports takeNothing] }.needIn = true ∧
      body.byteSrc = [] ∧ 0 < ({ body with run := 1, byteSrcEnds := true }).run.toNat ∧
      ({ body with pixCnt := 4, byteSrcEnds := true }).pixCnt = body.total ∧ body.strict = false ∧
      ({ body with phase := .done, byteSrcEnds := true }).phase = .done := by decide

theorem witness_SuspensionLeavesNoTrace :
    { enc with obuf := [0xFD] }.byteOutValid = true ∧ { body with run := 1 }.pixOutValid = true ∧
      enc.pixInReady = true ∧ enc.pixSrc = [] ∧ body.byteInReady = true ∧ body.byteSrc = [] ∧
      body.byteSrcEnds = false ∧ Ports.idle.byteOut = false ∧ Ports.idle.pixOut = false := by decide

theorem witness_RegisterWrites :
    { State.reset with script := [.writeReg .cfg 3] }.busy = false ∧ Reg.cfg ≠ .ctrl ∧ enc.busy = true ∧
      (3#32).getLsbD 1 = true ∧ (0xFFFFFFFC#32).extractLsb' 0 2 = 0 := by decide

theorem witness_RegisterReads :
    { enc with script := [.readReg .status] }.script = .readReg .status :: [] ∧ enc.statusWord = 0x102 := by decide

theorem witness_OutputsOfTheEngine :
    { enc with pixCnt := 4, script := [.ports takeNothing] }.busy = true ∧
      { enc with pixCnt := 4 }.needIn = false ∧ { enc with pixCnt := 4 }.needOut = false ∧
      { enc with pixCnt := 4 }.pixCnt.toNat ≤ enc.total.toNat := by decide

theorem init_slot (i : BitVec 6) : Cache.init.slot i = 0 := by
  simp [Cache.init, Cache.slot, Config.cacheInit]

/-- A decode inside its header, inside an RGB565 record, and an encode before its first pixel meet the
invariants whatever the host offers and does. -/
theorem head_inv (script : List HostTurn) (byteSrc : List Byte) :
    { head with sub := 4, hdrBad := true, script := script, byteSrc := byteSrc }.Inv := by
  refine State.Inv.of_sameEngine (s := { head with sub := 4, hdrBad := true }) rfl ?_
  constructor <;> first
    | decide
    | exact fun i => .inl (init_slot i)

theorem body_inv (script : List HostTurn) (byteSrc : List Byte) :
    { body with sub := 1, script := script, byteSrc := byteSrc }.Inv := by
  refine State.Inv.of_sameEngine (s := { body with sub := 1 }) rfl ?_
  constructor <;> first
    | decide
    | exact fun i => .inl (init_slot i)

theorem enc_inv (script : List HostTurn) (pixSrc : List Pixel) :
    { enc with script := script, pixSrc := pixSrc }.Inv := by
  refine State.Inv.of_sameEngine (s := enc) rfl ?_
  constructor <;> first
    | decide
    | exact fun i => .inl (init_slot i)

theorem witness_StepKeepsInvariants :
    { body with sub := 1, script := [.ports takeNothing], byteSrc := [0x34] }.Inv ∧
      step { body with sub := 1, script := [.ports takeNothing], byteSrc := [0x34] } =
        .next { body with sub := 2, hold := 0x34 } := ⟨body_inv _ _, rfl⟩

/-- Two pixels are on offer and two more follow, in a step and in a change of the offers. -/
theorem witness_EncodeOutputIsScheduleFree :
    { enc with script := [.ports takeNothing], pixSrc := [0, 0] }.Inv ∧
      enc.total.toNat - enc.pixCnt.toNat ≤ (([0, 0] : List Pixel) ++ [0, 1]).length ∧
      step { enc with script := [.ports takeNothing], pixSrc := [0, 0] } =
        .next { enc with pixSrc := [0], run := 1, pixCnt := 1 } ∧
      { enc with script := [.offer ([0, 0] ++ [0]) [] false], pixSrc := [0, 0] }.Inv ∧
      step { enc with script := [.offer ([0, 0] ++ [0]) [] false], pixSrc := [0, 0] } =
        .next { enc with pixSrc := [0, 0, 0] } :=
  ⟨enc_inv _ _, by decide, rfl, enc_inv _ _, rfl⟩

/-- In a record and inside a header whose magic was wrong; in a step and in a change of the offers. -/
theorem witness_DecodeOutputIsScheduleFree :
    { body with sub := 1, script := [.ports takeNothing], byteSrc := [0x34] }.Inv ∧
      { head with sub := 4, hdrBad := true, script := [.ports takeNothing], byteSrc := [2] }.Inv ∧
      head.mode = .decode ∧ head.byteSrcEnds = false ∧
      step { head with sub := 4, hdrBad := true, script := [.ports takeNothing], byteSrc := [2] } =
        .next { head with sub := 5, hdrBad := true, hdrW := 2 } ∧
      step { head with sub := 4, hdrBad := true, script := [.offer [] ([2] ++ [0]) true], byteSrc := [2] } =
        .next { head with sub := 4, hdrBad := true, byteSrc := [2, 0], byteSrcEnds := true } :=
  ⟨body_inv _ _, head_inv _ _, rfl, rfl, rfl, rfl⟩

theorem witness_StepStopsOnlyOnBrokenDuty :
    { body with sub := 1, script := [.ports takeNothing], byteSrc := [0x34] }.Inv ∧
      step { body with byteSrc := [0x34], script := [.offer [] [0x34, 0x12] true] } =
        .next { body with byteSrc := [0x34, 0x12], byteSrcEnds := true } ∧
      step { body with byteSrc := [0x34], script := [.offer [] [0x35] true] } = .refused .offerTakenBack ∧
      step { enc with pixSrc := [0x34], script := [.offer [] [] true] } = .refused .offerTakenBack ∧
      step { body with byteSrcEnds := true, script := [.offer [] [0x35] true] } = .refused .endTakenBack :=
  ⟨body_inv _ _, rfl, rfl, rfl, rfl⟩

theorem witness_OneTransferPerStep :
    step { enc with obuf := [0xFD], script := [.ports takeByte] } =
        .next { enc with byteSink := [0xFD] } ∧
      step { enc with script := [.offer [5] [6] true] } =
        .next { enc with pixSrc := [5], byteSrc := [6], byteSrcEnds := true } := ⟨rfl, rfl⟩

theorem witness_CacheAndPrevMoveTogether :
    step { body with script := [.ports takeNothing], byteSrc := [0x7F] } =
      .next { body with cache := body.cache.insertPixel 0x0821, prev := 0x0821, run := 1 } := rfl

theorem witness_ConfigurationFrozenWhileBusy :
    enc.busy = true ∧ step { enc with script := [.writeReg .dim 5] } = .next enc := ⟨rfl, rfl⟩

theorem witness_OnlyTheHostActsOutsideAnOperation :
    State.reset.phase = .idle ∧ { trail with phase := .done }.phase = .done ∧
      step { trail with phase := .done, byteSrc := [7], script := [.ports takePixel] } =
        .next { trail with phase := .done, byteSrc := [7] } ∧
      (trail.raise .trailingData).phase = .error ∧
      step { trail.raise .trailingData with script := [.writeReg .npix 5] } =
        .next { trail.raise .trailingData with npix := 5 } := ⟨rfl, rfl, rfl, rfl, rfl⟩

theorem witness_ErrorsByOperation :
    step { body with script := [.ports takeNothing], byteSrc := [0x80] } =
      .next { body with phase := .error, err := .corruptStream } ∧ body.phase ≠ .error := ⟨rfl, by decide⟩

theorem witness_DecodeErrorsArePrecise :
    step { trail with script := [.ports takeNothing], byteSrc := [0x00] } =
      .next { trail with phase := .error, err := .trailingData } ∧ trail.mode = .decode := ⟨rfl, rfl⟩

theorem witness_RoundTripOfImages :
    1 ≤ (1#16).toNat ∧ ([0x1234] : List Pixel).length = (1#16).toNat * (1#16).toNat := by decide

theorem witness_TruncationIsDetected :
    11 < (encodeImage [0x1234] 1 1).length ∧ 11 = (encodeImage [0x1234] 1 1).length - 1 ∧
      10 < (encodeImage [0x1234] 1 1).length - 1 := by decide

theorem witness_EncodedSizeBounds : ([] : List Pixel).length = (0#16).toNat * (5#16).toNat := by decide

theorem witness_SolidImageStream : (1 : Pixel) ≠ 0 ∧ 1 ≤ 63 := by decide

theorem witness_LockstepOfOnePixel :
    let d : State := { body with
      script := (List.replicate 3 takeNothing).map HostTurn.ports ++ [], byteSrc := [0xFE, 0x34, 0x12] ++ [] }
    d.RecordGuard ∧ d.sub = 0 ∧ (0x1234 : Pixel) ≠ d.prev ∧
      encodeBytes (choose d.prev 0x1234 d.cache) = [0xFE, 0x34, 0x12] ∧
      (List.replicate 3 takeNothing).length = (encodeBytes (choose d.prev 0x1234 d.cache)).length := by
  decide

theorem witness_EncodeCompletes :
    let s : State := { State.reset with
      width := 1, height := 1, npix := 1, pixSrc := [0x1234] ++ [7]
      script := .writeReg .ctrl 1 :: List.replicate 16 HostTurn.takeAll }
    s.mode = .encode ∧ s.busy = false ∧ ([0x1234] : List Pixel).length = s.width.toNat * s.height.toNat ∧
      s.npix.toNat = ([0x1234] : List Pixel).length ∧ 12 + 4 * ([0x1234] : List Pixel).length ≤ 16 := by decide

theorem witness_DecodeCompletes :
    let s : State := { State.reset with
      mode := .decode, width := 1, height := 1, byteSrcEnds := true
      byteSrc := [0x71, 0x35, 0x36, 0x35, 1, 0, 1, 0, 0xC0]
      script := .writeReg .ctrl 1 :: List.replicate 16 HostTurn.takeAll }
    s.mode = .decode ∧ s.busy = false ∧ s.byteSrcEnds = true ∧
      12 + 4 * (s.width.toNat * s.height.toNat) ≤ 16 := by decide

end Sys2Proof.Tests
end

section
/-!
PROOFS. The outputs of the engine and the internal step they announce (10_state.md R45).
-/

namespace Sys2Proof.Machine

/-! ### Outputs -/

theorem State.isDone_iff (s : State) : s.isDone = true ↔ s.phase = .done := by
  simp [State.isDone]

theorem State.isError_iff (s : State) : s.isError = true ↔ s.phase = .error := by
  simp [State.isError]

theorem State.needOut_iff (s : State) :
    s.needOut = true ↔ s.busy = true ∧
      ((s.mode = .encode ∧ s.obuf ≠ []) ∨ (s.mode = .decode ∧ 0 < s.run.toNat)) := by
  unfold State.needOut
  cases s.mode <;> simp

/-- In an encode `need_in` asks for a pixel. -/
theorem State.needIn_iff_of_encode {s : State} (hm : s.mode = .encode) :
    s.needIn = true ↔ s.phase = .body ∧ s.obuf = [] ∧ s.pixCnt.toNat < s.total.toNat := by
  simp [State.needIn, hm, and_assoc]

/-- In a decode `need_in` is the ready signal of the byte source. -/
theorem State.needIn_eq_byteInReady_of_decode {s : State} (hm : s.mode = .decode) :
    s.needIn = s.byteInReady := by
  simp [State.byteInReady, hm]

theorem State.needIn_iff (s : State) :
    s.needIn = true ↔
      (s.mode = .encode ∧ s.phase = .body ∧ s.obuf = [] ∧ s.pixCnt.toNat < s.total.toNat) ∨
      (s.mode = .decode ∧ s.run.toNat = 0 ∧
        (s.phase = .header ∨ (s.phase = .body ∧ s.pixCnt.toNat < s.total.toNat) ∨
          s.phase = .trailer)) := by
  cases hm : s.mode with
  | encode => simp [State.needIn_iff_of_encode hm]
  | decode =>
    simp [State.needIn_eq_byteInReady_of_decode hm, State.byteInReady_iff, hm, ← BitVec.toNat_inj]

/-- In an encode `obuf` decides which of the two is asked for, in a decode `run`. -/
theorem State.not_needIn_and_needOut (s : State) : ¬ (s.needIn = true ∧ s.needOut = true) := by
  rintro ⟨hin, hout⟩
  obtain ⟨-, ⟨hm, hobuf⟩ | ⟨hm, hrun⟩⟩ := (State.needOut_iff s).1 hout
  · exact hobuf ((State.needIn_iff_of_encode hm).1 hin).2.1
  · rw [State.needIn_eq_byteInReady_of_decode hm, State.byteInReady_iff] at hin
    obtain ⟨-, hzero, -⟩ := hin
    simp [hzero] at hrun

theorem State.statusWord_bit8 (s : State) : s.statusWord.getLsbD 8 = s.needIn := by
  simp only [State.statusWord, BitVec.getLsbD_append]
  simp

theorem State.statusWord_bit9 (s : State) : s.statusWord.getLsbD 9 = s.needOut := by
  simp only [State.statusWord, BitVec.getLsbD_append]
  simp

/-! ### Internal steps -/

/-- `t` can follow `s` by a `tau` step: another phase, no error, and no port moves an element
(00_scope.md R10, 10_state.md R45). -/
def State.TauTo (s t : State) : Prop :=
  t.phase ≠ s.phase ∧ t.phase ≠ .error ∧ t.pixSrc = s.pixSrc ∧
    t.byteSrc = s.byteSrc ∧ t.byteSink = s.byteSink ∧ t.pixSink = s.pixSink

theorem State.tauTo_setPhase {s : State} {q : Phase} (hne : q ≠ s.phase) (herr : q ≠ .error) :
    s.TauTo { s with phase := q } :=
  ⟨hne, herr, rfl, rfl, rfl, rfl⟩

theorem State.tauTo_finishEncode {s : State} (hp : s.phase = .body) : s.TauTo s.finishEncode :=
  ⟨by simp [hp], by simp, rfl, rfl, rfl, rfl⟩

theorem State.tauTo_endBody {s : State} (hp : s.phase = .body) : s.TauTo s.endBody := by
  unfold State.endBody
  split <;> exact State.tauTo_setPhase (by simp [hp]) (by simp)

/-- An encode with nothing to emit and no pixel to ask for moves on: from the header to the body, from
the counted body to the trailer, from the trailer to the end (46_opcode_encoder.md R223, R228, R229). -/
theorem State.tauTo_encodeStep {s : State} (p : Ports) (hm : s.mode = .encode) (hb : s.busy = true)
    (hin : s.needIn = false) (hobuf : s.obuf = []) (hle : s.pixCnt.toNat ≤ s.total.toNat) :
    s.TauTo (s.encodeStep p) := by
  have hvalid : s.byteOutValid = false := by simp [State.byteOutValid, hobuf]
  obtain hp | hp | hp := (State.busy_iff s).1 hb
  · have hstep : s.encodeStep p = { s with phase := .body } := by
      simp [State.encodeStep, hvalid, hp]
    rw [hstep]
    exact State.tauTo_setPhase (by simp [hp]) (by simp)
  · have hall : ¬ s.pixCnt.toNat < s.total.toNat := fun hlt => by
      simp [(State.needIn_iff_of_encode hm).2 ⟨hp, hobuf, hlt⟩] at hin
    have hcounted : s.pixCnt = s.total :=
      BitVec.eq_of_toNat_eq (Nat.le_antisymm hle (Nat.le_of_not_lt hall))
    have hstep : s.encodeStep p = s.finishEncode := by
      simp [State.encodeStep, hvalid, hp, hcounted]
    rw [hstep]
    exact State.tauTo_finishEncode hp
  · have hstep : s.encodeStep p = { s with phase := .done } := by
      simp [State.encodeStep, hvalid, hp]
    rw [hstep]
    exact State.tauTo_setPhase (by simp [hp]) (by simp)

/-- A decode that owes no pixel and asks for no byte stands at the end of its body
(45_header_end.md R208). -/
theorem State.decodeStep_eq_endBody {s : State} (p : Ports) (hm : s.mode = .decode) (hb : s.busy = true)
    (hin : s.needIn = false) (hrun : s.run = 0) (hle : s.pixCnt.toNat ≤ s.total.toNat) :
    s.phase = .body ∧ s.decodeStep p = .next s.endBody := by
  have hasks : ¬ (s.phase = .header ∨ (s.phase = .body ∧ s.pixCnt.toNat < s.total.toNat) ∨
      s.phase = .trailer) := fun h => by
    have hready := (State.byteInReady_iff s).2 ⟨hm, hrun, h⟩
    rw [← State.needIn_eq_byteInReady_of_decode hm, hin] at hready
    cases hready
  obtain hp | hp | hp := (State.busy_iff s).1 hb
  · exact absurd (.inl hp) hasks
  · have hcounted : s.pixCnt = s.total := BitVec.eq_of_toNat_eq <|
      Nat.le_antisymm hle (Nat.le_of_not_lt fun hlt => hasks (.inr (.inl ⟨hp, hlt⟩)))
    exact ⟨hp, by simp [State.decodeStep, State.pixOutValid, hp, hrun, hcounted]⟩
  · exact absurd (.inr (.inr hp)) hasks

/-- A busy engine that needs neither an input nor an output takes a `tau` step. -/
theorem State.engineStep_tau {s : State} (p : Ports) (hb : s.busy = true) (hin : s.needIn = false)
    (hout : s.needOut = false) (hle : s.pixCnt.toNat ≤ s.total.toNat) :
    ∃ t, s.engineStep p = .next t ∧ s.TauTo t := by
  cases hm : s.mode with
  | encode =>
    have hobuf : s.obuf = [] := by simpa [State.needOut, hb, hm] using hout
    exact ⟨s.encodeStep p, by simp [State.engineStep, hm],
      State.tauTo_encodeStep p hm hb hin hobuf hle⟩
  | decode =>
    have hrun : s.run = 0 := by simpa [State.needOut, hb, hm, ← BitVec.toNat_inj] using hout
    obtain ⟨hp, hstep⟩ := State.decodeStep_eq_endBody p hm hb hin hrun hle
    exact ⟨s.endBody, by simpa [State.engineStep, hm] using hstep, State.tauTo_endBody hp⟩

/-- A turn that only offers the host's ready signals leaves the step to the engine. -/
theorem step_of_ports {s : State} {p : Ports} {turns : List HostTurn}
    (hs : s.script = .ports p :: turns) : step s = { s with script := turns }.engineStep p := by
  simp [step, State.nextTurn, hs, State.takeTurn]

/-- Settles O42: each output by its row of the table, and the internal step by the mode. -/
theorem outputsOfTheEngine : Obligations.OutputsOfTheEngine := by
  intro s
  refine ⟨s.busy_iff, s.isDone_iff, s.isError_iff, s.needOut_iff, s.needIn_iff,
    s.not_needIn_and_needOut, s.statusWord_bit8, s.statusWord_bit9, ?_⟩
  intro p turns hb hin hout hle hs
  rw [step_of_ports hs]
  exact State.engineStep_tau (s := { s with script := turns }) p hb hin hout hle

end Sys2Proof.Machine
end

section
/-!
PROOFS. The statements about the pixel cache (40_pixel_cache.md): O7.
-/

namespace Sys2Proof.Machine

/-! ### The hash (40_pixel_cache.md R120) -/

/-- The hash of the three channels, summed as numbers, so that no addition wraps before the one
reduction modulo 64 (40_pixel_cache.md R120). -/
theorem pixelHash_toNat (p : Pixel) :
    (pixelHash p).toNat =
      (3 * (red p).toNat + 5 * (green p).toNat + 7 * (blue p).toNat) % 64 :=
  BitVec.toNat_ofNat _ 6

/-- Settles O7: the hash of the channels, each channel read off the packed pixel. -/
theorem hashFormula : Obligations.HashFormula := by
  intro p
  rw [pixelHash_toNat, red_toNat, green_toNat, blue_toNat]

end Sys2Proof.Machine
end

section
/-!
PROOFS. The statements about the record RUN (41_run.md): O14.
-/

namespace Sys2Proof.Machine

/-- Where a leading byte is asked for, a one-byte record does its own work (41_run.md R148,
42_index.md R161, 43_diff.md R178). -/
theorem State.RecordGuard.recordOutcome_eq {s : State} (h : s.RecordGuard) (hsub : s.sub = 0)
    (t : State) : s.recordOutcome t = .next t := by
  have hlead : s.atLeading = true := (State.atLeading_iff s).2 ⟨h, hsub⟩
  simp [State.recordOutcome, hlead]

theorem exec_run (n : BitVec 6) (s : State) : exec (.run n) s = execRun n s := rfl

/-- Settles O14: the record's own work, by whether the run fits in the pixels still to come. The bound
on `n` is not used, since both sides take `n + 1` in the width of `run`. -/
theorem runResult : Obligations.RunResult := by
  intro n s hg hsub _
  have howed : BitVec.ofNat 6 (n.toNat + 1) = n + 1 := by simp [BitVec.ofNat_add]
  rw [exec_run, execRun, hg.recordOutcome_eq hsub, howed]
  split
  · rfl
  · rfl

end Sys2Proof.Machine
end

section
/-!
PROOFS. The statements about the record INDEX (42_index.md): O11.
-/

namespace Sys2Proof.Machine

theorem exec_index (idx : BitVec 6) (s : State) : exec (.index idx) s = execIndex idx s := rfl

/-- What a single-pixel record leaves, written out: three items change, the rest of the state is kept
(42_index.md R161, 43_diff.md R178, 44_literal.md R191). -/
theorem State.produce_eq (s : State) (px : Pixel) :
    s.produce px = { s with cache := s.cache.insertPixel px, prev := px, run := 1 } := rfl

/-- Settles O11: at a leading position the record does its own work, which produces the pixel that the
slot holds before the insert. -/
theorem indexResult : Obligations.IndexResult := by
  intro idx s hg hsub
  rw [exec_index, execIndex, hg.recordOutcome_eq hsub, State.produce_eq]

end Sys2Proof.Machine
end

section
/-!
PROOFS. The statements about the record DIFF (43_diff.md): O13.
-/

namespace Sys2Proof.Machine

/-! ### The channels of the decoded pixel (43_diff.md R178) -/

/-- A field less the bias 2, added in a channel of `w` bits: both sides are the same integer modulo
`2 ^ w`, so where the machine's two operations wrap does not matter (43_diff.md R178). -/
theorem toNat_add_setWidth_sub_two {w : Nat} (c : BitVec w) (f : BitVec 2) :
    ((c + f.setWidth w - 2).toNat : Int) = (c.toNat + f.toNat - 2) % 2 ^ w := by
  have hint : c + f.setWidth w - 2 = BitVec.ofInt w (c.toNat + f.toNat - 2) := by
    rw [BitVec.sub_eq_add_neg, Int.sub_eq_add_neg, BitVec.ofInt_add, BitVec.ofInt_add,
      BitVec.ofInt_neg, BitVec.ofInt_natCast, BitVec.ofInt_natCast, BitVec.ofInt_ofNat,
      BitVec.ofNat_toNat, BitVec.ofNat_toNat, BitVec.setWidth_eq, BitVec.ofNat_eq_ofNat]
  have hrange : ((2 ^ w : Nat) : Int) ≠ 0 :=
    Int.ne_of_gt (Int.natCast_pos.2 (Nat.two_pow_pos w))
  rw [hint, BitVec.toNat_ofInt, Int.toNat_of_nonneg (Int.emod_nonneg _ hrange), Int.natCast_pow,
    Int.cast_ofNat_Int]

theorem red_applyDelta_toNat (prev : Pixel) (fr fg fb : BitVec 2) :
    ((red (applyDelta prev fr fg fb)).toNat : Int) = ((red prev).toNat + fr.toNat - 2) % 32 := by
  rw [applyDelta, red_rgb]
  exact toNat_add_setWidth_sub_two _ _

theorem green_applyDelta_toNat (prev : Pixel) (fr fg fb : BitVec 2) :
    ((green (applyDelta prev fr fg fb)).toNat : Int) = ((green prev).toNat + fg.toNat - 2) % 64 := by
  rw [applyDelta, green_rgb]
  exact toNat_add_setWidth_sub_two _ _

theorem blue_applyDelta_toNat (prev : Pixel) (fr fg fb : BitVec 2) :
    ((blue (applyDelta prev fr fg fb)).toNat : Int) = ((blue prev).toNat + fb.toNat - 2) % 32 := by
  rw [applyDelta, blue_rgb]
  exact toNat_add_setWidth_sub_two _ _

/-! ### The record -/

theorem exec_diff (fr fg fb : BitVec 2) (s : State) :
    exec (.diff fr fg fb) s = execDiff fr fg fb s := rfl

/-- Settles O13: the new pixel is `applyDelta` of `prev`, channel by channel; at a leading position the
record does its own work, which produces that pixel. -/
theorem diffResult : Obligations.DiffResult := by
  intro fr fg fb s hg hsub
  refine ⟨applyDelta s.prev fr fg fb, red_applyDelta_toNat .., green_applyDelta_toNat ..,
    blue_applyDelta_toNat .., ?_⟩
  rw [exec_diff, execDiff, hg.recordOutcome_eq hsub, State.produce_eq]

end Sys2Proof.Machine
end

section
/-!
PROOFS. The statements about the record RGB565 (44_literal.md): O15.
-/

namespace Sys2Proof.Machine

theorem exec_rgb565 (px : Pixel) (s : State) : exec (.rgb565 px) s = execRgb565 px s := rfl

/-! ### One equation per step of the record (44_literal.md R191) -/

section
variable {s : State}

/-- Step 1: the tag byte only moves on to the low byte. -/
theorem State.RecordGuard.execRgb565_tag (h : s.RecordGuard) (hsub : s.sub = 0) (px : Pixel) :
    execRgb565 px s = .next { s with sub := 1 } := by
  rw [execRgb565, if_pos ((State.atRecord_iff s).2 h), if_pos hsub]

/-- Step 2: the low byte waits in `hold`. -/
theorem State.RecordGuard.execRgb565_low (h : s.RecordGuard) (hsub : s.sub = 1) (px : Pixel) :
    execRgb565 px s = .next { s with hold := loByte px, sub := 2 } := by
  have hne : s.sub ≠ 0 := by simp [hsub]
  rw [execRgb565, if_pos ((State.atRecord_iff s).2 h), if_neg hne, if_pos hsub]

/-- Step 3: the high byte completes the pixel, whose low byte is the one in `hold`. -/
theorem State.RecordGuard.execRgb565_high (h : s.RecordGuard) (hsub : s.sub = 2) (px : Pixel) :
    execRgb565 px s = .next { s.produce (ofBytes s.hold (hiByte px)) with sub := 0 } := by
  have hne0 : s.sub ≠ 0 := by simp [hsub]
  have hne1 : s.sub ≠ 1 := by simp [hsub]
  rw [execRgb565, if_pos ((State.atRecord_iff s).2 h), if_neg hne0, if_neg hne1, if_pos hsub]

end

/-- Settles O15: the equation of each step, the bytes and the produced pixel written out. -/
theorem literalSteps : Obligations.LiteralSteps := by
  intro px s hg
  rw [exec_rgb565]
  refine ⟨fun hsub => ?tag, fun hsub => ?low, fun hsub => ?high⟩
  case tag => exact hg.execRgb565_tag hsub px
  case low => rw [hg.execRgb565_low hsub, loByte]
  case high => rw [hg.execRgb565_high hsub, State.produce_eq, ofBytes, hiByte]

end Sys2Proof.Machine
end

section
/-!
PROOFS. The statements about the framing items HEADER and END and the end of the body
(45_header_end.md): O18, O19, O21, O37.
-/

namespace Sys2Proof.Machine

theorem exec_header (m0 m1 m2 m3 : Byte) (w h : BitVec 16) (s : State) :
    exec (.header m0 m1 m2 m3 w h) s = execHeader m0 m1 m2 m3 w h s := rfl

theorem exec_endMarker (s : State) : exec .endMarker s = execEndMarker s := rfl

/-! ### HEADER (45_header_end.md R202, R203) -/

/-- `hdr_bad` is kept by the right byte and set by a wrong one (45_header_end.md R202). -/
theorem State.magicByte_eq (s : State) (want got : Byte) :
    s.magicByte want got =
      { s with hdrBad := if got = want then s.hdrBad else true, sub := s.sub + 1 } := by
  unfold State.magicByte
  by_cases hgot : got = want
  · simp [hgot]
  · simp [hgot]

/-- The product of two dimensions fits in the register that holds it (10_state.md R27). -/
theorem area_eq_ofNat (w h : BitVec 16) : area w h = BitVec.ofNat 32 (w.toNat * h.toNat) := by
  rw [← area_toNat, BitVec.ofNat_toNat, BitVec.setWidth_eq]

/-- The eighth byte completes the header (45_header_end.md R203). -/
theorem State.HeaderGuard.execHeader_last {s : State} (hg : s.HeaderGuard) (hsub : s.sub = 7)
    (m0 m1 m2 m3 : Byte) (w h : BitVec 16) :
    execHeader m0 m1 m2 m3 w h s = .next (s.completeHeader (hiByte h)) := by
  rw [execHeader, if_pos ((State.atHeader_iff s).2 hg)]
  simp [hsub]

/-- Settles O18: in a decode inside the header `sub` selects the byte; the first four are compared with
`MAGIC`, the other three are put into their half of a dimension. -/
theorem headerBytes : Obligations.HeaderBytes := by
  intro m0 m1 m2 m3 w h s hg
  rw [exec_header, execHeader, if_pos ((State.atHeader_iff s).2 hg)]
  refine ⟨fun hsub => ?magic0, fun hsub => ?magic1, fun hsub => ?magic2, fun hsub => ?magic3,
    fun hsub => ?widthLow, fun hsub => ?widthHigh, fun hsub => ?heightLow⟩
  case magic0 | magic1 | magic2 | magic3 => simp [hsub, State.magicByte_eq]
  case widthLow | heightLow => simp [hsub, setLoByte, hiByte, loByte]
  case widthHigh => simp [hsub, setHiByte, hiByte, loByte]

/-- Settles O19: the eighth byte completes the header, which is judged once, with the new height. -/
theorem headerCompletion : Obligations.HeaderCompletion := by
  intro m0 m1 m2 m3 w h s hg hsub
  rw [exec_header, hg.execHeader_last hsub, State.completeHeader, area_eq_ofNat]
  exact apply_ite Host.Outcome.next ..

/-! ### END (45_header_end.md R207, R209) -/

theorem State.TrailerGuard.execEndMarker_eq {s : State} (hg : s.TrailerGuard) :
    execEndMarker s = .next { s with phase := .done } := by
  rw [execEndMarker, if_pos ((State.atTrailer_iff s).2 hg)]

theorem State.RecordGuard.execEndMarker_eq {s : State} (hg : s.RecordGuard) (hsub : s.sub = 0) :
    execEndMarker s = .next (s.raise .corruptStream) := by
  have hlead : s.atLeading = true := (State.atLeading_iff s).2 ⟨hg, hsub⟩
  simp [execEndMarker, hg.not_atTrailer, hlead]

/-- Settles O21: END at its own position, and END where a record is asked for. -/
theorem endResult : Obligations.EndResult :=
  fun _ => ⟨fun hg => hg.execEndMarker_eq, fun hg hsub => hg.execEndMarker_eq hsub⟩

/-! ### The end of the body (45_header_end.md R208) -/

theorem State.endBody_eq (s : State) :
    s.endBody = { s with phase := if s.strict = true then .trailer else .done } := by
  unfold State.endBody
  split
  · rfl
  · rfl

/-- A decode that owes no pixel and has them all asks for no byte, so its step ends the body. -/
theorem State.decodeStep_of_counted {s : State} (p : Ports) (hm : s.mode = .decode)
    (hp : s.phase = .body) (hrun : s.run = 0) (hcounted : s.pixCnt = s.total) :
    s.decodeStep p = .next s.endBody := by
  have hbusy : s.busy = true := s.busy_iff.2 (.inr (.inl hp))
  have hin : s.needIn = false := by simp [State.needIn, hm, hp, hcounted]
  have hle : s.pixCnt.toNat ≤ s.total.toNat := Nat.le_of_eq (congrArg BitVec.toNat hcounted)
  exact (State.decodeStep_eq_endBody p hm hbusy hin hrun hle).2

theorem State.engineStep_of_counted {s : State} (p : Ports) (hm : s.mode = .decode)
    (hp : s.phase = .body) (hrun : s.run = 0) (hcounted : s.pixCnt = s.total) :
    s.engineStep p =
      .next { s with phase := if s.strict = true then .trailer else .done } := by
  calc
    s.engineStep p = s.decodeStep p := by simp [State.engineStep, hm]
    _ = .next s.endBody := State.decodeStep_of_counted p hm hp hrun hcounted
    _ = _ := by rw [State.endBody_eq]

/-- Settles O37: the host's turn leaves the step to the decoder, which ends the body. -/
theorem endOfBodyStep : Obligations.EndOfBodyStep := by
  intro s p turns hm hp hrun hcounted hs
  rw [step_of_ports hs]
  exact State.engineStep_of_counted (s := { s with script := turns }) p hm hp hrun hcounted

end Sys2Proof.Machine
end

section
/-!
PROOFS. The statements about the encoder's own steps (46_opcode_encoder.md): O35.
-/

namespace Sys2Proof.Machine

theorem State.engineStep_of_encode {s : State} (p : Ports) (hm : s.mode = .encode) :
    s.engineStep p = .next (s.encodeStep p) := by
  rw [State.engineStep, hm]

/-! ### Emit (46_opcode_encoder.md R248) -/

theorem State.emitByte_of_cons {s : State} {b : Byte} {rest : List Byte} (hobuf : s.obuf = b :: rest) :
    s.emitByte = { s with obuf := rest, byteSink := s.byteSink ++ [b] } := by
  rw [State.emitByte, hobuf]

/-- A byte on offer that the host takes is the encoder's step, whatever the phase
(46_opcode_encoder.md R221). -/
theorem State.encodeStep_eq_emitByte {s : State} {p : Ports} (hvalid : s.byteOutValid = true)
    (htake : p.byteOut = true) : s.encodeStep p = s.emitByte := by
  rw [State.encodeStep, if_pos hvalid, if_pos htake]

theorem State.engineStep_of_emit {s : State} {p : Ports} {b : Byte} {rest : List Byte}
    (hm : s.mode = .encode) (hb : s.busy = true) (hobuf : s.obuf = b :: rest)
    (htake : p.byteOut = true) :
    s.engineStep p = .next { s with obuf := rest, byteSink := s.byteSink ++ [b] } := by
  have hvalid : s.byteOutValid = true := s.byteOutValid_iff.2 ⟨hm, hb, by simp [hobuf]⟩
  rw [State.engineStep_of_encode p hm, State.encodeStep_eq_emitByte hvalid htake,
    State.emitByte_of_cons hobuf]

/-- Settles O35: the host's turn leaves the step to the encoder, which has a byte on offer. -/
theorem emitByteStep : Obligations.EmitByteStep := by
  intro s p turns b rest hm hb hobuf htake hs
  rw [step_of_ports hs]
  exact State.engineStep_of_emit (s := { s with script := turns }) hm hb hobuf htake

end Sys2Proof.Machine
end

section
/-!
PROOFS. The statements about the decoder's own steps (47_opcode_decoder.md): O36, O38.
-/

namespace Sys2Proof.Machine

theorem State.engineStep_of_decode {s : State} (p : Ports) (hm : s.mode = .decode) :
    s.engineStep p = s.decodeStep p := by
  rw [State.engineStep, hm]

/-! ### Emit pixel (47_opcode_decoder.md R268) -/

/-- While a copy is owed, counting `run` down does not wrap (10_state.md R26). -/
theorem State.emitPixel_eq {s : State} (hrun : 0 < s.run.toNat) :
    s.emitPixel =
      { s with
        run := BitVec.ofNat 6 (s.run.toNat - 1)
        pixCnt := s.pixCnt + 1
        pixSink := s.pixSink ++ [s.prev] } := by
  have hdown : s.run - 1 = BitVec.ofNat 6 (s.run.toNat - 1) := by bv_omega
  rw [State.emitPixel, hdown]

/-- A pixel on offer that the host takes is the decoder's step (47_opcode_decoder.md R261). -/
theorem State.decodeStep_eq_emitPixel {s : State} {p : Ports} (hvalid : s.pixOutValid = true)
    (htake : p.pixOut = true) : s.decodeStep p = .next s.emitPixel := by
  rw [State.decodeStep, if_pos hvalid, if_pos htake]

theorem State.engineStep_of_emitPixel {s : State} {p : Ports} (hm : s.mode = .decode)
    (hp : s.phase = .body) (hrun : 0 < s.run.toNat) (htake : p.pixOut = true) :
    s.engineStep p =
      .next { s with
        run := BitVec.ofNat 6 (s.run.toNat - 1)
        pixCnt := s.pixCnt + 1
        pixSink := s.pixSink ++ [s.prev] } := by
  have hvalid : s.pixOutValid = true := s.pixOutValid_iff.2 ⟨hm, hp, hrun⟩
  rw [State.engineStep_of_decode p hm, State.decodeStep_eq_emitPixel hvalid htake,
    State.emitPixel_eq hrun]

/-- Settles O36: the host's turn leaves the step to the decoder, which has a pixel on offer. -/
theorem emitPixelStep : Obligations.EmitPixelStep := by
  intro s p turns hm hp hrun htake hs
  rw [step_of_ports hs]
  exact State.engineStep_of_emitPixel (s := { s with script := turns }) hm hp hrun htake

/-! ### End of source (47_opcode_decoder.md R281) -/

/-- A decoder that asks for a byte offers no pixel and is not at the end of its body
(47_opcode_decoder.md R261). -/
theorem State.decodeStep_of_byteInReady {s : State} (p : Ports) (hready : s.byteInReady = true) :
    s.decodeStep p = s.takeByte := by
  obtain ⟨-, hrun, hasks⟩ := s.byteInReady_iff.1 hready
  have hvalid : ¬ s.pixOutValid = true := by
    rw [State.pixOutValid_iff]
    rintro ⟨-, -, howed⟩
    simp [hrun] at howed
  have hmore : ¬ (s.phase = .body ∧ s.run = 0 ∧ s.pixCnt = s.total) := by
    rintro ⟨hp, -, hcounted⟩
    simp [hp, hcounted] at hasks
  rw [State.decodeStep, if_neg hvalid, if_neg hmore, if_pos hready]

theorem State.takeByte_of_ended {s : State} (hsrc : s.byteSrc = []) (hends : s.byteSrcEnds = true) :
    s.takeByte = .next (s.raise .unexpectedEnd) := by
  simp [State.takeByte, hsrc, hends]

theorem State.engineStep_of_ended {s : State} (p : Ports) (hm : s.mode = .decode)
    (hsrc : s.byteSrc = []) (hends : s.byteSrcEnds = true) (hin : s.needIn = true) :
    s.engineStep p = .next (s.raise .unexpectedEnd) := by
  have hready : s.byteInReady = true := by rw [← State.needIn_eq_byteInReady_of_decode hm, hin]
  rw [State.engineStep_of_decode p hm, State.decodeStep_of_byteInReady p hready,
    State.takeByte_of_ended hsrc hends]

theorem State.endBody_phase_ne_error (s : State) : s.endBody.phase ≠ .error := by
  rw [State.endBody_eq]
  cases s.strict <;> simp

theorem State.endBody_err (s : State) : s.endBody.err = s.err := by
  rw [State.endBody_eq]

/-- A decoder that asks for no byte raises nothing: every error of a decode is raised by the step that
takes a byte or finds the source ended (47_opcode_decoder.md R280). -/
theorem State.decodeStep_raises_nothing {s : State} (p : Ports) (hp : s.phase ≠ .error)
    (hasks : ¬ s.byteInReady = true) :
    ∃ t, s.decodeStep p = .next t ∧ t.phase ≠ .error ∧ t.err = s.err := by
  obtain hstill | ⟨-, -, hemit⟩ | ⟨-, -, -, -, hend⟩ | ⟨hready, -⟩ | ⟨hready, -⟩ :=
    State.decodeStep_cases p s
  · exact ⟨s, hstill, hp, rfl⟩
  · exact ⟨s.emitPixel, hemit, hp, rfl⟩
  · exact ⟨s.endBody, hend, s.endBody_phase_ne_error, s.endBody_err⟩
  · exact absurd hready hasks
  · exact absurd hready hasks

/-- No byte is asked for while a pixel is owed, when the last pixel is out, or after the end. -/
theorem State.not_byteInReady {s : State}
    (h : s.phase = .body ∧ (0 < s.run.toNat ∨ s.pixCnt = s.total) ∨ s.phase = .done) :
    ¬ s.byteInReady = true := by
  rw [State.byteInReady_iff]
  rintro ⟨-, hrun, hasks⟩
  obtain ⟨hp, howed | hcounted⟩ | hp := h
  · simp [hrun] at howed
  · simp [hp, hcounted] at hasks
  · simp [hp] at hasks

/-- Settles O38: where a byte is asked for the ended source raises; elsewhere the decoder does not look
at the source. -/
theorem endOfSourceStep : Obligations.EndOfSourceStep := by
  intro s p turns hm hsrc hends hs
  rw [step_of_ports hs]
  refine ⟨fun hin => ?needed, fun hpos => ?elsewhere⟩
  case needed => exact State.engineStep_of_ended (s := { s with script := turns }) p hm hsrc hends hin
  case elsewhere =>
    have hasks : ¬ s.byteInReady = true := State.not_byteInReady <|
      hpos.imp (fun ⟨hp, h⟩ => ⟨hp, h.imp_right And.left⟩) And.left
    have hp : s.phase ≠ .error := by
      obtain ⟨hp, -⟩ | ⟨hp, -⟩ := hpos <;> simp [hp]
    rw [State.engineStep_of_decode (s := { s with script := turns }) p hm]
    exact State.decodeStep_raises_nothing (s := { s with script := turns }) p hp hasks

end Sys2Proof.Machine
end

section
/-!
PROOFS. The statements about the host commands and the register writes (48_host_commands.md): O24, O25,
O40.
-/

namespace Sys2Proof.Machine

theorem exec_start (s : State) : exec .start s = execStart s := rfl

theorem exec_reset (s : State) : exec .reset s = execReset s := rfl

/-! ### START (48_host_commands.md R303 to R305) -/

/-- The common part of an accepted START, written out: every item of operation state has its initial
value, the rest of the state is kept (48_host_commands.md R303). -/
theorem State.clearOperation_eq (s : State) :
    s.clearOperation =
      { s with
        err := .none, prev := 0, run := 0, pixCnt := 0, total := 0, cache := Vector.replicate 64 0
        obuf := [], sub := 0, hold := 0, hdrBad := false, hdrW := 0, hdrH := 0 } := rfl

section
variable {s : State}

theorem execStart_of_encode (hb : s.busy = false) (hm : s.mode = .encode) :
    execStart s = .next s.clearOperation.startEncode := by
  simp [execStart, hb, hm]

theorem execStart_of_decode (hb : s.busy = false) (hm : s.mode = .decode) :
    execStart s = .next s.clearOperation.startDecode := by
  simp [execStart, hb, hm]

end

/-- The engine compares `NPIX` with a register, which holds the full product (10_state.md R27). -/
theorem eq_area_iff (n : Word) (w h : BitVec 16) : n = area w h ↔ n.toNat = w.toNat * h.toNat := by
  rw [← area_toNat, BitVec.toNat_inj]

/-- The bytes of the header, each a field of its dimension (45_header_end.md R201). -/
theorem packHeader_eq (w h : BitVec 16) :
    packHeader w h =
      [0x71, 0x35, 0x36, 0x35, w.extractLsb' 0 8, w.extractLsb' 8 8, h.extractLsb' 0 8,
        h.extractLsb' 8 8] := rfl

/-- The encode part compares `NPIX` with the product as numbers; with the right one it keeps the product
and pushes the header (48_host_commands.md R304). -/
theorem State.startEncode_eq (s : State) :
    s.startEncode =
      if s.npix.toNat ≠ s.width.toNat * s.height.toNat then s.raise .dimensionMismatch
      else { s with
        total := BitVec.ofNat 32 (s.width.toNat * s.height.toNat)
        obuf := s.obuf ++ packHeader s.width s.height
        phase := .header } := by
  rw [State.startEncode, State.push, ← area_eq_ofNat]
  exact ite_congr (propext (not_congr (eq_area_iff ..))) (fun _ => rfl) (fun _ => rfl)

/-- Settles O24: START is accepted outside an operation; the operation state is cleared and the encode
part then compares `NPIX` with the product of the dimensions. -/
theorem startEncodeResult : Obligations.StartEncodeResult := by
  intro s hp hm
  rw [exec_start, execStart_of_encode (s.not_busy_iff.2 hp) hm, State.startEncode_eq, packHeader_eq,
    State.clearOperation_eq]
  exact apply_ite Host.Outcome.next ..

/-- Settles O25: START is accepted outside an operation; the operation state is cleared and the decode
part looks at nothing. -/
theorem startDecodeResult : Obligations.StartDecodeResult := by
  intro s hp hm
  rw [exec_start, execStart_of_decode (s.not_busy_iff.2 hp) hm, State.clearOperation_eq,
    State.startDecode]

/-! ### Register writes (48_host_commands.md R306) -/

/-- A turn in which the host writes a register is that write. -/
theorem step_of_writeReg {s : State} {r : Reg} {v : Word} {turns : List HostTurn}
    (hs : s.script = .writeReg r v :: turns) : step s = { s with script := turns }.writeReg r v := by
  simp [step, State.nextTurn, hs, State.takeTurn]

/-- Bit 1 of a CTRL value is looked at first (48_host_commands.md R301). -/
theorem decodeControl_of_bit1 {v : Word} (h1 : v.getLsbD 1 = true) :
    decodeControl v = .ok .reset := by
  rw [decodeControl, if_pos h1]

theorem decodeControl_of_no_bit {v : Word} (h1 : v.getLsbD 1 = false) (h0 : v.getLsbD 0 = false) :
    decodeControl v = .error .noCommand := by
  rw [decodeControl, h1, h0]
  rfl

/-- The two command bits of a CTRL value, read as one field. -/
theorem getLsbD_eq_false_of_extractLsb'_eq_zero {v : Word} (h : v.extractLsb' 0 2 = 0) {i : Nat}
    (hi : i < 2) : v.getLsbD i = false := by
  have hbit : (v.extractLsb' 0 2).getLsbD i = false := by simp [h]
  simpa [BitVec.getLsbD_extractLsb', hi] using hbit

theorem State.writeReg_ctrl_of_bit1 (s : State) {v : Word} (h1 : v.getLsbD 1 = true) :
    s.writeReg .ctrl v = exec .reset s := by
  simp [State.writeReg, decodeControl_of_bit1 h1]

theorem State.writeReg_ctrl_of_no_bit (s : State) {v : Word} (h1 : v.getLsbD 1 = false)
    (h0 : v.getLsbD 0 = false) : s.writeReg .ctrl v = .next s := by
  simp [State.writeReg, decodeControl_of_no_bit h1 h0]

/-- Only a write of CTRL does anything during an operation (10_state.md R37). -/
theorem State.writeReg_of_ne_ctrl (s : State) {r : Reg} (v : Word) (hr : r ≠ .ctrl) :
    s.writeReg r v = .next (if s.busy = true then s else s.writeConfig r v) := by
  obtain ⟨hc, -⟩ | ⟨hc, -⟩ | ⟨hc, -⟩ | ⟨-, hb, hw⟩ | ⟨-, hb, hw⟩ := s.writeReg_cases r v
  · exact absurd hc hr
  · exact absurd hc hr
  · exact absurd hc hr
  · rw [hw, hb, if_neg Bool.false_ne_true]
  · rw [hw, if_pos hb]

/-- Settles O40: a CTRL write by its two command bits, any other write by whether the engine is busy and
then by its register. -/
theorem registerWrites : Obligations.RegisterWrites := by
  intro s r v turns hs
  rw [step_of_writeReg hs]
  refine ⟨fun hr => ⟨fun h1 => ?resets, fun hclear => ?noCommand⟩, fun hr => ?configuration⟩
  case resets => rw [hr, State.writeReg_ctrl_of_bit1 _ h1]
  case noCommand =>
    have h1 : v.getLsbD 1 = false :=
      getLsbD_eq_false_of_extractLsb'_eq_zero hclear (by decide)
    have h0 : v.getLsbD 0 = false :=
      getLsbD_eq_false_of_extractLsb'_eq_zero hclear (by decide)
    rw [hr, State.writeReg_ctrl_of_no_bit _ h1 h0]
  case configuration =>
    rw [State.writeReg_of_ne_ctrl _ v hr]
    cases r <;> rfl

end Sys2Proof.Machine
end

section
/-!
PROOFS. The statements about reset (70_reset_and_hazards.md): O28.
-/

namespace Sys2Proof.Machine

/-! ### Outside an operation every signal of a transfer is 0 (10_state.md R45, 20_memory.md R61 to R64) -/

section
variable {s : State}

theorem State.busy_of_needIn (h : s.needIn = true) : s.busy = true := by
  rw [State.busy_iff]
  obtain ⟨-, hp, -⟩ | ⟨-, -, hp | ⟨hp, -⟩ | hp⟩ := s.needIn_iff.1 h
  · exact .inr (.inl hp)
  · exact .inl hp
  · exact .inr (.inl hp)
  · exact .inr (.inr hp)

theorem State.needIn_of_not_busy (hb : s.busy = false) : s.needIn = false :=
  Bool.eq_false_iff.2 fun h => by simp [State.busy_of_needIn h] at hb

theorem State.needOut_of_not_busy (hb : s.busy = false) : s.needOut = false := by
  simp [State.needOut, hb]

theorem State.pixInReady_of_not_busy (hb : s.busy = false) : s.pixInReady = false := by
  simp [State.pixInReady, State.needIn_of_not_busy hb]

theorem State.byteOutValid_of_not_busy (hb : s.busy = false) : s.byteOutValid = false := by
  simp [State.byteOutValid, hb]

theorem State.byteInReady_of_not_busy (hb : s.busy = false) : s.byteInReady = false := by
  simp [State.byteInReady, State.needIn_of_not_busy hb]

theorem State.pixOutValid_of_not_busy (hb : s.busy = false) : s.pixOutValid = false :=
  Bool.eq_false_iff.2 fun h => by
    obtain ⟨-, hp, -⟩ := s.pixOutValid_iff.1 h
    simp [s.busy_iff.2 (.inr (.inl hp))] at hb

/-- Outside an operation STATUS shows `phase` and `err` alone (10_state.md R29). -/
theorem State.statusWord_of_not_busy (hb : s.busy = false) :
    s.statusWord = 0#25 ++ s.err.code ++ 0#1 ++ s.phase.code := by
  rw [State.statusWord, State.needIn_of_not_busy hb, State.needOut_of_not_busy hb]
  rfl

end

/-! ### The reset state (70_reset_and_hazards.md R360) -/

theorem State.busy_reset : State.reset.busy = false := State.reset.not_busy_iff.2 (.inl rfl)

theorem State.readWord_reset (r : Reg) : State.reset.readWord r = 0 := by
  cases r with
  | status => exact State.statusWord_of_not_busy State.busy_reset
  | ctrl | cfg | dim | npix | pixcnt | hdrdim => rfl

/-- Settles O28: the items of state by the definition of the reset state, the outputs because no operation
is running. -/
theorem resetShowsZero : Obligations.ResetShowsZero := by
  have hb : State.reset.busy = false := State.busy_reset
  exact ⟨rfl, rfl, rfl, rfl, State.readWord_reset, Cache.slot_init, rfl, rfl, rfl, rfl, rfl, rfl, rfl,
    hb, rfl, rfl, State.needIn_of_not_busy hb, State.needOut_of_not_busy hb,
    State.pixInReady_of_not_busy hb, State.byteOutValid_of_not_busy hb,
    State.byteInReady_of_not_busy hb, State.pixOutValid_of_not_busy hb⟩

end Sys2Proof.Machine
end

section
/-!
PROOFS. The statements about decoding and encoding (30_encoding.md): O1, O2, O3, O4, O5.
-/

namespace Sys2Proof

/-! ### The leading-byte map as arithmetic (30_encoding.md R98) -/

section
variable {b : Byte}

theorem eq_trailer_iff : b = Config.trailer ↔ b.toNat = 0xFF := BitVec.toNat_inj.symm

theorem eq_literalTag_iff : b = Config.literalTag ↔ b.toNat = 0xFE := BitVec.toNat_inj.symm

theorem tagOf_eq_iff {k : BitVec 2} : tagOf b = k ↔ b.toNat / 64 = k.toNat := by
  rw [← BitVec.toNat_inj, tagOf_toNat]

/-- The leading byte read as a number: the two full-byte values, then the quarters of the byte range. -/
theorem leadingItem_eq (b : Byte) :
    leadingItem b =
      if b.toNat = 0xFF then .endMarker
      else if b.toNat = 0xFE then .rgb565 0
      else if b.toNat / 64 = 0 then .index (payloadOf b)
      else if b.toNat / 64 = 1 then
        .diff (b.extractLsb' 4 2) (b.extractLsb' 2 2) (b.extractLsb' 0 2)
      else if b.toNat / 64 = 2 then .reserved (payloadOf b)
      else .run (payloadOf b) := by
  simp only [leadingItem, eq_trailer_iff, eq_literalTag_iff, tagOf_eq_iff]
  rfl

theorem leadingItem_of_index (h : b.toNat ≤ 0x3F) : leadingItem b = .index (payloadOf b) := by
  rw [leadingItem_eq, if_neg (by omega), if_neg (by omega), if_pos (by omega)]

theorem leadingItem_of_diff (hlow : 0x40 ≤ b.toNat) (hhigh : b.toNat ≤ 0x7F) :
    leadingItem b = .diff (b.extractLsb' 4 2) (b.extractLsb' 2 2) (b.extractLsb' 0 2) := by
  rw [leadingItem_eq, if_neg (by omega), if_neg (by omega), if_neg (by omega), if_pos (by omega)]

theorem leadingItem_of_reserved (hlow : 0x80 ≤ b.toNat) (hhigh : b.toNat ≤ 0xBF) :
    leadingItem b = .reserved (payloadOf b) := by
  rw [leadingItem_eq, if_neg (by omega), if_neg (by omega), if_neg (by omega), if_neg (by omega),
    if_pos (by omega)]

theorem leadingItem_of_run (hlow : 0xC0 ≤ b.toNat) (hhigh : b.toNat ≤ 0xFD) :
    leadingItem b = .run (payloadOf b) := by
  rw [leadingItem_eq, if_neg (by omega), if_neg (by omega), if_neg (by omega), if_neg (by omega),
    if_neg (by omega)]

/-- The six ranges, with the item of each: every leading byte lies in exactly one. -/
theorem leadingItem_cases (b : Byte) :
    (b.toNat ≤ 0x3F ∧ leadingItem b = .index (payloadOf b)) ∨
    (0x40 ≤ b.toNat ∧ b.toNat ≤ 0x7F ∧
      leadingItem b = .diff (b.extractLsb' 4 2) (b.extractLsb' 2 2) (b.extractLsb' 0 2)) ∨
    (0x80 ≤ b.toNat ∧ b.toNat ≤ 0xBF ∧ leadingItem b = .reserved (payloadOf b)) ∨
    (0xC0 ≤ b.toNat ∧ b.toNat ≤ 0xFD ∧ leadingItem b = .run (payloadOf b)) ∨
    (b = Config.literalTag ∧ leadingItem b = .rgb565 0) ∨
    (b = Config.trailer ∧ leadingItem b = .endMarker) := by
  have hb := b.isLt
  by_cases h0 : b.toNat ≤ 0x3F
  · exact .inl ⟨h0, leadingItem_of_index h0⟩
  by_cases h1 : b.toNat ≤ 0x7F
  · exact .inr (.inl ⟨by omega, h1, leadingItem_of_diff (by omega) h1⟩)
  by_cases h2 : b.toNat ≤ 0xBF
  · exact .inr (.inr (.inl ⟨by omega, h2, leadingItem_of_reserved (by omega) h2⟩))
  by_cases h3 : b.toNat ≤ 0xFD
  · exact .inr (.inr (.inr (.inl ⟨by omega, h3, leadingItem_of_run (by omega) h3⟩)))
  by_cases h4 : b.toNat = 0xFE
  · have hlit : b = Config.literalTag := eq_literalTag_iff.2 h4
    exact .inr (.inr (.inr (.inr (.inl ⟨hlit, hlit ▸ rfl⟩))))
  · have hend : b = Config.trailer := eq_trailer_iff.2 (by omega)
    exact .inr (.inr (.inr (.inr (.inr ⟨hend, hend ▸ rfl⟩))))

end

/-! ### The fields of a packed byte, and the packing of a byte's fields -/

theorem payloadOf_packIndex (i : BitVec 6) : payloadOf (packIndex i) = i := by
  apply BitVec.eq_of_toNat_eq
  rw [payloadOf_toNat, packIndex_toNat]
  omega

theorem payloadOf_packReserved (x : BitVec 6) : payloadOf (packReserved x) = x := by
  apply BitVec.eq_of_toNat_eq
  rw [payloadOf_toNat, packReserved_toNat]
  omega

theorem payloadOf_packRun (n : BitVec 6) : payloadOf (packRun (n.toNat + 1)) = n := by
  apply BitVec.eq_of_toNat_eq
  rw [payloadOf_toNat, packRun_toNat]
  omega

/-- A 2-bit field of a byte, as arithmetic. -/
theorem extractLsb'_two_toNat (b : Byte) (k : Nat) :
    (b.extractLsb' k 2).toNat = b.toNat / 2 ^ k % 4 := by
  simp [Nat.shiftRight_eq_div_pow]

theorem packDiff_fields (fr fg fb : BitVec 2) :
    (packDiff fr fg fb).extractLsb' 4 2 = fr ∧ (packDiff fr fg fb).extractLsb' 2 2 = fg ∧
      (packDiff fr fg fb).extractLsb' 0 2 = fb := by
  refine ⟨?_, ?_, ?_⟩
  all_goals
    apply BitVec.eq_of_toNat_eq
    rw [extractLsb'_two_toNat, packDiff_toNat]
    omega

theorem leadingItem_trailer : leadingItem Config.trailer = .endMarker := rfl

theorem leadingItem_packIndex (i : BitVec 6) : leadingItem (packIndex i) = .index i := by
  have hrange : (packIndex i).toNat ≤ 0x3F := by rw [packIndex_toNat]; omega
  rw [leadingItem_of_index hrange, payloadOf_packIndex]

theorem leadingItem_packDiff (fr fg fb : BitVec 2) :
    leadingItem (packDiff fr fg fb) = .diff fr fg fb := by
  have hvalue := packDiff_toNat fr fg fb
  obtain ⟨hr, hg, hb⟩ := packDiff_fields fr fg fb
  rw [leadingItem_of_diff (by omega) (by omega), hr, hg, hb]

theorem leadingItem_packReserved (x : BitVec 6) : leadingItem (packReserved x) = .reserved x := by
  have hvalue := packReserved_toNat x
  rw [leadingItem_of_reserved (by omega) (by omega), payloadOf_packReserved]

/-- A RUN field of at most 61 keeps its byte clear of RGB565 and END (30_encoding.md R95). -/
theorem leadingItem_packRun {n : BitVec 6} (hn : n.toNat ≤ 61) :
    leadingItem (packRun (n.toNat + 1)) = .run n := by
  have hvalue := packRun_toNat (n.toNat + 1)
  rw [leadingItem_of_run (by omega) (by omega), payloadOf_packRun]

/-- A leading byte that is no tag of an RGB565 is the whole encoding of its item. -/
theorem encodeBytes_leadingItem {b : Byte} (hne : b ≠ Config.literalTag) :
    encodeBytes (leadingItem b) = [b] := by
  have hb := b.isLt
  obtain ⟨hhigh, hi⟩ | ⟨hlow, hhigh, hi⟩ | ⟨hlow, hhigh, hi⟩ | ⟨hlow, hhigh, hi⟩ | ⟨hlit, -⟩ | ⟨hend, hi⟩ :=
    leadingItem_cases b
  · have hpack : packIndex (payloadOf b) = b := by
      apply BitVec.eq_of_toNat_eq
      rw [packIndex_toNat, payloadOf_toNat]
      omega
    rw [hi, encodeBytes, hpack]
  · have hpack : packDiff (b.extractLsb' 4 2) (b.extractLsb' 2 2) (b.extractLsb' 0 2) = b := by
      apply BitVec.eq_of_toNat_eq
      simp only [packDiff_toNat, extractLsb'_two_toNat]
      omega
    rw [hi, encodeBytes, hpack]
  · have hpack : packReserved (payloadOf b) = b := by
      apply BitVec.eq_of_toNat_eq
      rw [packReserved_toNat, payloadOf_toNat]
      omega
    rw [hi, encodeBytes, hpack]
  · have hpack : packRun ((payloadOf b).toNat + 1) = b := by
      apply BitVec.eq_of_toNat_eq
      rw [packRun_toNat, payloadOf_toNat]
      omega
    rw [hi, encodeBytes, hpack]
  · exact absurd hlit hne
  · rw [hi, encodeBytes, packEnd, hend]

/-- What a leading byte stands for is a well-formed record (30_encoding.md R95, R98). -/
theorem leadingItem_wellFormed (b : Byte) :
    (leadingItem b).wellFormed = true ∧
      encode (leadingItem b) = .record (encodeBytes (leadingItem b)) := by
  obtain ⟨-, hi⟩ | ⟨-, -, hi⟩ | ⟨-, -, hi⟩ | ⟨hlow, hhigh, hi⟩ | ⟨-, hi⟩ | ⟨-, hi⟩ := leadingItem_cases b
  case inr.inr.inr.inl =>
    have hrun : (payloadOf b).toNat + 1 ≤ Config.maxRun := by
      rw [payloadOf_toNat, Config.maxRun]
      omega
    rw [hi]
    exact ⟨decide_eq_true hrun, rfl⟩
  all_goals
    rw [hi]
    exact ⟨rfl, rfl⟩

/-! ### `decodeRecord` and `decodeHeader` -/

theorem decodeRecord_of_ne_literalTag {b : Byte} (hne : b ≠ Config.literalTag) (rest : List Byte) :
    decodeRecord (b :: rest) = .ok (leadingItem b, rest) :=
  if_neg hne

theorem decodeRecord_literalTag (lo hi : Byte) (rest : List Byte) :
    decodeRecord (Config.literalTag :: lo :: hi :: rest) = .ok (.rgb565 (ofBytes lo hi), rest) := by
  rw [decodeRecord, if_pos rfl]

/-- The two ways a record is read: three bytes after the tag 0xFE, else the leading byte alone. -/
theorem decodeRecord_cons_cases {b : Byte} {bytes rest : List Byte} {i : Instr}
    (h : decodeRecord (b :: bytes) = .ok (i, rest)) :
    (b = Config.literalTag ∧ ∃ lo hi, bytes = lo :: hi :: rest ∧ i = .rgb565 (ofBytes lo hi)) ∨
    (b ≠ Config.literalTag ∧ i = leadingItem b ∧ bytes = rest) := by
  by_cases hlit : b = Config.literalTag
  · subst hlit
    match bytes with
    | [] => simp [decodeRecord] at h
    | [_] => simp [decodeRecord] at h
    | lo :: hi :: tail =>
      rw [decodeRecord_literalTag] at h
      cases h
      exact .inl ⟨rfl, lo, hi, rfl, rfl⟩
  · rw [decodeRecord_of_ne_literalTag hlit] at h
    cases h
    exact .inr ⟨hlit, rfl, rfl⟩

/-- A leading byte that is read as an item with the same leading byte is that item. -/
theorem decodeRecord_of_leadingItem {b : Byte} {i : Instr} (hi : leadingItem b = i)
    (hlit : i ≠ .rgb565 0) (rest : List Byte) : decodeRecord (b :: rest) = .ok (i, rest) := by
  have hne : b ≠ Config.literalTag := by
    rintro rfl
    exact hlit hi.symm
  rw [decodeRecord_of_ne_literalTag hne, hi]

theorem decodeHeader_magic (wl wh hl hh : Byte) (rest : List Byte) :
    decodeHeader (0x71 :: 0x35 :: 0x36 :: 0x35 :: wl :: wh :: hl :: hh :: rest) =
      .ok (.header 0x71 0x35 0x36 0x35 (ofBytes wl wh) (ofBytes hl hh), rest) := rfl

/-- A header is read from eight bytes that begin with `MAGIC` (30_encoding.md R92, R105). -/
theorem decodeHeader_cases {bytes rest : List Byte} {i : Instr} (h : decodeHeader bytes = .ok (i, rest)) :
    ∃ wl wh hl hh, bytes = 0x71 :: 0x35 :: 0x36 :: 0x35 :: wl :: wh :: hl :: hh :: rest ∧
      i = .header 0x71 0x35 0x36 0x35 (ofBytes wl wh) (ofBytes hl hh) := by
  unfold decodeHeader at h
  split at h
  · next m0 m1 m2 m3 wl wh hl hh tail =>
    split at h
    · next hmagic =>
      cases h
      cases hmagic
      exact ⟨wl, wh, hl, hh, rfl, rfl⟩
    · cases h
  · cases h

/-! ### Both directions -/

/-- A well-formed record is read back from its encoding, whatever bytes follow. -/
theorem decodeRecord_encodeBytes {i : Instr} (hwf : i.wellFormed = true) {bytes : List Byte}
    (henc : encode i = .record bytes) (rest : List Byte) :
    decodeRecord (bytes ++ rest) = .ok (i, rest) := by
  cases i with
  | header | start | reset => cases henc
  | index i =>
    cases henc
    exact decodeRecord_of_leadingItem (leadingItem_packIndex i) (by simp) rest
  | diff fr fg fb =>
    cases henc
    exact decodeRecord_of_leadingItem (leadingItem_packDiff fr fg fb) (by simp) rest
  | reserved x =>
    cases henc
    exact decodeRecord_of_leadingItem (leadingItem_packReserved x) (by simp) rest
  | run n =>
    cases henc
    have hn : n.toNat ≤ 61 := Nat.le_of_succ_le_succ (of_decide_eq_true hwf)
    exact decodeRecord_of_leadingItem (leadingItem_packRun hn) (by simp) rest
  | rgb565 px =>
    cases henc
    have hread := decodeRecord_literalTag (loByte px) (hiByte px) rest
    rwa [ofBytes_loByte_hiByte] at hread
  | endMarker =>
    cases henc
    exact decodeRecord_of_leadingItem leadingItem_trailer (by simp) rest

/-- A header with the right magic is read back from its encoding, whatever bytes follow. -/
theorem decodeHeader_encodeBytes {i : Instr} (hwf : i.wellFormed = true) {bytes : List Byte}
    (henc : encode i = .header bytes) (rest : List Byte) :
    decodeHeader (bytes ++ rest) = .ok (i, rest) := by
  cases i with
  | header m0 m1 m2 m3 w h =>
    have hmagic : [m0, m1, m2, m3] = Config.magic := by simpa [Instr.wellFormed] using hwf
    cases henc
    cases hmagic
    have hread := decodeHeader_magic (loByte w) (hiByte w) (loByte h) (hiByte h) rest
    rwa [ofBytes_loByte_hiByte, ofBytes_loByte_hiByte] at hread
  | index | diff | reserved | run | rgb565 | endMarker | start | reset => cases henc

/-- Settles O1: a record by its leading byte, a header by its magic, a command by its bit. -/
theorem decodeOfEncode : Obligations.DecodeOfEncode := by
  intro i hwf
  refine ⟨?_, fun bytes rest henc => decodeRecord_encodeBytes hwf henc rest,
    fun bytes rest henc => decodeHeader_encodeBytes hwf henc rest⟩
  cases henc : encode i with
  | header bytes => simpa [decode] using decodeHeader_encodeBytes hwf henc []
  | record bytes => simpa [decode] using decodeRecord_encodeBytes hwf henc []
  | control v =>
    cases i with
    | start | reset => cases henc; rfl
    | header | index | diff | reserved | run | rgb565 | endMarker => cases henc

/-- What is read from record bytes is a well-formed record, and the bytes read are its encoding. -/
theorem encode_of_decodeRecord {bytes rest : List Byte} {i : Instr}
    (h : decodeRecord bytes = .ok (i, rest)) :
    i.wellFormed = true ∧ encode i = .record (encodeBytes i) ∧ bytes = encodeBytes i ++ rest := by
  cases bytes with
  | nil => simp [decodeRecord] at h
  | cons b bytes =>
    obtain ⟨rfl, lo, hi, rfl, rfl⟩ | ⟨hne, rfl, rfl⟩ := decodeRecord_cons_cases h
    · exact ⟨rfl, rfl, by simp [encodeBytes, packRgb565]⟩
    · obtain ⟨hwf, henc⟩ := leadingItem_wellFormed b
      exact ⟨hwf, henc, by rw [encodeBytes_leadingItem hne]; rfl⟩

/-- What is read from header bytes has the right magic, and the bytes read are its encoding. -/
theorem encode_of_decodeHeader {bytes rest : List Byte} {i : Instr}
    (h : decodeHeader bytes = .ok (i, rest)) :
    i.wellFormed = true ∧ encode i = .header (encodeBytes i) ∧ bytes = encodeBytes i ++ rest := by
  obtain ⟨wl, wh, hl, hh, rfl, rfl⟩ := decodeHeader_cases h
  exact ⟨rfl, rfl, by simp [encodeBytes]⟩

/-- Settles O2: the record bytes and the header bytes, each by the ways they can be read. -/
theorem encodeOfDecode : Obligations.EncodeOfDecode :=
  ⟨fun _ _ _ h => encode_of_decodeRecord h, fun _ _ _ h => encode_of_decodeHeader h⟩

/-- Settles O3: each range of the leading byte; 0xFE with the two bytes after it. -/
theorem leadingByteMap : Obligations.LeadingByteMap := by
  intro b rest
  refine ⟨fun h => ?index, fun h => ?diff, fun h => ?reserved, fun h => ?run, fun h lo hi => ?literal,
    fun h => ?ends⟩
  case index => exact decodeRecord_of_leadingItem (leadingItem_of_index h) (by simp) rest
  case diff => exact decodeRecord_of_leadingItem (leadingItem_of_diff h.1 h.2) (by simp) rest
  case reserved => exact decodeRecord_of_leadingItem (leadingItem_of_reserved h.1 h.2) (by simp) rest
  case run => exact decodeRecord_of_leadingItem (leadingItem_of_run h.1 h.2) (by simp) rest
  case literal =>
    cases eq_literalTag_iff.2 h
    exact decodeRecord_literalTag lo hi rest
  case ends =>
    cases eq_trailer_iff.2 h
    exact decodeRecord_of_leadingItem leadingItem_trailer (by simp) rest

/-- Settles O4: the bytes taken are the tag and two more, or the leading byte alone. -/
theorem recordLengthByLeadingByte : Obligations.RecordLengthByLeadingByte := by
  intro b bytes rest i h
  obtain ⟨rfl, lo, hi, rfl, -⟩ | ⟨hne, -, rfl⟩ := decodeRecord_cons_cases h
  · exact ⟨[Config.literalTag, lo, hi], rfl, rfl⟩
  · exact ⟨[b], rfl, (if_neg hne).symm⟩

/-- Settles O5: nine words, each read by evaluation. -/
theorem specWordsDecode : Obligations.SpecWordsDecode :=
  ⟨rfl, rfl, rfl, rfl, rfl, rfl, rfl, rfl, rfl⟩

end Sys2Proof
end

section
/-!
PROOFS. The statements about pixels, the hash, the delta_encoder and the choice of the record
(40_pixel_cache.md, 43_diff.md, 46_opcode_encoder.md R227): O6, O8, O9, O10.
-/

namespace Sys2Proof.Machine

/-! ### The hash (40_pixel_cache.md R121) -/

theorem pixelHash_rgb_toNat (r : BitVec 5) (g : BitVec 6) (b : BitVec 5) :
    (pixelHash (rgb r g b)).toNat = (3 * r.toNat + 5 * g.toNat + 7 * b.toNat) % 64 := by
  rw [pixelHash_toNat, red_rgb, green_rgb, blue_rgb]

/-- The green that a slot needs, the other channels given: 13 is the inverse of 5 modulo 64, and 61 and
57 are the negatives of 3 and 7. -/
def greenForSlot (i : BitVec 6) (r b : BitVec 5) : BitVec 6 :=
  BitVec.ofNat 6 (13 * (i.toNat + 61 * r.toNat + 57 * b.toNat))

theorem pixelHash_rgb_eq_iff (i : BitVec 6) (r : BitVec 5) (g : BitVec 6) (b : BitVec 5) :
    pixelHash (rgb r g b) = i ↔ g = greenForSlot i r b := by
  rw [← BitVec.toNat_inj, ← BitVec.toNat_inj, pixelHash_rgb_toNat, greenForSlot, BitVec.toNat_ofNat]
  omega

/-- Settles O8: the hash is linear in green with a factor that is odd, hence invertible modulo 64. -/
theorem hashSpreadsEvenly : Obligations.HashSpreadsEvenly := fun i r b =>
  ⟨greenForSlot i r b, (pixelHash_rgb_eq_iff ..).2 rfl, fun _ h => (pixelHash_rgb_eq_iff ..).1 h⟩

/-! ### One channel of a difference (43_diff.md R170, R171) -/

section
variable {w : Nat}

/-- A channel has at least the three bits in which the biased differences 0 to 3 and the signed ones
-2 to 1 are told apart from the others. -/
theorem eight_le_two_pow (hw : 3 ≤ w) : 8 ≤ 2 ^ w := Nat.pow_le_pow_right (n := 2) (by decide) hw

theorem toNat_two (hw : 3 ≤ w) : (2 : BitVec w).toNat = 2 := by
  have hpow := eight_le_two_pow hw
  exact (BitVec.toNat_ofNat 2 w).trans (Nat.mod_eq_of_lt (by omega))

/-- The bias 2 takes the signed differences -2 to 1 to the numbers 0 to 3, and no other there. -/
theorem biased_lt_four_iff (hw : 3 ≤ w) (d : BitVec w) :
    (d + 2).toNat < 4 ↔ -2 ≤ d.toInt ∧ d.toInt ≤ 1 := by
  have hpow := eight_le_two_pow hw
  have hd := d.isLt
  rw [BitVec.toNat_add, toNat_two hw, BitVec.toInt_eq_toNat_cond]
  by_cases hwrap : d.toNat + 2 < 2 ^ w
  · rw [Nat.mod_eq_of_lt hwrap]
    split <;> omega
  · rw [Nat.mod_eq_sub_mod (by omega), Nat.mod_eq_of_lt (by omega)]
    split <;> omega

/-- A difference in range is its field less the bias. -/
theorem biased_toNat (hw : 3 ≤ w) {d : BitVec w} (h : (d + 2).toNat < 4) :
    ((d + 2).toNat : Int) = d.toInt + 2 := by
  have hpow := eight_le_two_pow hw
  have hd := d.isLt
  rw [BitVec.toNat_add, toNat_two hw] at h ⊢
  rw [BitVec.toInt_eq_toNat_cond]
  by_cases hwrap : d.toNat + 2 < 2 ^ w
  · rw [Nat.mod_eq_of_lt hwrap] at h ⊢
    split <;> omega
  · rw [Nat.mod_eq_sub_mod (by omega), Nat.mod_eq_of_lt (by omega)] at h ⊢
    split <;> omega

/-- A number below 4 keeps its value in a 2-bit field. -/
theorem toNat_setWidth_two {t : BitVec w} (h : t.toNat < 4) : (t.setWidth 2).toNat = t.toNat :=
  (BitVec.toNat_setWidth 2 t).trans (Nat.mod_eq_of_lt h)

theorem setWidth_setWidth_two {t : BitVec w} (h : t.toNat < 4) : (t.setWidth 2).setWidth w = t := by
  apply BitVec.eq_of_toNat_eq
  rw [BitVec.toNat_setWidth, toNat_setWidth_two h, Nat.mod_eq_of_lt t.isLt]

/-- A 2-bit field read in a channel is below 4, and is the field again in two bits. -/
theorem setWidth_two_roundtrip (hw : 3 ≤ w) (f : BitVec 2) :
    (f.setWidth w).toNat < 4 ∧ (f.setWidth w).setWidth 2 = f := by
  have hpow := eight_le_two_pow hw
  have hvalue : (f.setWidth w).toNat = f.toNat :=
    (BitVec.toNat_setWidth w f).trans (Nat.mod_eq_of_lt (by omega))
  refine ⟨by omega, BitVec.eq_of_toNat_eq ?_⟩
  rw [toNat_setWidth_two (by omega), hvalue]

/-- Bias added and bias taken away cancel in the ring of the channel, whichever comes first. -/
theorem channel_add_biased_sub (p c : BitVec w) : p + (c - p + 2) - 2 = c := by
  rw [← BitVec.add_assoc, BitVec.add_sub_cancel, BitVec.add_comm, BitVec.sub_add_cancel]

theorem channel_sub_add_bias (p t : BitVec w) : p + t - 2 - p + 2 = t := by
  have hmoved : p + t - 2 = t - 2 + p := by
    rw [BitVec.sub_eq_add_neg, BitVec.add_assoc, BitVec.add_comm, ← BitVec.sub_eq_add_neg]
  rw [hmoved, BitVec.add_sub_cancel, BitVec.sub_add_cancel]

end

/-! ### The delta_encoder and its inverse (43_diff.md R170 to R179) -/

theorem delta_fits_iff (prev px : Pixel) :
    (delta prev px).fits = true ↔
      (red px - red prev + 2).toNat < 4 ∧ (green px - green prev + 2).toNat < 4 ∧
        (blue px - blue prev + 2).toNat < 4 := by
  simp [delta, and_assoc]

/-- Settles O9: each channel by itself, five bits and six. -/
theorem deltaFitsMeaning : Obligations.DeltaFitsMeaning := by
  intro prev px
  refine ⟨?_, fun hfits => ?_⟩
  · rw [delta_fits_iff, biased_lt_four_iff (by decide), biased_lt_four_iff (by decide),
      biased_lt_four_iff (by decide)]
  · obtain ⟨hr, hg, hb⟩ := (delta_fits_iff prev px).1 hfits
    simp only [delta, toNat_setWidth_two hr, toNat_setWidth_two hg, toNat_setWidth_two hb]
    exact ⟨biased_toNat (by decide) hr, biased_toNat (by decide) hg, biased_toNat (by decide) hb⟩

/-- DIFF decodes what the delta_encoder encoded. -/
theorem applyDelta_delta {prev px : Pixel} (hfits : (delta prev px).fits = true) :
    applyDelta prev (delta prev px).fr (delta prev px).fg (delta prev px).fb = px := by
  obtain ⟨hr, hg, hb⟩ := (delta_fits_iff prev px).1 hfits
  simp only [applyDelta, delta, setWidth_setWidth_two hr, setWidth_setWidth_two hg,
    setWidth_setWidth_two hb, channel_add_biased_sub, rgb_channels]

/-- A decoded DIFF has the fields it was decoded from. -/
theorem delta_applyDelta (prev : Pixel) (fr fg fb : BitVec 2) :
    delta prev (applyDelta prev fr fg fb) = ⟨true, fr, fg, fb⟩ := by
  obtain ⟨hr, hfr⟩ := setWidth_two_roundtrip (w := 5) (by decide) fr
  obtain ⟨hg, hfg⟩ := setWidth_two_roundtrip (w := 6) (by decide) fg
  obtain ⟨hb, hfb⟩ := setWidth_two_roundtrip (w := 5) (by decide) fb
  simp only [delta, applyDelta, red_rgb, green_rgb, blue_rgb, channel_sub_add_bias, hfr, hfg, hfb, hr,
    hg, hb, decide_true, Bool.and_self]

/-- Settles O10. -/
theorem deltaInverse : Obligations.DeltaInverse :=
  ⟨fun _ _ => applyDelta_delta, delta_applyDelta⟩

/-! ### The choice of the record (30_encoding.md R99, 43_diff.md R174) -/

/-- The DIFF whose three fields are the bias itself stands for `prev`. -/
theorem applyDelta_bias (prev : Pixel) : applyDelta prev 2 2 2 = prev := by
  have hfive (c : BitVec 5) : c + (2 : BitVec 2).setWidth 5 - 2 = c := BitVec.add_sub_cancel c 2
  have hsix (c : BitVec 6) : c + (2 : BitVec 2).setWidth 6 - 2 = c := BitVec.add_sub_cancel c 2
  rw [applyDelta, hfive, hsix, hfive, rgb_channels]

/-- The DIFF of a pixel that differs from `prev` is not the one with all differences zero. -/
theorem packDiff_delta_ne {prev px : Pixel} (hne : px ≠ prev) (hfits : (delta prev px).fits = true) :
    packDiff (delta prev px).fr (delta prev px).fg (delta prev px).fb ≠ 0x6A := by
  intro hbyte
  have hvalue := packDiff_toNat (delta prev px).fr (delta prev px).fg (delta prev px).fb
  rw [hbyte] at hvalue
  have hr : (delta prev px).fr = 2 := by bv_omega
  have hg : (delta prev px).fg = 2 := by bv_omega
  have hb : (delta prev px).fb = 2 := by bv_omega
  have hpx := applyDelta_delta hfits
  rw [hr, hg, hb, applyDelta_bias] at hpx
  exact hne hpx.symm

/-- Settles O6: the three records the encoder may choose, each with its leading byte. -/
theorem encoderChoosesLegalRecord : Obligations.EncoderChoosesLegalRecord := by
  intro prev px c hne
  obtain ⟨-, hc⟩ | ⟨-, hfits, hc⟩ | ⟨-, -, hc⟩ := choose_cases prev px c
  · have hvalue := packIndex_toNat (pixelHash px)
    rw [hc]
    exact ⟨rfl, .inl rfl, packIndex (pixelHash px), [], rfl, by omega, by bv_omega, by bv_omega, .inl rfl⟩
  · have hvalue := packDiff_toNat (delta prev px).fr (delta prev px).fg (delta prev px).fb
    rw [hc]
    exact ⟨rfl, .inr (.inl ⟨_, _, _, rfl⟩), packDiff _ _ _, [], rfl, by omega, by bv_omega,
      packDiff_delta_ne hne hfits, .inl rfl⟩
  · rw [hc]
    exact ⟨rfl, .inr (.inr rfl), Config.literalTag, [loByte px, hiByte px], rfl, by decide, by decide,
      by decide, .inr ⟨rfl, rfl⟩⟩

end Sys2Proof.Machine
end

section
/-!
PROOFS. The statements about the encode and the decode as functions (46_opcode_encoder.md R230, R231;
47_opcode_decoder.md R270 to R272; 41_run.md R151): O52, O53, O54, O55.
-/

namespace Sys2Proof.Machine

/-! ### The bytes of one pixel in the encode function (46_opcode_encoder.md R230) -/

/-- The encode function writes the record that the encoder chooses. -/
theorem pixelBytes_eq_choose (prev px : Pixel) (cache : Cache) :
    pixelBytes prev px cache = encodeBytes (choose prev px cache) := by
  unfold pixelBytes
  obtain ⟨hslot, hc⟩ | ⟨hslot, hfits, hc⟩ | ⟨hslot, hfits, hc⟩ := choose_cases prev px cache
  · simp [hc, encodeBytes, hslot]
  · simp [hc, encodeBytes, hslot, hfits]
  · simp [hc, encodeBytes, hslot, hfits]

theorem pixelBytes_length (prev px : Pixel) (cache : Cache) :
    1 ≤ (pixelBytes prev px cache).length ∧ (pixelBytes prev px cache).length ≤ 3 := by
  rw [pixelBytes_eq_choose]
  obtain ⟨-, hc⟩ | ⟨-, -, hc⟩ | ⟨-, -, hc⟩ := choose_cases prev px cache
  all_goals simp [hc, encodeBytes, packRgb565]

/-! ### One item of the decode function (47_opcode_decoder.md R270) -/

/-- The decode function after a record of the one pixel `px`. -/
def decodePixel (strict : Bool) (missing : Nat) (px : Pixel) (cache : Cache) (rest : List Byte) : Decoded :=
  .after [px] (decodeBody strict (missing - 1) px (cache.insertPixel px) rest)

/-- The decode function after a leading byte that stands for `i`, with a pixel missing. -/
def decodeItem (strict : Bool) (missing : Nat) (prev : Pixel) (cache : Cache) (rest : List Byte) :
    Instr → Decoded
  | .index i => decodePixel strict missing (cache.slot i) cache rest
  | .diff fr fg fb => decodePixel strict missing (applyDelta prev fr fg fb) cache rest
  | .run n =>
    if missing < n.toNat + 1 then .stop (.failed .corruptStream) rest
    else .after (List.replicate (n.toNat + 1) prev)
      (decodeBody strict (missing - (n.toNat + 1)) prev cache rest)
  | .rgb565 _ =>
    match rest with
    | lo :: hi :: rest' => decodePixel strict missing (ofBytes lo hi) cache rest'
    | _ => .stop (.failed .unexpectedEnd) []
  | .header _ _ _ _ _ _ => .stop (.failed .corruptStream) rest
  | .reserved _ => .stop (.failed .corruptStream) rest
  | .endMarker => .stop (.failed .corruptStream) rest
  | .start => .stop (.failed .corruptStream) rest
  | .reset => .stop (.failed .corruptStream) rest

section
variable {strict : Bool} {missing : Nat} (prev : Pixel) (cache : Cache)

/-- The loop reads its leading byte by the leading-byte map. -/
theorem decodeBody_cons (hm : missing ≠ 0) (b : Byte) (rest : List Byte) :
    decodeBody strict missing prev cache (b :: rest) =
      decodeItem strict missing prev cache rest (leadingItem b) := by
  unfold decodeBody leadingItem
  rw [if_neg hm]
  by_cases hend : b = Config.trailer
  · simp only [if_pos hend, decodeItem]
  by_cases hlit : b = Config.literalTag
  · simp only [if_neg hend, if_pos hlit]
    rfl
  by_cases h0 : tagOf b = 0b00
  · simp only [if_neg hend, if_neg hlit, if_pos h0, decodeItem, decodePixel]
  by_cases h1 : tagOf b = 0b01
  · simp only [if_neg hend, if_neg hlit, if_neg h0, if_pos h1, decodeItem, decodePixel]
  by_cases h2 : tagOf b = 0b10
  · simp only [if_neg hend, if_neg hlit, if_neg h0, if_neg h1, if_pos h2, decodeItem]
  · simp only [if_neg hend, if_neg hlit, if_neg h0, if_neg h1, if_neg h2, decodeItem]

theorem decodeBody_nil (hm : missing ≠ 0) :
    decodeBody strict missing prev cache [] = .stop (.failed .unexpectedEnd) [] := by
  rw [decodeBody, if_neg hm]

/-- A literal is read from its tag and two bytes. -/
theorem decodeBody_literal (hm : missing ≠ 0) (lo hi : Byte) (rest : List Byte) :
    decodeBody strict missing prev cache (Config.literalTag :: lo :: hi :: rest) =
      decodePixel strict missing (ofBytes lo hi) cache rest :=
  decodeBody_cons prev cache hm Config.literalTag (lo :: hi :: rest)

/-! ### The decode function on what the encode function writes -/

/-- The record chosen for a pixel is read back as that pixel (42_index.md R160, 43_diff.md R179,
44_literal.md R190). -/
theorem decodeBody_pixelBytes (hm : missing ≠ 0) (px : Pixel) (rest : List Byte) :
    decodeBody strict missing prev cache (pixelBytes prev px cache ++ rest) =
      decodePixel strict missing px cache rest := by
  rw [pixelBytes_eq_choose]
  obtain ⟨hslot, hc⟩ | ⟨-, hfits, hc⟩ | ⟨-, -, hc⟩ := choose_cases prev px cache
  · rw [hc, encodeBytes, List.singleton_append, decodeBody_cons prev cache hm, leadingItem_packIndex,
      decodeItem, hslot]
  · rw [hc, encodeBytes, List.singleton_append, decodeBody_cons prev cache hm, leadingItem_packDiff,
      decodeItem, applyDelta_delta hfits]
  · rw [hc, encodeBytes, packRgb565, List.cons_append, List.cons_append, List.singleton_append,
      decodeBody_literal prev cache hm, ofBytes_loByte_hiByte]

/-- A run record of `len` pixels that are missing is read back as `len` copies of `prev`. -/
theorem decodeBody_packRun {len : Nat} (hpos : 0 < len) (hlen : len ≤ 62) (hfit : len ≤ missing)
    (rest : List Byte) :
    decodeBody strict missing prev cache (packRun len :: rest) =
      .after (List.replicate len prev) (decodeBody strict (missing - len) prev cache rest) := by
  have hn : (BitVec.ofNat 6 (len - 1)).toNat = len - 1 :=
    (BitVec.toNat_ofNat ..).trans (Nat.mod_eq_of_lt (by omega))
  have hitem : leadingItem (packRun len) = .run (BitVec.ofNat 6 (len - 1)) := by
    rw [← leadingItem_packRun (by omega), hn, Nat.sub_add_cancel hpos]
  rw [decodeBody_cons prev cache (by omega), hitem]
  simp only [decodeItem, hn, Nat.sub_add_cancel hpos]
  rw [if_neg (by omega)]

/-- A pending run is read back, also where there is none. -/
theorem decodeBody_pendingRun {run : Nat} (hrun : run ≤ 62) (hfit : run ≤ missing) (rest : List Byte) :
    decodeBody strict missing prev cache (pendingRun run ++ rest) =
      .after (List.replicate run prev) (decodeBody strict (missing - run) prev cache rest) := by
  unfold pendingRun
  by_cases hpos : 0 < run
  · rw [if_pos hpos, List.singleton_append, decodeBody_packRun prev cache hpos hrun hfit]
  · obtain rfl : run = 0 := by omega
    rfl

end

/-! ### The equations of the encode function (46_opcode_encoder.md R230) -/

section
variable (prev : Pixel) (run : Nat) (cache : Cache) (rest : List Pixel)

theorem encodeBody_nil : encodeBody prev run cache [] = pendingRun run ++ packEnd := rfl

theorem encodeBody_cons_full (hrun : run = 61) :
    encodeBody prev run cache (prev :: rest) = packRun 62 :: encodeBody prev 0 cache rest := by
  simp [encodeBody, hrun, Config.maxRun]

theorem encodeBody_cons_run (hrun : run ≠ 61) :
    encodeBody prev run cache (prev :: rest) = encodeBody prev (run + 1) cache rest := by
  simp [encodeBody, Config.maxRun, hrun]

theorem encodeBody_cons_other {px : Pixel} (hne : px ≠ prev) :
    encodeBody prev run cache (px :: rest) =
      pendingRun run ++ pixelBytes prev px cache ++ encodeBody px 0 (cache.insertPixel px) rest := by
  simp [encodeBody, hne]

end

/-! ### Round trip (47_opcode_decoder.md R271) -/

/-- The encode function writes records and then END, and the decode function reads those records as the
pending run and the pixels, up to the trailer check of whatever follows them. -/
theorem decodeBody_of_encodeBody (pixels : List Pixel) :
    ∀ (prev : Pixel) (run : Nat) (cache : Cache), run < 62 →
      ∃ records, encodeBody prev run cache pixels = records ++ packEnd ∧
        ∀ strict tail, decodeBody strict (run + pixels.length) prev cache (records ++ tail) =
          .after (List.replicate run prev ++ pixels) (trailerEnd strict tail) := by
  induction pixels with
  | nil =>
    intro prev run cache hrun
    refine ⟨pendingRun run, rfl, fun strict tail => ?_⟩
    rw [decodeBody_pendingRun prev cache (by omega) (by simp)]
    simp
  | cons px rest ih =>
    intro prev run cache hrun
    by_cases hpx : px = prev
    · subst hpx
      by_cases hfull : run = 61
      · obtain ⟨records, henc, hdec⟩ := ih px 0 cache (by omega)
        refine ⟨packRun 62 :: records, by rw [encodeBody_cons_full _ _ _ _ hfull, henc]; rfl,
          fun strict tail => ?_⟩
        have hleft : run + (px :: rest).length - 62 = 0 + rest.length := by simp; omega
        have hcopies : List.replicate 62 px = List.replicate run px ++ [px] := by
          rw [hfull, ← List.replicate_succ']
        rw [List.cons_append, decodeBody_packRun px cache (by decide) (by decide) (by simp; omega),
          hleft, hdec, Decoded.after_after, hcopies]
        simp
      · obtain ⟨records, henc, hdec⟩ := ih px (run + 1) cache (by omega)
        refine ⟨records, by rw [encodeBody_cons_run _ _ _ _ hfull, henc], fun strict tail => ?_⟩
        have hlen : run + (px :: rest).length = run + 1 + rest.length := by simp; omega
        rw [hlen, hdec, List.replicate_succ']
        simp
    · obtain ⟨records, henc, hdec⟩ := ih px 0 (cache.insertPixel px) (by omega)
      refine ⟨pendingRun run ++ pixelBytes prev px cache ++ records,
        by rw [encodeBody_cons_other _ _ _ _ hpx, henc]; simp, fun strict tail => ?_⟩
      have hleft : run + (px :: rest).length - run - 1 = 0 + rest.length := by simp
      rw [List.append_assoc, List.append_assoc, decodeBody_pendingRun prev cache (by omega) (by simp),
        decodeBody_pixelBytes prev cache (by simp), decodePixel, hleft, hdec]
      simp

/-- The decode function behind a valid header is its loop (45_header_end.md R203). -/
theorem decodeSource_packHeader {w h : BitVec 16} (hw : 1 ≤ w.toNat) (hh : 1 ≤ h.toNat) (strict : Bool)
    (bytes : List Byte) :
    decodeSource (packHeader w h ++ bytes) w h strict =
      decodeBody strict (w.toNat * h.toNat) Config.prevInit Cache.init bytes := by
  have hw0 : w ≠ 0#16 := by bv_omega
  have hh0 : h ≠ 0#16 := by bv_omega
  simp [decodeSource, packHeader, Config.magic, hw0, hh0]

/-- The stream of an image is a part that decodes to the image whatever follows, and END. -/
theorem decodeSource_of_encodeImage {w h : BitVec 16} {pixels : List Pixel} (hw : 1 ≤ w.toNat)
    (hh : 1 ≤ h.toNat) (hlen : pixels.length = w.toNat * h.toNat) :
    ∃ stream, encodeImage pixels w h = stream ++ packEnd ∧
      ∀ strict tail, decodeSource (stream ++ tail) w h strict =
        .after pixels (trailerEnd strict tail) := by
  obtain ⟨records, henc, hdec⟩ :=
    decodeBody_of_encodeBody pixels Config.prevInit 0 Cache.init (by decide)
  refine ⟨packHeader w h ++ records, by rw [encodeImage, henc, List.append_assoc],
    fun strict tail => ?_⟩
  rw [List.append_assoc, decodeSource_packHeader hw hh, ← hlen, ← Nat.zero_add pixels.length, hdec]
  simp

/-- The decode of a whole stream takes END if it is strict, and leaves it if it is lenient. -/
theorem decodeSource_encodeImage_append {w h : BitVec 16} {pixels : List Pixel} (hw : 1 ≤ w.toNat)
    (hh : 1 ≤ h.toNat) (hlen : pixels.length = w.toNat * h.toNat) (strict : Bool) (rest : List Byte) :
    decodeSource (encodeImage pixels w h ++ rest) w h strict =
      ⟨.done, pixels, if strict = true then rest else 0xFF :: rest⟩ := by
  obtain ⟨stream, henc, hdec⟩ := decodeSource_of_encodeImage hw hh hlen
  rw [henc, List.append_assoc, hdec]
  cases strict
  · simp [trailerEnd, Decoded.after, Decoded.stop, packEnd, Config.trailer]
  · simp [trailerEnd, Decoded.after, Decoded.stop, packEnd]

/-- Settles O52: the round trip with nothing behind the stream, and with any bytes. -/
theorem roundTripOfImages : Obligations.RoundTripOfImages := by
  intro w h pixels strict hw hh hlen
  refine ⟨?_, decodeSource_encodeImage_append hw hh hlen strict⟩
  have hwhole := decodeSource_encodeImage_append hw hh hlen strict []
  rw [List.append_nil] at hwhole
  rw [decodeImage, hwhole]

/-! ### Truncation (47_opcode_decoder.md R272) -/

/-- Bytes behind those that a trailer check needs are left with the host. -/
theorem trailerEnd_append_left {strict : Bool} {bytes : List Byte} (tail : List Byte)
    (hfin : (trailerEnd strict bytes).fin ≠ .failed .unexpectedEnd) :
    (trailerEnd strict (bytes ++ tail)).left = (trailerEnd strict bytes).left ++ tail := by
  cases strict
  · rfl
  · cases bytes with
    | nil => exact absurd rfl hfin
    | cons b rest => rfl

/-- A decode that does not run out of bytes leaves bytes that follow with the host. -/
theorem decodeBody_append_left (strict : Bool) (missing : Nat) (prev : Pixel) (cache : Cache)
    (bytes tail : List Byte)
    (hfin : (decodeBody strict missing prev cache bytes).fin ≠ .failed .unexpectedEnd) :
    (decodeBody strict missing prev cache (bytes ++ tail)).left =
      (decodeBody strict missing prev cache bytes).left ++ tail := by
  by_cases hm : missing = 0
  · subst hm
    rw [decodeBody_zero] at hfin ⊢
    rw [decodeBody_zero]
    exact trailerEnd_append_left tail hfin
  match bytes with
  | [] => exact absurd (by rw [decodeBody_nil prev cache hm]; rfl) hfin
  | b :: rest =>
    have hpixel (px : Pixel) (rest' : List Byte) (_ : rest'.length ≤ rest.length) :
        (decodePixel strict missing px cache rest').fin ≠ .failed .unexpectedEnd →
        (decodePixel strict missing px cache (rest' ++ tail)).left =
          (decodePixel strict missing px cache rest').left ++ tail :=
      decodeBody_append_left strict (missing - 1) px (cache.insertPixel px) rest' tail
    rw [List.cons_append, decodeBody_cons prev cache hm]
    rw [decodeBody_cons prev cache hm] at hfin ⊢
    cases hi : leadingItem b with
    | index i => exact hpixel _ rest (Nat.le_refl _) (by rwa [hi] at hfin)
    | diff fr fg fb => exact hpixel _ rest (Nat.le_refl _) (by rwa [hi] at hfin)
    | rgb565 px =>
      match rest with
      | [] | [_] => exact absurd (by rw [hi]; rfl) hfin
      | lo :: hi' :: rest' => exact hpixel _ rest' (by simp; omega) (by rwa [hi] at hfin)
    | run n =>
      simp only [hi, decodeItem] at hfin ⊢
      split
      · rfl
      · next hfit =>
        rw [if_neg hfit] at hfin
        exact decodeBody_append_left strict _ prev cache rest tail hfin
    | header | reserved | endMarker | start | reset => rfl
termination_by bytes.length
decreasing_by all_goals (simp only [List.length_cons]; omega)

/-- The same of a decode from its header on. -/
theorem decodeSource_append_left {w h : BitVec 16} {strict : Bool} {bytes : List Byte} (tail : List Byte)
    (hfin : (decodeSource bytes w h strict).fin ≠ .failed .unexpectedEnd) :
    (decodeSource (bytes ++ tail) w h strict).left =
      (decodeSource bytes w h strict).left ++ tail := by
  match bytes with
  | [] | [_] | [_, _] | [_, _, _] | [_, _, _, _] | [_, _, _, _, _] | [_, _, _, _, _, _]
  | [_, _, _, _, _, _, _] => exact absurd rfl hfin
  | m0 :: m1 :: m2 :: m3 :: wl :: wh :: hl :: hh :: rest =>
    simp only [decodeSource, List.cons_append] at hfin ⊢
    by_cases hmagic : [m0, m1, m2, m3] ≠ Config.magic
    · simp only [if_pos hmagic, Decoded.stop_left]
    · rw [if_neg hmagic] at hfin ⊢
      rw [if_neg hmagic]
      split
      · rfl
      · next hdims =>
        rw [if_neg hdims] at hfin
        exact decodeBody_append_left strict _ _ _ rest tail hfin

/-- A cut that takes away more than the decode of the whole stream leaves is noticed. -/
theorem decodeSource_take_unexpectedEnd {w h : BitVec 16} {strict : Bool} {bytes : List Byte} {k : Nat}
    (hk : (decodeSource bytes w h strict).left.length < bytes.length - k) :
    (decodeSource (bytes.take k) w h strict).fin = .failed .unexpectedEnd := by
  refine Classical.byContradiction fun hfin => ?_
  have hleft := decodeSource_append_left (bytes.drop k) hfin
  rw [List.take_append_drop] at hleft
  rw [hleft, List.length_append, List.length_drop] at hk
  omega

/-- Settles O53: a cut before END takes more than END, a cut at END takes what only a strict decode
reads. -/
theorem truncationIsDetected : Obligations.TruncationIsDetected := by
  intro w h pixels strict k hw hh hlen
  have hwhole := decodeSource_encodeImage_append hw hh hlen strict []
  rw [List.append_nil] at hwhole
  refine ⟨fun hk => ?before, fun hk => ?at_end⟩
  case before =>
    refine decodeSource_take_unexpectedEnd ?_
    rw [hwhole]
    cases strict <;> simp <;> omega
  case at_end =>
    obtain ⟨stream, henc, hdec⟩ := decodeSource_of_encodeImage hw hh hlen
    have hcut : (encodeImage pixels w h).take k = stream ++ [] := by
      simp [hk, henc, packEnd]
    rw [decodeImage, hcut, hdec]
    cases strict <;> rfl

/-! ### Size bounds (46_opcode_encoder.md R231) -/

theorem pendingRun_length (run : Nat) : (pendingRun run).length = min run 1 := by
  unfold pendingRun
  split
  · simp only [List.length_singleton]
    omega
  · simp only [List.length_nil]
    omega

/-- A byte stands for at most 62 pixels, and a pixel takes at most three bytes; the run that is pending
takes one byte more. -/
theorem encodeBody_length (pixels : List Pixel) :
    ∀ (prev : Pixel) (run : Nat) (cache : Cache), run < 62 →
      1 + (run + pixels.length + 61) / 62 ≤ (encodeBody prev run cache pixels).length ∧
      (encodeBody prev run cache pixels).length ≤
        1 + 3 * pixels.length + min run 1 := by
  induction pixels with
  | nil =>
    intro prev run cache hrun
    rw [encodeBody_nil, List.length_append, pendingRun_length, packEnd, List.length_singleton,
      List.length_nil]
    omega
  | cons px rest ih =>
    intro prev run cache hrun
    rw [List.length_cons]
    by_cases hpx : px = prev
    · subst hpx
      by_cases hfull : run = 61
      · obtain ⟨hlow, hhigh⟩ := ih px 0 cache (by omega)
        rw [encodeBody_cons_full _ _ _ _ hfull, List.length_cons]
        omega
      · obtain ⟨hlow, hhigh⟩ := ih px (run + 1) cache (by omega)
        rw [encodeBody_cons_run _ _ _ _ hfull]
        omega
    · obtain ⟨hlow, hhigh⟩ := ih px 0 (cache.insertPixel px) (by omega)
      have hpixel := pixelBytes_length prev px cache
      rw [encodeBody_cons_other _ _ _ _ hpx, List.length_append, List.length_append, pendingRun_length]
      omega

/-- Settles O54: eight header bytes, and the bounds of the loop with no run pending. -/
theorem encodedSizeBounds : Obligations.EncodedSizeBounds := by
  intro w h pixels _
  obtain ⟨hlow, hhigh⟩ := encodeBody_length pixels Config.prevInit 0 Cache.init (by decide)
  have hheader : (packHeader w h).length = 8 := rfl
  rw [encodeImage, List.length_append, hheader]
  omega

/-! ### Solid images (41_run.md R151) -/

/-- The records of `m` equal pixels: full runs, and a shorter one for the rest. -/
def runRecords (m : Nat) : List Byte :=
  List.replicate (m / 62) (0xFD : Byte) ++
    (if m % 62 = 0 then [] else [BitVec.ofNat 8 (0xC0 + (m % 62 - 1))])

/-- The byte of a run, written out. -/
theorem packRun_eq_ofNat {len : Nat} (hpos : 0 < len) (hlen : len ≤ 62) :
    packRun len = BitVec.ofNat 8 (0xC0 + (len - 1)) := by
  apply BitVec.eq_of_toNat_eq
  rw [packRun_toNat, BitVec.toNat_ofNat]
  omega

theorem packRun_full : packRun 62 = 0xFD := rfl

theorem runRecords_of_lt {m : Nat} (hm : m < 62) : runRecords m = pendingRun m := by
  unfold runRecords pendingRun
  rw [Nat.div_eq_of_lt hm, Nat.mod_eq_of_lt hm]
  by_cases hpos : 0 < m
  · rw [if_neg (by omega), if_pos hpos, packRun_eq_ofNat hpos (by omega)]
    rfl
  · rw [if_pos (by omega), if_neg hpos]
    rfl

theorem runRecords_add_full (m : Nat) : runRecords (m + 62) = 0xFD :: runRecords m := by
  simp only [runRecords, Nat.add_mod_right, Nat.add_div_right m (show 0 < 62 by decide),
    List.replicate_succ, List.cons_append]

/-- Pixels that equal `prev` become runs and nothing else. -/
theorem encodeBody_replicate (prev : Pixel) (cache : Cache) (n : Nat) :
    ∀ run, run < 62 →
      encodeBody prev run cache (List.replicate n prev) = runRecords (run + n) ++ packEnd := by
  induction n with
  | zero =>
    intro run hrun
    rw [List.replicate_zero, encodeBody_nil, Nat.add_zero, runRecords_of_lt hrun]
  | succ n ih =>
    intro run hrun
    rw [List.replicate_succ]
    by_cases hfull : run = 61
    · have hsum : run + (n + 1) = 0 + n + 62 := by omega
      rw [encodeBody_cons_full _ _ _ _ hfull, ih 0 (by omega), hsum, runRecords_add_full, packRun_full]
      rfl
    · have hsum : run + (n + 1) = run + 1 + n := by omega
      rw [encodeBody_cons_run _ _ _ _ hfull, ih (run + 1) (by omega), hsum]

/-- The first pixel of another colour than 0x0000 is in no slot of the initial cache. -/
theorem pixelBytes_init {c : Pixel} (hc : c ≠ 0) :
    pixelBytes 0 c Cache.init =
      if (delta 0 c).fits = true then [packDiff (delta 0 c).fr (delta 0 c).fg (delta 0 c).fb]
      else packRgb565 c := by
  rw [pixelBytes, Cache.slot_init, if_neg hc.symm]

/-- Settles O55: all runs for 0x0000; for another colour its first pixel by a record, the rest by runs. -/
theorem solidImageStream : Obligations.SolidImageStream := by
  intro w h n c
  refine ⟨?black, fun hc hn => ?colour⟩
  case black =>
    have hruns := encodeBody_replicate 0 Cache.init n 0 (by decide)
    rw [Nat.zero_add] at hruns
    simp only [encodeImage, Config.prevInit]
    rw [hruns, ← List.append_assoc]
    rfl
  case colour =>
    obtain ⟨m, rfl⟩ : ∃ m, n = m + 1 := ⟨n - 1, by omega⟩
    have hruns := encodeBody_replicate c (Cache.init.insertPixel c) m 0 (by decide)
    rw [Nat.zero_add] at hruns
    simp only [encodeImage, Config.prevInit, List.replicate_succ]
    rw [encodeBody_cons_other _ _ _ _ hc, hruns, pixelBytes_init hc]
    simp only [pendingRun, Nat.lt_irrefl, if_false, List.nil_append, Nat.add_sub_cancel,
      List.append_assoc, runRecords]
    rfl

end Sys2Proof.Machine
end

section
/-!
PROOFS. Everything a step can do, said once, with the guard of each case: the relations `ByteMove` (a byte
is taken), `EngineMove` (a step of the engine) and `TurnMove` (one turn of the host or of the engine), and
the lemmas `exec_itemOf_move`, `State.engineStep_move` and `step_move` that tie them to the model.
-/

namespace Sys2Proof.Machine

open Host (Outcome)

/-! ### A byte is taken (47_opcode_decoder.md R262) -/

/-- The byte `b` makes the record at a leading position corrupt: END, the reserved tag, or a RUN that
passes the end of the image (30_encoding.md R104, 41_run.md R148, 45_header_end.md R207). -/
def State.CorruptAt (s : State) (b : Byte) : Prop :=
  leadingItem b = .endMarker ∨ (∃ x, leadingItem b = .reserved x) ∨
    ∃ n, leadingItem b = .run n ∧ s.total.toNat - s.pixCnt.toNat < n.toNat + 1

/-- The header that the byte `b` completes is not the one declared, or declares no pixel
(45_header_end.md R203). -/
def State.JudgesBad (s : State) (b : Byte) : Prop :=
  s.hdrBad = true ∨ s.hdrW = 0 ∨ setHiByte s.hdrH b = 0 ∨ s.hdrW ≠ s.width ∨ setHiByte s.hdrH b ≠ s.height

theorem State.completeHeader_of_bad (s : State) {b : Byte} (h : s.JudgesBad b) :
    s.completeHeader b = { s with hdrH := setHiByte s.hdrH b }.raise .invalidHeader :=
  if_pos h

theorem State.completeHeader_of_good (s : State) {b : Byte} (h : ¬ s.JudgesBad b) :
    s.completeHeader b = { s with
      hdrH := setHiByte s.hdrH b
      total := area s.hdrW (setHiByte s.hdrH b)
      sub := 0
      phase := .body } :=
  if_neg h

theorem State.header_of_not_judgesBad {s : State} {b : Byte} (h : ¬ s.JudgesBad b) :
    s.hdrBad = false ∧ s.hdrW ≠ 0 ∧ setHiByte s.hdrH b ≠ 0 ∧ s.hdrW = s.width ∧
      setHiByte s.hdrH b = s.height := by
  simpa only [State.JudgesBad, not_or, ne_eq, Classical.not_not, Bool.not_eq_true] using h

/-- What the byte `b` does, `s` being the state after it has left the source. -/
inductive ByteMove (s : State) (b : Byte) : State → Prop
  | magic (want : Byte) : s.HeaderGuard → Config.magic[s.sub.toNat]? = some want →
      ByteMove s b (s.magicByte want b)
  | widthLow : s.HeaderGuard → s.sub = 4 → ByteMove s b { s with hdrW := setLoByte s.hdrW b, sub := 5 }
  | widthHigh : s.HeaderGuard → s.sub = 5 → ByteMove s b { s with hdrW := setHiByte s.hdrW b, sub := 6 }
  | heightLow : s.HeaderGuard → s.sub = 6 → ByteMove s b { s with hdrH := setLoByte s.hdrH b, sub := 7 }
  | headerBad : s.HeaderGuard → s.sub = 7 → s.JudgesBad b →
      ByteMove s b ({ s with hdrH := setHiByte s.hdrH b }.raise .invalidHeader)
  | headerGood : s.HeaderGuard → s.sub = 7 → ¬ s.JudgesBad b →
      ByteMove s b { s with
        hdrH := setHiByte s.hdrH b
        total := area s.hdrW (setHiByte s.hdrH b)
        sub := 0
        phase := .body }
  | literalTag : s.RecordGuard → s.sub = 0 → b = Config.literalTag → ByteMove s b { s with sub := 1 }
  | literalLow : s.RecordGuard → s.sub = 1 → ByteMove s b { s with hold := b, sub := 2 }
  | literalHigh : s.RecordGuard → s.sub = 2 →
      ByteMove s b { s.produce (ofBytes s.hold b) with sub := 0 }
  | index (i : BitVec 6) : s.RecordGuard → s.sub = 0 → leadingItem b = .index i →
      ByteMove s b (s.produce (s.cache.slot i))
  | diff (fr fg fb : BitVec 2) : s.RecordGuard → s.sub = 0 → leadingItem b = .diff fr fg fb →
      ByteMove s b (s.produce (applyDelta s.prev fr fg fb))
  | run (n : BitVec 6) : s.RecordGuard → s.sub = 0 → leadingItem b = .run n →
      n.toNat + 1 ≤ s.total.toNat - s.pixCnt.toNat → ByteMove s b { s with run := n + 1 }
  | corrupt : s.RecordGuard → s.sub = 0 → s.CorruptAt b → ByteMove s b (s.raise .corruptStream)
  | endMarker : s.TrailerGuard → b = Config.trailer → ByteMove s b { s with phase := .done }
  | trailing : s.TrailerGuard → b ≠ Config.trailer → ByteMove s b (s.raise .trailingData)

/-- A value of `sub` at which no byte is asked for (93_implementation_defined.md U14, log 8). -/
def State.SubNeverOccurs (s : State) : Prop :=
  (s.phase = .header ∧ 7 < s.sub.toNat) ∨ (s.phase = .body ∧ 2 < s.sub.toNat)

section
variable {s : State}

/-- A header byte, by the place `sub` gives it (45_header_end.md R202, R203). -/
theorem State.HeaderGuard.exec_move (hg : s.HeaderGuard) (b : Byte) :
    (s.SubNeverOccurs ∧ exec (s.itemOf b) s = .refused .subNeverOccurs) ∨
      ∃ t, exec (s.itemOf b) s = .next t ∧ ByteMove s b t := by
  have hitem : s.itemOf b = .header b b b b (ofBytes b b) (ofBytes b b) := by
    rw [State.itemOf, if_pos hg.2.1]
  have hat : s.atHeader = true := s.atHeader_iff.2 hg
  rw [hitem, exec_header, execHeader, if_pos hat, loByte_ofBytes, hiByte_ofBytes]
  by_cases h0 : s.sub = 0
  · exact .inr ⟨_, if_pos h0, .magic 0x71 hg (by simp [h0, Config.magic])⟩
  rw [if_neg h0]
  by_cases h1 : s.sub = 1
  · exact .inr ⟨_, if_pos h1, .magic 0x35 hg (by simp [h1, Config.magic])⟩
  rw [if_neg h1]
  by_cases h2 : s.sub = 2
  · exact .inr ⟨_, if_pos h2, .magic 0x36 hg (by simp [h2, Config.magic])⟩
  rw [if_neg h2]
  by_cases h3 : s.sub = 3
  · exact .inr ⟨_, if_pos h3, .magic 0x35 hg (by simp [h3, Config.magic])⟩
  rw [if_neg h3]
  by_cases h4 : s.sub = 4
  · exact .inr ⟨_, (if_pos h4).trans (by rw [h4]; rfl), .widthLow hg h4⟩
  rw [if_neg h4]
  by_cases h5 : s.sub = 5
  · exact .inr ⟨_, (if_pos h5).trans (by rw [h5]; rfl), .widthHigh hg h5⟩
  rw [if_neg h5]
  by_cases h6 : s.sub = 6
  · exact .inr ⟨_, (if_pos h6).trans (by rw [h6]; rfl), .heightLow hg h6⟩
  rw [if_neg h6]
  by_cases h7 : s.sub = 7
  · by_cases hbad : s.JudgesBad b
    · exact .inr ⟨_, (if_pos h7).trans (by rw [s.completeHeader_of_bad hbad]), .headerBad hg h7 hbad⟩
    · exact .inr ⟨_, (if_pos h7).trans (by rw [s.completeHeader_of_good hbad]), .headerGood hg h7 hbad⟩
  · exact .inl ⟨.inl ⟨hg.2.1, by bv_omega⟩, if_neg h7⟩

/-- A leading byte, by what it stands for (30_encoding.md R98). -/
theorem State.RecordGuard.exec_leading_move (hg : s.RecordGuard) (hsub : s.sub = 0) (b : Byte) :
    ∃ t, exec (leadingItem b) s = .next t ∧ ByteMove s b t := by
  obtain ⟨-, hi⟩ | ⟨-, -, hi⟩ | ⟨-, -, hi⟩ | ⟨-, -, hi⟩ | ⟨hlit, hi⟩ | ⟨-, hi⟩ := leadingItem_cases b
  · exact ⟨_, by rw [hi, exec_index, execIndex, hg.recordOutcome_eq hsub], .index _ hg hsub hi⟩
  · exact ⟨_, by rw [hi, exec_diff, execDiff, hg.recordOutcome_eq hsub], .diff _ _ _ hg hsub hi⟩
  · have hexec (x : BitVec 6) : exec (.reserved x) s = .next (s.raise .corruptStream) :=
      hg.recordOutcome_eq hsub (s.raise .corruptStream)
    exact ⟨_, by rw [hi, hexec], .corrupt hg hsub (.inr (.inl ⟨_, hi⟩))⟩
  · by_cases hfit : s.total.toNat - s.pixCnt.toNat < (payloadOf b).toNat + 1
    · exact ⟨_, by rw [hi, exec_run, execRun, hg.recordOutcome_eq hsub, if_pos hfit],
        .corrupt hg hsub (.inr (.inr ⟨_, hi, hfit⟩))⟩
    · exact ⟨_, by rw [hi, exec_run, execRun, hg.recordOutcome_eq hsub, if_neg hfit],
        .run _ hg hsub hi (Nat.le_of_not_lt hfit)⟩
  · exact ⟨_, by rw [hi, exec_rgb565, hg.execRgb565_tag hsub], .literalTag hg hsub hlit⟩
  · exact ⟨_, by rw [hi, exec_endMarker, hg.execEndMarker_eq hsub], .corrupt hg hsub (.inl hi)⟩

/-- At a leading position a byte is read by itself, inside an RGB565 it stands in each of its bytes. -/
theorem State.RecordGuard.itemOf_eq (hg : s.RecordGuard) (b : Byte) :
    s.itemOf b = if s.sub = 0 then leadingItem b else .rgb565 (ofBytes b b) := by
  have hheader : ¬ s.phase = .header := by simp [hg.2.1]
  rw [State.itemOf, if_neg hheader]
  by_cases h0 : s.sub = 0
  · rw [if_neg (fun h => h.2 h0), if_pos h0]
  · rw [if_pos ⟨hg.2.1, h0⟩, if_neg h0]

/-- A record byte: a leading byte, or the byte of an RGB565 that `sub` names (44_literal.md R191). -/
theorem State.RecordGuard.exec_move (hg : s.RecordGuard) (b : Byte) :
    (s.SubNeverOccurs ∧ exec (s.itemOf b) s = .refused .subNeverOccurs) ∨
      ∃ t, exec (s.itemOf b) s = .next t ∧ ByteMove s b t := by
  rw [hg.itemOf_eq]
  by_cases h0 : s.sub = 0
  · rw [if_pos h0]
    exact .inr (hg.exec_leading_move h0 b)
  rw [if_neg h0, exec_rgb565]
  by_cases h1 : s.sub = 1
  · exact .inr ⟨_, by rw [hg.execRgb565_low h1, loByte_ofBytes], .literalLow hg h1⟩
  by_cases h2 : s.sub = 2
  · exact .inr ⟨_, by rw [hg.execRgb565_high h2, hiByte_ofBytes], .literalHigh hg h2⟩
  · refine .inl ⟨.inr ⟨hg.2.1, by bv_omega⟩, ?_⟩
    rw [execRgb565, if_pos (s.atRecord_iff.2 hg), if_neg h0, if_neg h1, if_neg h2]

/-- At the trailer position a one-byte record does nothing but raise (45_header_end.md R210). -/
theorem State.TrailerGuard.recordOutcome_eq (hg : s.TrailerGuard) (t : State) :
    s.recordOutcome t = .next (s.raise .trailingData) := by
  have hlead : s.atLeading = false := by rw [State.atLeading, hg.not_atRecord, Bool.false_and]
  simp [State.recordOutcome, hlead, s.atTrailer_iff.2 hg]

theorem State.TrailerGuard.execRgb565_eq (hg : s.TrailerGuard) (px : Pixel) :
    execRgb565 px s = .next (s.raise .trailingData) := by
  simp [execRgb565, hg.not_atRecord, s.atTrailer_iff.2 hg]

/-- At the trailer position a byte is read by itself. -/
theorem State.TrailerGuard.itemOf_eq (hg : s.TrailerGuard) (b : Byte) : s.itemOf b = leadingItem b := by
  have hheader : ¬ s.phase = .header := by simp [hg.2.1]
  have hbody : ¬ (s.phase = .body ∧ s.sub ≠ 0) := by simp [hg.2.1]
  rw [State.itemOf, if_neg hheader, if_neg hbody]

/-- A byte at the trailer position that is not END (45_header_end.md R210). -/
theorem State.TrailerGuard.exec_of_ne (hg : s.TrailerGuard) {b : Byte} (hb : b ≠ Config.trailer) :
    exec (leadingItem b) s = .next (s.raise .trailingData) := by
  obtain ⟨-, hi⟩ | ⟨-, -, hi⟩ | ⟨-, -, hi⟩ | ⟨-, -, hi⟩ | ⟨-, hi⟩ | ⟨hend, -⟩ := leadingItem_cases b
  · rw [hi]
    exact hg.recordOutcome_eq _
  · rw [hi]
    exact hg.recordOutcome_eq _
  · rw [hi]
    exact hg.recordOutcome_eq _
  · rw [hi]
    exact hg.recordOutcome_eq _
  · rw [hi, exec_rgb565, hg.execRgb565_eq]
  · exact absurd hend hb

/-- The trailer byte: END, or any other (45_header_end.md R209, R210). -/
theorem State.TrailerGuard.exec_move (hg : s.TrailerGuard) (b : Byte) :
    ∃ t, exec (s.itemOf b) s = .next t ∧ ByteMove s b t := by
  rw [hg.itemOf_eq]
  by_cases hend : b = Config.trailer
  · exact ⟨_, by rw [hend, leadingItem_trailer, exec_endMarker, hg.execEndMarker_eq],
      .endMarker hg hend⟩
  · exact ⟨_, hg.exec_of_ne hend, .trailing hg hend⟩

/-- Everything a byte that is asked for can do. -/
theorem exec_itemOf_move (hready : s.byteInReady = true) (b : Byte) :
    (s.SubNeverOccurs ∧ exec (s.itemOf b) s = .refused .subNeverOccurs) ∨
      ∃ t, exec (s.itemOf b) s = .next t ∧ ByteMove s b t := by
  obtain ⟨hm, hrun, hp | ⟨hp, hlt⟩ | hp⟩ := s.byteInReady_iff.1 hready
  · exact State.HeaderGuard.exec_move ⟨hm, hp, hrun⟩ b
  · exact State.RecordGuard.exec_move ⟨hm, hp, hrun, hlt⟩ b
  · exact .inr (State.TrailerGuard.exec_move ⟨hm, hp, hrun⟩ b)

end

/-! ### A step of the engine (46_opcode_encoder.md R221, 47_opcode_decoder.md R261) -/

/-- Why a turn of the engine with the ready signals `p` leaves the state as it is: no operation runs, an
output is not taken, an input is not offered, or the state is one that no run reaches: more pixels are
counted than the image has, or a run is pending outside BODY (log 10, log 11). -/
def State.Waits (s : State) (p : Ports) : Prop :=
  s.busy = false ∨ (s.byteOutValid = true ∧ p.byteOut = false) ∨
    (s.pixOutValid = true ∧ p.pixOut = false) ∨ (s.pixInReady = true ∧ s.pixSrc = []) ∨
    (s.byteInReady = true ∧ s.byteSrc = [] ∧ s.byteSrcEnds = false) ∨
    s.total.toNat < s.pixCnt.toNat ∨ (s.phase ≠ .body ∧ s.run ≠ 0)

/-- What a turn of the engine with the ready signals `p` does. -/
inductive EngineMove (p : Ports) (s : State) : State → Prop
  | still : s.Waits p → EngineMove p s s
  | emitByte (b : Byte) (rest : List Byte) : s.mode = .encode → s.busy = true → s.obuf = b :: rest →
      p.byteOut = true → EngineMove p s { s with obuf := rest, byteSink := s.byteSink ++ [b] }
  | headerOut : s.mode = .encode → s.phase = .header → s.obuf = [] →
      EngineMove p s { s with phase := .body }
  | runPixel (rest : List Pixel) : s.PixelGuard → s.pixSrc = s.prev :: rest →
      EngineMove p s { s with pixSrc := rest, pixCnt := s.pixCnt + 1 }.runPixel
  | nonRunPixel (px : Pixel) (rest : List Pixel) : s.PixelGuard → s.pixSrc = px :: rest → px ≠ s.prev →
      EngineMove p s ({ s with pixSrc := rest, pixCnt := s.pixCnt + 1 }.nonRunPixel px)
  | finish : s.mode = .encode → s.phase = .body → s.obuf = [] → s.pixCnt = s.total →
      EngineMove p s s.finishEncode
  | streamOut : s.mode = .encode → s.phase = .trailer → s.obuf = [] →
      EngineMove p s { s with phase := .done }
  | emitPixel : s.mode = .decode → s.phase = .body → 0 < s.run.toNat → p.pixOut = true →
      EngineMove p s s.emitPixel
  | endBody : s.mode = .decode → s.phase = .body → s.run = 0 → s.pixCnt = s.total →
      EngineMove p s s.endBody
  | sourceEnds : s.byteInReady = true → s.byteSrc = [] → s.byteSrcEnds = true →
      EngineMove p s (s.raise .unexpectedEnd)
  | takeByte (b : Byte) (rest : List Byte) (t : State) : s.byteInReady = true → s.byteSrc = b :: rest →
      ByteMove { s with byteSrc := rest } b t → EngineMove p s t

section
variable {s : State}

/-- An encode with nothing staged, by its phase. -/
theorem State.encodeStep_move_of_nil (p : Ports) (hm : s.mode = .encode) (hobuf : s.obuf = []) :
    EngineMove p s (s.encodeStep p) := by
  have hvalid : s.byteOutValid = false := by simp [State.byteOutValid, hobuf]
  have hidle (hb : s.busy = false) (hstep : s.encodeStep p = s) : EngineMove p s (s.encodeStep p) := by
    rw [hstep]
    exact .still (.inl hb)
  cases hp : s.phase with
  | idle => exact hidle (s.not_busy_iff.2 (.inl hp)) (by simp [State.encodeStep, hvalid, hp])
  | done => exact hidle (s.not_busy_iff.2 (.inr (.inl hp))) (by simp [State.encodeStep, hvalid, hp])
  | error => exact hidle (s.not_busy_iff.2 (.inr (.inr hp))) (by simp [State.encodeStep, hvalid, hp])
  | header =>
    have hstep : s.encodeStep p = { s with phase := .body } := by simp [State.encodeStep, hvalid, hp]
    exact hstep ▸ .headerOut hm hp hobuf
  | trailer =>
    have hstep : s.encodeStep p = { s with phase := .done } := by simp [State.encodeStep, hvalid, hp]
    exact hstep ▸ .streamOut hm hp hobuf
  | body =>
    obtain hlt | heq | hgt := Nat.lt_trichotomy s.pixCnt.toNat s.total.toNat
    · cases hsrc : s.pixSrc with
      | nil =>
        have hstep : s.encodeStep p = s := by simp [State.encodeStep, hvalid, hp, hlt, hsrc]
        have hready : s.pixInReady = true := by simp [State.pixInReady, State.needIn, hm, hp, hobuf, hlt]
        rw [hstep]
        exact .still (.inr (.inr (.inr (.inl ⟨hready, hsrc⟩))))
      | cons px rest =>
        have hstep : s.encodeStep p = { s with pixSrc := rest }.consumePixel px := by
          simp [State.encodeStep, hvalid, hp, hlt, hsrc]
        rw [hstep]
        obtain ⟨hpx, hc⟩ | ⟨hpx, hc⟩ := { s with pixSrc := rest }.consumePixel_cases px
        · rw [hc]
          exact .runPixel rest ⟨hm, hp, hobuf, hlt⟩ (hpx ▸ hsrc)
        · rw [hc]
          exact .nonRunPixel px rest ⟨hm, hp, hobuf, hlt⟩ hsrc hpx
    · have hcounted : s.pixCnt = s.total := BitVec.eq_of_toNat_eq heq
      have hstep : s.encodeStep p = s.finishEncode := by
        simp [State.encodeStep, hvalid, hp, hcounted]
      exact hstep ▸ .finish hm hp hobuf hcounted
    · have hne : s.pixCnt ≠ s.total := fun h => by simp [h] at hgt
      have hstep : s.encodeStep p = s := by
        simp [State.encodeStep, hvalid, hp, hne, Nat.not_lt_of_gt hgt]
      rw [hstep]
      exact .still (.inr (.inr (.inr (.inr (.inr (.inl hgt))))))

/-- A step of an encode, by what is staged. -/
theorem State.encodeStep_move (p : Ports) (hm : s.mode = .encode) : EngineMove p s (s.encodeStep p) := by
  cases hobuf : s.obuf with
  | nil => exact State.encodeStep_move_of_nil p hm hobuf
  | cons b rest =>
    cases hb : s.busy with
    | false =>
      have hvalid := State.byteOutValid_of_not_busy hb
      have hstep : s.encodeStep p = s := by
        obtain hp | hp | hp := s.not_busy_iff.1 hb <;> simp [State.encodeStep, hvalid, hp]
      rw [hstep]
      exact .still (.inl hb)
    | true =>
      have hvalid : s.byteOutValid = true := s.byteOutValid_iff.2 ⟨hm, hb, by simp [hobuf]⟩
      cases htake : p.byteOut with
      | false =>
        have hstep : s.encodeStep p = s := by simp [State.encodeStep, hvalid, htake]
        rw [hstep]
        exact .still (.inr (.inl ⟨hvalid, htake⟩))
      | true =>
        rw [State.encodeStep_eq_emitByte hvalid htake, State.emitByte_of_cons hobuf]
        exact .emitByte b rest hm hb hobuf htake

/-- A step of a decode that asks for a byte, by what is on offer. -/
theorem State.takeByte_move (p : Ports) (hready : s.byteInReady = true) :
    (s.SubNeverOccurs ∧ s.takeByte = .refused .subNeverOccurs) ∨
      ∃ t, s.takeByte = .next t ∧ EngineMove p s t := by
  cases hsrc : s.byteSrc with
  | nil =>
    cases hends : s.byteSrcEnds with
    | false =>
      exact .inr ⟨s, by simp [State.takeByte, hsrc, hends],
        .still (.inr (.inr (.inr (.inr (.inl ⟨hready, hsrc, hends⟩)))))⟩
    | true => exact .inr ⟨_, State.takeByte_of_ended hsrc hends, .sourceEnds hready hsrc hends⟩
  | cons b rest =>
    have htake : s.takeByte = exec (s.itemOf b) { s with byteSrc := rest } := by
      simp [State.takeByte, hsrc]
    rw [htake]
    obtain ⟨hsub, hexec⟩ | ⟨t, hexec, hmove⟩ :=
      exec_itemOf_move (s := { s with byteSrc := rest }) hready b
    · exact .inl ⟨hsub, hexec⟩
    · exact .inr ⟨t, hexec, .takeByte b rest t hready hsrc hmove⟩

/-- A decode that neither asks for a byte, nor owes a pixel, nor stands at the end of its body, is in no
operation or in a state that no run reaches. -/
theorem State.waits_of_nothing_to_do (p : Ports) (hm : s.mode = .decode) (hready : s.byteInReady = false)
    (hvalid : s.pixOutValid = false) (hend : ¬ (s.phase = .body ∧ s.run = 0 ∧ s.pixCnt = s.total)) :
    s.Waits p := by
  have hrun_body (hp : s.phase = .body) : s.run = 0 := by
    refine Classical.byContradiction fun hne => ?_
    have howed : 0 < s.run.toNat := Nat.pos_of_ne_zero fun h0 => hne (BitVec.eq_of_toNat_eq h0)
    rw [s.pixOutValid_iff.2 ⟨hm, hp, howed⟩] at hvalid
    cases hvalid
  have hasks (hrun : s.run = 0) : ¬ (s.phase = .header ∨ (s.phase = .body ∧
      s.pixCnt.toNat < s.total.toNat) ∨ s.phase = .trailer) := fun h => by
    rw [s.byteInReady_iff.2 ⟨hm, hrun, h⟩] at hready
    cases hready
  cases hb : s.busy with
  | false => exact .inl hb
  | true =>
    refine .inr (.inr (.inr (.inr (.inr ?_))))
    obtain hp | hp | hp := s.busy_iff.1 hb
    · exact .inr ⟨by simp [hp], fun hrun => hasks hrun (.inl hp)⟩
    · have hrun := hrun_body hp
      obtain hlt | heq | hgt := Nat.lt_trichotomy s.pixCnt.toNat s.total.toNat
      · exact absurd (.inr (.inl ⟨hp, hlt⟩)) (hasks hrun)
      · exact absurd ⟨hp, hrun, BitVec.eq_of_toNat_eq heq⟩ hend
      · exact .inl hgt
    · exact .inr ⟨by simp [hp], fun hrun => hasks hrun (.inr (.inr hp))⟩

/-- A step of a decode, by what it owes and what it asks for. -/
theorem State.decodeStep_move (p : Ports) (hm : s.mode = .decode) :
    (s.SubNeverOccurs ∧ s.decodeStep p = .refused .subNeverOccurs) ∨
      ∃ t, s.decodeStep p = .next t ∧ EngineMove p s t := by
  cases hready : s.byteInReady with
  | true =>
    rw [State.decodeStep_of_byteInReady p hready]
    exact State.takeByte_move p hready
  | false =>
    refine .inr ?_
    cases hvalid : s.pixOutValid with
    | true =>
      obtain ⟨-, hp, hrun⟩ := s.pixOutValid_iff.1 hvalid
      cases htake : p.pixOut with
      | false =>
        exact ⟨s, by simp [State.decodeStep, hvalid, htake], .still (.inr (.inr (.inl ⟨hvalid, htake⟩)))⟩
      | true => exact ⟨_, State.decodeStep_eq_emitPixel hvalid htake, .emitPixel hm hp hrun htake⟩
    | false =>
      by_cases hend : s.phase = .body ∧ s.run = 0 ∧ s.pixCnt = s.total
      · obtain ⟨hp, hrun, hcounted⟩ := hend
        exact ⟨_, State.decodeStep_of_counted p hm hp hrun hcounted, .endBody hm hp hrun hcounted⟩
      · exact ⟨s, by rw [State.decodeStep, hvalid, hready, if_neg hend]; rfl,
          .still (State.waits_of_nothing_to_do p hm hready hvalid hend)⟩

/-- Everything a turn of the engine can do. -/
theorem State.engineStep_move (p : Ports) (s : State) :
    (s.SubNeverOccurs ∧ s.engineStep p = .refused .subNeverOccurs) ∨
      ∃ t, s.engineStep p = .next t ∧ EngineMove p s t := by
  cases hm : s.mode with
  | encode => exact .inr ⟨_, State.engineStep_of_encode p hm, State.encodeStep_move p hm⟩
  | decode =>
    rw [State.engineStep_of_decode p hm]
    exact State.decodeStep_move p hm

end

/-! ### A turn (48_host_commands.md R300) -/

/-- What the next turn of the script does, `none` where no turn is left; `s` is the state after the turn
has left the script. -/
inductive TurnMove (s : State) : Option HostTurn → State → Prop
  | engine (p : Ports) (turn : Option HostTurn) (t : State) :
      turn = none ∨ turn = some (.ports p) → EngineMove p s t → TurnMove s turn t
  | reset (v : Word) : v.getLsbD 1 = true → TurnMove s (some (.writeReg .ctrl v)) s.engineReset
  | startMismatch (v : Word) : v.getLsbD 0 = true → s.busy = false → s.mode = .encode →
      s.npix ≠ area s.width s.height →
      TurnMove s (some (.writeReg .ctrl v)) (s.clearOperation.raise .dimensionMismatch)
  | startEncode (v : Word) : v.getLsbD 0 = true → s.busy = false → s.mode = .encode →
      s.npix = area s.width s.height →
      TurnMove s (some (.writeReg .ctrl v)) { s.clearOperation.push (packHeader s.width s.height) with
        total := area s.width s.height
        phase := .header }
  | startDecode (v : Word) : v.getLsbD 0 = true → s.busy = false → s.mode = .decode →
      TurnMove s (some (.writeReg .ctrl v)) { s.clearOperation with phase := .header }
  | ignored (r : Reg) (v : Word) : TurnMove s (some (.writeReg r v)) s
  | configure (r : Reg) (v : Word) : s.busy = false →
      TurnMove s (some (.writeReg r v)) (s.writeConfig r v)
  | read (r : Reg) : TurnMove s (some (.readReg r)) (s.readReg r)
  | offer (ps : List Pixel) (bs : List Byte) (ends : Bool) :
      TurnMove s (some (.offer ps bs ends)) { s with pixSrc := ps, byteSrc := bs, byteSrcEnds := ends }

/-- The state when the next turn, if any, has left the script. -/
abbrev State.turnTaken (s : State) : State := { s with script := s.script.tail }

section
variable {s : State}

/-- A register write always answers a next state. -/
theorem State.writeReg_move (s : State) (r : Reg) (v : Word) :
    ∃ t, s.writeReg r v = .next t ∧ TurnMove s (some (.writeReg r v)) t := by
  obtain ⟨rfl, h1, hw⟩ | ⟨rfl, -, h0, hw⟩ | ⟨rfl, -, -, hw⟩ | ⟨-, hb, hw⟩ | ⟨-, -, hw⟩ :=
    s.writeReg_cases r v
  · exact ⟨_, hw, .reset v h1⟩
  · rw [hw]
    obtain ⟨-, hx⟩ | ⟨hb, hm, hn, hx⟩ | ⟨hb, hm, hn, hx⟩ | ⟨hb, hm, hx⟩ := execStart_cases s
    · exact ⟨_, hx, .ignored .ctrl v⟩
    · exact ⟨_, hx, .startMismatch v h0 hb hm hn⟩
    · exact ⟨_, hx, .startEncode v h0 hb hm hn⟩
    · exact ⟨_, hx, .startDecode v h0 hb hm⟩
  · exact ⟨_, hw, .ignored .ctrl v⟩
  · exact ⟨_, hw, .configure r v hb⟩
  · exact ⟨_, hw, .ignored r v⟩

/-- A turn that is a change of the offers is that change. -/
theorem step_of_offer {ps : List Pixel} {bs : List Byte} {ends : Bool} {turns : List HostTurn}
    (hs : s.script = .offer ps bs ends :: turns) :
    step s = { s with script := turns }.offer ps bs ends := by
  simp [step, State.nextTurn, hs, State.takeTurn]

/-- Where no turn is left the engine goes on by itself. -/
theorem step_of_nil (hs : s.script = []) : step s = s.engineStep Ports.idle := by
  simp [step, State.nextTurn, hs]

theorem step_of_readReg {r : Reg} {turns : List HostTurn} (hs : s.script = .readReg r :: turns) :
    step s = .next ({ s with script := turns }.readReg r) := by
  simp [step, State.nextTurn, hs, State.takeTurn]

/-- Why a step is refused: the host takes back an offer, or a value of `sub` occurs that never occurs. -/
def State.Refuses (s : State) : Prop :=
  s.SubNeverOccurs ∨ ∃ ps bs ends turns, s.script = .offer ps bs ends :: turns ∧ s.busy = true ∧
    ((s.mode = .encode ∧ s.pixSrc ≠ [] ∧ s.pixSrc.head? ≠ ps.head?) ∨
      (s.mode = .decode ∧ s.byteSrc ≠ [] ∧ s.byteSrc.head? ≠ bs.head?) ∨
      (s.mode = .decode ∧ s.byteSrc = [] ∧ s.byteSrcEnds = true ∧ (bs ≠ [] ∨ ends = false)))

/-- Everything a step can do. -/
theorem step_move (s : State) :
    (s.Refuses ∧ ∃ r, step s = .refused r) ∨
      ∃ t, step s = .next t ∧ TurnMove s.turnTaken s.script.head? t := by
  cases hs : s.script with
  | nil =>
    have hself : s.turnTaken = s := by
      rw [State.turnTaken, hs, List.tail_nil, ← hs]
    rw [step_of_nil hs, hself]
    obtain ⟨hsub, hstep⟩ | ⟨t, hstep, hmove⟩ := s.engineStep_move Ports.idle
    · exact .inl ⟨.inl hsub, _, hstep⟩
    · exact .inr ⟨t, hstep, .engine _ _ t (.inl rfl) hmove⟩
  | cons turn turns =>
    have htaken : s.turnTaken = { s with script := turns } := by
      rw [State.turnTaken, hs, List.tail_cons]
    rw [htaken]
    cases turn with
    | ports p =>
      rw [step_of_ports hs]
      obtain ⟨hsub, hstep⟩ | ⟨t, hstep, hmove⟩ := { s with script := turns }.engineStep_move p
      · exact .inl ⟨.inl hsub, _, hstep⟩
      · exact .inr ⟨t, hstep, .engine p _ t (.inr rfl) hmove⟩
    | writeReg r v =>
      rw [step_of_writeReg hs]
      exact .inr ({ s with script := turns }.writeReg_move r v)
    | readReg r => exact .inr ⟨_, step_of_readReg hs, .read r⟩
    | offer ps bs ends =>
      rw [step_of_offer hs]
      obtain hx | ⟨hb, hm, hne, hhead, hx⟩ | ⟨hb, hm, hne, hhead, hx⟩ | ⟨hb, hm, hsrc, hends, hbad, hx⟩ :=
        { s with script := turns }.offer_cases ps bs ends
      · exact .inr ⟨_, hx, .offer ps bs ends⟩
      · exact .inl ⟨.inr ⟨ps, bs, ends, turns, hs, hb, .inl ⟨hm, hne, hhead⟩⟩, _, hx⟩
      · exact .inl ⟨.inr ⟨ps, bs, ends, turns, hs, hb, .inr (.inl ⟨hm, hne, hhead⟩)⟩, _, hx⟩
      · exact .inl ⟨.inr ⟨ps, bs, ends, turns, hs, hb, .inr (.inr ⟨hm, hsrc, hends, hbad⟩)⟩, _, hx⟩

/-- The step that answers a next state is one of the moves. -/
theorem turnMove_of_step {t : State} (h : step s = .next t) : TurnMove s.turnTaken s.script.head? t := by
  obtain ⟨-, r, hr⟩ | ⟨t', ht', hmove⟩ := step_move s
  · simp [hr] at h
  · rw [h] at ht'
    cases ht'
    exact hmove

end

end Sys2Proof.Machine
end

section
/-!
PROOFS. The invariants of the state (10_state.md sections 2 to 8): they hold at reset and every move keeps
them, and from a state that meets them a step is refused only where the host breaks a duty: O43, O44, O45.
-/

namespace Sys2Proof.Machine

/-! ### The cache (40_pixel_cache.md R128) -/

theorem Cache.keyed_init : Cache.init.Keyed := fun i => .inl (Cache.slot_init i)

theorem Cache.Keyed.insertPixel {c : Cache} (h : c.Keyed) (px : Pixel) : (c.insertPixel px).Keyed := by
  intro i
  by_cases hi : i = pixelHash px
  · subst hi
    exact .inr (by rw [Cache.slot_insertPixel_self])
  · rw [Cache.slot_insertPixel_of_ne _ _ _ hi]
    exact h i

/-! ### Counters, as numbers -/

/-- Counting a pixel that is missing does not wrap. -/
theorem toNat_add_one_of_lt {a b : Word} (h : a.toNat < b.toNat) : (a + 1).toNat = a.toNat + 1 := by
  bv_omega

theorem run_toNat_eq_zero {run : BitVec 6} (h : run = 0) : run.toNat = 0 := by
  rw [h]
  rfl

/-- A run that has not reached 62 is extended without wrapping (41_run.md R142). -/
theorem run_toNat_add_one {run : BitVec 6} (h : run.toNat < 62) : (run + 1).toNat = run.toNat + 1 := by
  bv_omega

/-! ### The beginning and the end of an operation -/

section
variable {s : State}

/-- An operation that has just been started, or stopped before its header, meets the invariants whatever
the state before it was (48_host_commands.md R301, R303 to R305). -/
theorem State.Inv.of_cleared (s : State) {q : Phase} {e : ErrCode} {out : List Byte} {total : Word}
    (hq : q = .idle ∨ q = .header ∨ q = .error) (herr : e = .none ↔ q ≠ .error)
    (hout : out.length ≤ q.obufLimit) (hdecode : s.mode = .decode → out = [] ∧ total = 0)
    (hencode : s.mode = .encode → q = .header → total = area s.width s.height ∧ s.npix = total) :
    { s.clearOperation with phase := q, err := e, obuf := out, total := total }.Inv where
  err_iff := herr
  run_le := by simp
  run_lt_of_encode := by simp [Config.maxRun]
  run_eq_zero := by simp
  pixCnt_le := by simp
  owed_le := by simp
  pixCnt_eq := by obtain rfl | rfl | rfl := hq <;> simp
  pixCnt_header := by simp
  fresh_header := by simp
  hdrBad_header := by simp
  obuf_le := hout
  obuf_decode := fun hm => (hdecode hm).1
  cache_keyed := Cache.keyed_init
  prev_cached := Cache.slot_init _
  unused_in_encode := by simp
  sub_header := by simp
  sub_body := by simp
  sub_literal := by simp
  sub_trailer := by simp
  total_encode := by
    intro hm hb
    obtain rfl | rfl | rfl := hq
    · simp [State.busy] at hb
    · exact hencode hm rfl
    · simp [State.busy] at hb
  total_header := fun hm _ => (hdecode hm).2
  total_decode := by obtain rfl | rfl | rfl := hq <;> simp

/-- Settles O43: the reset state is a cleared one in IDLE. -/
theorem invariantsAtReset : Obligations.InvariantsAtReset :=
  State.Inv.of_cleared State.reset (q := .idle) (e := .none) (out := []) (total := 0) (.inl rfl)
    (by decide) (by decide) (fun _ => ⟨rfl, rfl⟩) (fun _ h => by cases h)

theorem State.Inv.engineReset (s : State) : s.engineReset.Inv :=
  State.Inv.of_sameEngine rfl invariantsAtReset

/-- Leaving an operation, to DONE with every pixel counted or to ERROR with its code. -/
theorem State.Inv.leave (h : s.Inv) {q : Phase} {e : ErrCode}
    (hq : (q = .done ∧ e = .none ∧ s.pixCnt = s.total) ∨ (q = .error ∧ e ≠ .none))
    (hrun : s.run = 0) (hobuf : s.obuf = []) : { s with phase := q, err := e }.Inv := by
  have herr : e = .none ↔ q ≠ .error := by
    obtain ⟨rfl, rfl, -⟩ | ⟨rfl, he⟩ := hq
    · simp
    · simp [he]
  have hdone (hp : q = .trailer ∨ q = .done) : s.pixCnt = s.total := by
    obtain ⟨-, -, hcounted⟩ | ⟨rfl, -⟩ := hq
    · exact hcounted
    · simp at hp
  obtain ⟨hheader, hbody, htrailer⟩ : q ≠ .header ∧ q ≠ .body ∧ q ≠ .trailer := by
    obtain ⟨rfl, -⟩ | ⟨rfl, -⟩ := hq <;> simp
  have hbusy : { s with phase := q, err := e }.busy ≠ true := by
    simp [State.busy_iff, hheader, hbody, htrailer]
  exact { h with
    err_iff := herr
    run_eq_zero := fun _ => hrun
    pixCnt_eq := hdone
    pixCnt_header := fun hp => absurd hp hheader
    fresh_header := fun hp => absurd hp hheader
    hdrBad_header := fun hp => absurd hp hheader
    obuf_le := by simp [hobuf]
    unused_in_encode := fun _ hb => absurd hb hbusy
    sub_header := fun hp => absurd hp hheader
    sub_body := fun hp => absurd hp hbody
    sub_literal := fun hp => absurd hp hbody
    sub_trailer := fun hp => absurd hp htrailer
    total_encode := fun _ hb => absurd hb hbusy
    total_header := fun _ hp => absurd hp hheader
    total_decode := fun _ hp => (hp.elim hbody htrailer).elim }

/-- A decode that asks for a byte meets the invariants also after it has raised an error. -/
theorem State.Inv.raise (h : s.Inv) {e : ErrCode} (he : e ≠ .none) (hm : s.mode = .decode)
    (hrun : s.run = 0) : (s.raise e).Inv :=
  h.leave (.inr ⟨rfl, he⟩) hrun (h.obuf_decode hm)

theorem State.Inv.err_none (h : s.Inv) (hp : s.phase ≠ .error) : s.err = .none := h.err_iff.2 hp

/-- An operation that ends well. -/
theorem State.Inv.toDone (h : s.Inv) (hp : s.phase ≠ .error) (hrun : s.run = 0) (hobuf : s.obuf = [])
    (hcounted : s.pixCnt = s.total) : { s with phase := .done }.Inv := by
  have hdone : { s with phase := .done, err := .none }.Inv :=
    h.leave (.inl ⟨rfl, rfl, hcounted⟩) hrun hobuf
  rwa [← h.err_none hp] at hdone

/-! ### Host turns -/

/-- Outside an operation the configuration is free (10_state.md R37). -/
theorem State.Inv.configured (h : s.Inv) (hb : s.busy = false) (m : Mode) (strict : Bool)
    (w ht : BitVec 16) (n : Word) :
    { s with mode := m, strict := strict, width := w, height := ht, npix := n }.Inv := by
  have hphase := s.not_busy_iff.1 hb
  have hrun : s.run = 0 := h.run_eq_zero (by obtain hp | hp | hp := hphase <;> simp [hp])
  have hobuf : s.obuf = [] := by
    have hlen := h.obuf_le
    obtain hp | hp | hp := hphase <;> simpa [hp, Phase.obufLimit] using hlen
  have hbusy (hb' : s.busy = true) : False := by simp [hb] at hb'
  exact { h with
    run_lt_of_encode := fun _ => by simp [hrun, Config.maxRun]
    owed_le := fun _ => by simp [hrun]
    obuf_decode := fun _ => hobuf
    unused_in_encode := fun _ hb' => (hbusy hb').elim
    total_encode := fun _ hb' => (hbusy hb').elim
    total_header := fun _ hp => (hbusy (s.busy_iff.2 (.inl hp))).elim
    total_decode := fun _ hp => (hbusy (s.busy_iff.2 (.inr hp))).elim }

theorem State.Inv.writeConfig (h : s.Inv) (hb : s.busy = false) (r : Reg) (v : Word) :
    (s.writeConfig r v).Inv := by
  cases r with
  | cfg => exact h.configured hb (if v.getLsbD 0 then .decode else .encode) (v.getLsbD 1) s.width s.height s.npix
  | dim => exact h.configured hb s.mode s.strict (v.extractLsb' 0 16) (v.extractLsb' 16 16) s.npix
  | npix => exact h.configured hb s.mode s.strict s.width s.height v
  | ctrl | status | pixcnt | hdrdim => exact h

/-! ### Steps of an encode -/

theorem State.Inv.emitByte (h : s.Inv) (hm : s.mode = .encode) {b : Byte} {rest : List Byte}
    (hobuf : s.obuf = b :: rest) : { s with obuf := rest, byteSink := s.byteSink ++ [b] }.Inv :=
  { h with
    obuf_le := by
      have hlen := h.obuf_le
      rw [hobuf, List.length_cons] at hlen
      exact Nat.le_of_succ_le hlen
    obuf_decode := fun hd => by simp [hm] at hd }

theorem State.Inv.headerOut (h : s.Inv) (hm : s.mode = .encode) (hp : s.phase = .header)
    (hobuf : s.obuf = []) : { s with phase := .body }.Inv := by
  have hb : s.busy = true := s.busy_iff.2 (.inl hp)
  have hrun : s.run = 0 := h.run_eq_zero (by simp [hp])
  obtain ⟨hsub, hunused⟩ := h.unused_in_encode hm hb
  exact { h with
    err_iff := by simp [h.err_none (by simp [hp])]
    run_eq_zero := fun _ => hrun
    pixCnt_eq := by simp
    pixCnt_header := by simp
    fresh_header := by simp
    hdrBad_header := by simp
    obuf_le := by simp [hobuf]
    unused_in_encode := fun _ _ => ⟨hsub, hunused⟩
    sub_header := by simp
    sub_body := fun _ => by simp [hsub]
    sub_literal := fun _ hne => absurd hsub hne
    sub_trailer := fun _ => hsub
    total_encode := fun _ _ => h.total_encode hm hb
    total_header := by simp
    total_decode := fun hd => by simp [hm] at hd }

/-- A pixel is taken and counted: what the run, the staged bytes, the cache and `prev` become has only to
keep their own clauses. -/
theorem State.Inv.countPixel (h : s.Inv) (hg : s.PixelGuard) {rest : List Pixel} {run : BitVec 6}
    {out : List Byte} {cache : Cache} {prev : Pixel} (hrun : run.toNat < 62) (hout : out.length ≤ 4)
    (hkeyed : cache.Keyed) (hprev : cache.slot (pixelHash prev) = prev) :
    { s with pixSrc := rest, pixCnt := s.pixCnt + 1, run := run, obuf := out, cache := cache,
             prev := prev }.Inv := by
  obtain ⟨hm, hp, -, hlt⟩ := hg
  have hcount := toNat_add_one_of_lt hlt
  have hsub := (h.unused_in_encode hm (s.busy_iff.2 (.inr (.inl hp)))).1
  exact { h with
    run_le := Nat.le_of_lt hrun
    run_lt_of_encode := fun _ => hrun
    run_eq_zero := fun hne => absurd hp hne
    pixCnt_le := show (s.pixCnt + 1).toNat ≤ s.total.toNat by omega
    owed_le := fun hd => by simp [hm] at hd
    pixCnt_eq := by simp [hp]
    pixCnt_header := by simp [hp]
    fresh_header := by simp [hp]
    obuf_le := by simpa [hp, Phase.obufLimit] using hout
    obuf_decode := fun hd => by simp [hm] at hd
    cache_keyed := hkeyed
    prev_cached := hprev
    sub_literal := fun _ hne => absurd hsub hne }

theorem State.Inv.runPixel (h : s.Inv) (hg : s.PixelGuard) (rest : List Pixel) :
    { s with pixSrc := rest, pixCnt := s.pixCnt + 1 }.runPixel.Inv := by
  have hlt : s.run.toNat < 62 := h.run_lt_of_encode hg.1
  have hobuf := hg.2.2.1
  unfold State.runPixel State.push
  obtain ⟨-, -, hr⟩ | ⟨-, hne, hr⟩ | ⟨hf, -⟩ | ⟨hf, -⟩ := rleStep_cases s.run true
  · simp only [hr, hobuf]
    exact h.countPixel hg (by decide) (by decide) h.cache_keyed h.prev_cached
  · simp only [hr, hobuf]
    have hnext := run_toNat_add_one hlt
    exact h.countPixel hg (by omega) (by decide) h.cache_keyed h.prev_cached
  · cases hf
  · cases hf

/-- One pixel that is no run pixel stages at most four bytes: a pending run and a literal
(46_opcode_encoder.md R247). -/
theorem runBytes_rleStep_false (run : BitVec 6) :
    runBytes (rleStep run false).2 = pendingRun run.toNat ∧ (rleStep run false).1 = 0 := by
  obtain ⟨hf, -⟩ | ⟨hf, -⟩ | ⟨-, hpos, hr⟩ | ⟨-, hzero, hr⟩ := rleStep_cases run false
  · cases hf
  · cases hf
  · simp [hr, runBytes, pendingRun, hpos]
  · simp [hr, runBytes, pendingRun, hzero]

theorem State.Inv.nonRunPixel (h : s.Inv) (hg : s.PixelGuard) (px : Pixel) (rest : List Pixel) :
    ({ s with pixSrc := rest, pixCnt := s.pixCnt + 1 }.nonRunPixel px).Inv := by
  have hobuf := hg.2.2.1
  obtain ⟨hbytes, hrun⟩ := runBytes_rleStep_false s.run
  have hlen : (pendingRun s.run.toNat ++ encodeBytes (choose s.prev px s.cache)).length ≤ 4 := by
    have hpixel := pixelBytes_length s.prev px s.cache
    rw [List.length_append, pendingRun_length, ← pixelBytes_eq_choose]
    omega
  unfold State.nonRunPixel State.remember State.push
  simp only [hbytes, hrun, hobuf, List.nil_append]
  exact h.countPixel hg (by decide) hlen (h.cache_keyed.insertPixel px)
    (Cache.slot_insertPixel_self s.cache px)

theorem runBytes_rleFlush (run : BitVec 6) :
    runBytes (rleFlush run).2 = pendingRun run.toNat ∧ (rleFlush run).1 = 0 := by
  obtain ⟨hpos, hr⟩ | ⟨hzero, hr⟩ := rleFlush_cases run
  · simp [hr, runBytes, pendingRun, hpos]
  · simp [hr, runBytes, pendingRun, hzero]

/-- The end of the image written out: the run is flushed and END is staged (46_opcode_encoder.md R228). -/
theorem State.finishEncode_eq (hobuf : s.obuf = []) :
    s.finishEncode =
      { s with obuf := pendingRun s.run.toNat ++ packEnd, run := 0, phase := .trailer } := by
  obtain ⟨hbytes, hrun⟩ := runBytes_rleFlush s.run
  simp only [State.finishEncode, State.push, hbytes, hrun, hobuf, List.nil_append]

theorem State.Inv.finishEncode (h : s.Inv) (hm : s.mode = .encode) (hp : s.phase = .body)
    (hobuf : s.obuf = []) (hcounted : s.pixCnt = s.total) : s.finishEncode.Inv := by
  have hb : s.busy = true := s.busy_iff.2 (.inr (.inl hp))
  obtain ⟨hsub, hunused⟩ := h.unused_in_encode hm hb
  rw [State.finishEncode_eq hobuf]
  exact { h with
    err_iff := by simp [h.err_none (by simp [hp])]
    run_le := by simp
    run_lt_of_encode := by simp [Config.maxRun]
    run_eq_zero := fun _ => rfl
    owed_le := by simp
    pixCnt_eq := fun _ => hcounted
    pixCnt_header := by simp
    fresh_header := by simp
    hdrBad_header := by simp
    obuf_le := by
      have hlen := pendingRun_length s.run.toNat
      simp only [List.length_append, packEnd, List.length_singleton, Phase.obufLimit]
      omega
    obuf_decode := fun hd => by simp [hm] at hd
    unused_in_encode := fun _ _ => ⟨hsub, hunused⟩
    sub_header := by simp
    sub_body := by simp
    sub_literal := by simp
    sub_trailer := fun _ => hsub
    total_encode := fun _ _ => h.total_encode hm hb
    total_header := by simp
    total_decode := fun hd => by simp [hm] at hd }

/-! ### Steps of a decode -/

theorem State.Inv.emitPixel (h : s.Inv) (hm : s.mode = .decode) (hp : s.phase = .body)
    (hrun : 0 < s.run.toNat) : s.emitPixel.Inv := by
  have howed := h.owed_le hm
  have hlt : s.pixCnt.toNat < s.total.toNat := by omega
  have hcount := toNat_add_one_of_lt hlt
  have hdown : (s.run - 1).toNat = s.run.toNat - 1 := by bv_omega
  have hle := h.run_le
  exact { h with
    run_le := show (s.run - 1).toNat ≤ Config.maxRun by omega
    run_lt_of_encode := fun he => by simp [hm] at he
    run_eq_zero := fun hne => absurd hp hne
    pixCnt_le := show (s.pixCnt + 1).toNat ≤ s.total.toNat by omega
    owed_le := fun _ => show (s.run - 1).toNat ≤ s.total.toNat - (s.pixCnt + 1).toNat by omega
    pixCnt_eq := by simp [hp]
    pixCnt_header := by simp [hp]
    sub_literal := fun _ hne => by simp [(h.sub_literal hp hne).1] at hrun }

theorem State.Inv.toTrailer (h : s.Inv) (hm : s.mode = .decode) (hp : s.phase = .body)
    (hrun : s.run = 0) (hcounted : s.pixCnt = s.total) : { s with phase := .trailer }.Inv := by
  have hsub : s.sub = 0 := by
    refine Classical.byContradiction fun hne => ?_
    obtain ⟨-, hlt⟩ := h.sub_literal hp hne
    simp [hcounted] at hlt
  exact { h with
    err_iff := by simp [h.err_none (by simp [hp])]
    run_eq_zero := fun _ => hrun
    pixCnt_eq := fun _ => hcounted
    pixCnt_header := by simp
    fresh_header := by simp
    hdrBad_header := by simp
    obuf_le := by simp [h.obuf_decode hm]
    unused_in_encode := fun he => by simp [hm] at he
    sub_header := by simp
    sub_body := by simp
    sub_literal := by simp
    sub_trailer := fun _ => hsub
    total_encode := fun he => by simp [hm] at he
    total_header := by simp
    total_decode := fun _ _ => h.total_decode hm (.inl hp) }

theorem State.Inv.endBody (h : s.Inv) (hm : s.mode = .decode) (hp : s.phase = .body)
    (hrun : s.run = 0) (hcounted : s.pixCnt = s.total) : s.endBody.Inv := by
  rw [State.endBody_eq]
  split
  · exact h.toTrailer hm hp hrun hcounted
  · exact h.toDone (by simp [hp]) hrun (h.obuf_decode hm) hcounted

/-- A header byte other than the last changes only the assembly registers. -/
theorem State.Inv.headerByte (h : s.Inv) (hg : s.HeaderGuard) {bad : Bool} {w ht : BitVec 16}
    {sub : BitVec 4} (hsub : sub.toNat ≤ 7) (hbad : bad = true → sub ≠ 0) :
    { s with hdrBad := bad, hdrW := w, hdrH := ht, sub := sub }.Inv := by
  obtain ⟨hm, hp, -⟩ := hg
  exact { h with
    hdrBad_header := fun _ => hbad
    unused_in_encode := fun he => by simp [hm] at he
    sub_header := fun _ => hsub
    sub_body := by simp [hp]
    sub_literal := by simp [hp]
    sub_trailer := by simp [hp]
    total_decode := by simp [hp] }

theorem State.Inv.headerBad (h : s.Inv) (hg : s.HeaderGuard) (ht : BitVec 16) :
    ({ s with hdrH := ht }.raise .invalidHeader).Inv :=
  State.Inv.raise (s := { s with hdrH := ht })
    (h.headerByte hg (h.sub_header hg.2.1) (h.hdrBad_header hg.2.1)) (by simp) hg.1 hg.2.2

theorem State.Inv.headerGood (h : s.Inv) (hg : s.HeaderGuard) {b : Byte} (hgood : ¬ s.JudgesBad b) :
    { s with
      hdrH := setHiByte s.hdrH b
      total := area s.hdrW (setHiByte s.hdrH b)
      sub := 0
      phase := .body }.Inv := by
  obtain ⟨hm, hp, hrun⟩ := hg
  obtain ⟨hbad, hw, hh, hwidth, hheight⟩ := State.header_of_not_judgesBad hgood
  have hcount : s.pixCnt = 0 := h.pixCnt_header hp
  have hpos : 0 < (area s.hdrW (setHiByte s.hdrH b)).toNat := by
    rw [area_toNat]
    exact Nat.mul_pos (Nat.pos_of_ne_zero fun h0 => hw (BitVec.eq_of_toNat_eq h0))
      (Nat.pos_of_ne_zero fun h0 => hh (BitVec.eq_of_toNat_eq h0))
  exact { h with
    err_iff := by simp [h.err_none (by simp [hp])]
    run_eq_zero := fun _ => hrun
    pixCnt_le := by simp [hcount]
    owed_le := fun _ => by simp [hrun]
    pixCnt_eq := by simp
    pixCnt_header := by simp
    fresh_header := by simp
    hdrBad_header := by simp
    obuf_le := by simp [h.obuf_decode hm]
    unused_in_encode := fun he => by simp [hm] at he
    sub_header := by simp
    sub_body := by simp
    sub_literal := by simp
    sub_trailer := by simp
    total_encode := fun he => by simp [hm] at he
    total_header := by simp
    total_decode := fun _ _ => ⟨by rw [hwidth, hheight], hwidth, hheight, hbad, hpos⟩ }

/-- A record of one pixel leaves the decoder at a leading position with the pixel owed. -/
theorem State.Inv.produce (h : s.Inv) (hg : s.RecordGuard) (px : Pixel) :
    { s.produce px with sub := 0 }.Inv := by
  obtain ⟨hm, hp, -, hlt⟩ := hg
  exact { h with
    run_le := by simp [Config.maxRun]
    run_lt_of_encode := fun he => by simp [hm] at he
    run_eq_zero := fun hne => absurd hp hne
    owed_le := fun _ => show (1 : BitVec 6).toNat ≤ s.total.toNat - s.pixCnt.toNat by simp; omega
    fresh_header := by simp [hp]
    hdrBad_header := by simp [hp]
    cache_keyed := h.cache_keyed.insertPixel px
    prev_cached := Cache.slot_insertPixel_self s.cache px
    unused_in_encode := fun he => by simp [hm] at he
    sub_header := by simp
    sub_body := by simp
    sub_literal := by simp
    sub_trailer := by simp }

theorem State.Inv.produce_leading (h : s.Inv) (hg : s.RecordGuard) (hsub : s.sub = 0) (px : Pixel) :
    (s.produce px).Inv := by
  have hsame : s.produce px = { s.produce px with sub := 0 } := by rw [← hsub]; rfl
  exact hsame ▸ h.produce hg px

/-- Inside an RGB565 record only `sub` and `hold` move. -/
theorem State.Inv.literalByte (h : s.Inv) (hg : s.RecordGuard) {sub : BitVec 4} (hsub : sub.toNat ≤ 2)
    (hold : Byte) : { s with hold := hold, sub := sub }.Inv := by
  obtain ⟨hm, hp, hrun, hlt⟩ := hg
  exact { h with
    hdrBad_header := by simp [hp]
    unused_in_encode := fun he => by simp [hm] at he
    sub_header := by simp [hp]
    sub_body := fun _ => hsub
    sub_literal := fun _ _ => ⟨hrun, hlt⟩
    sub_trailer := by simp [hp] }

/-- A RUN field read by the leading-byte map is at most 61 (30_encoding.md R95). -/
theorem run_field_le {b : Byte} {n : BitVec 6} (hi : leadingItem b = .run n) : n.toNat + 1 ≤ 62 := by
  have hwf := (leadingItem_wellFormed b).1
  rw [hi] at hwf
  exact of_decide_eq_true hwf

theorem State.Inv.run (h : s.Inv) (hg : s.RecordGuard) (hsub : s.sub = 0) {n : BitVec 6}
    (hn : n.toNat + 1 ≤ 62) (hfit : n.toNat + 1 ≤ s.total.toNat - s.pixCnt.toNat) :
    { s with run := n + 1 }.Inv := by
  obtain ⟨hm, hp, -, -⟩ := hg
  have hnext := run_toNat_add_one (run := n) (by omega)
  exact { h with
    run_le := show (n + 1).toNat ≤ 62 by omega
    run_lt_of_encode := fun he => by simp [hm] at he
    run_eq_zero := fun hne => absurd hp hne
    owed_le := fun _ => show (n + 1).toNat ≤ s.total.toNat - s.pixCnt.toNat by omega
    sub_literal := fun _ hne => absurd hsub hne }

/-! ### Every move keeps the invariants -/

/-- Of the header's magic bytes there are four. -/
theorem sub_lt_four {k : Nat} {want : Byte} (h : Config.magic[k]? = some want) : k < 4 :=
  (List.getElem?_eq_some_iff.1 h).1

theorem ByteMove.keeps_inv {b : Byte} {t : State} (hmove : ByteMove s b t) (h : s.Inv) : t.Inv := by
  cases hmove with
  | magic want hg hwant =>
    have hlt := sub_lt_four hwant
    have hnext : (s.sub + 1).toNat = s.sub.toNat + 1 := by bv_omega
    exact h.headerByte hg (by omega) (fun _ h0 => by rw [h0] at hnext; simp at hnext)
  | widthLow hg _ | widthHigh hg _ | heightLow hg _ =>
    exact h.headerByte hg (by decide) (fun _ => by decide)
  | headerBad hg _ _ => exact h.headerBad hg _
  | headerGood hg _ hgood => exact h.headerGood hg hgood
  | literalTag hg _ _ => exact h.literalByte hg (by decide) s.hold
  | literalLow hg _ => exact h.literalByte hg (by decide) b
  | literalHigh hg _ => exact h.produce hg _
  | index i hg hsub _ => exact h.produce_leading hg hsub _
  | diff fr fg fb hg hsub _ => exact h.produce_leading hg hsub _
  | run n hg hsub hi hfit => exact h.run hg hsub (run_field_le hi) hfit
  | corrupt hg _ _ => exact h.raise (by simp) hg.1 hg.2.2.1
  | endMarker hg _ =>
    exact h.toDone (by simp [hg.2.1]) hg.2.2 (h.obuf_decode hg.1) (h.pixCnt_eq (.inl hg.2.1))
  | trailing hg _ => exact h.raise (by simp) hg.1 hg.2.2

theorem EngineMove.keeps_inv {p : Ports} {t : State} (hmove : EngineMove p s t) (h : s.Inv) : t.Inv := by
  cases hmove with
  | still _ => exact h
  | emitByte b rest hm _ hobuf _ => exact h.emitByte hm hobuf
  | headerOut hm hp hobuf => exact h.headerOut hm hp hobuf
  | runPixel rest hg _ => exact h.runPixel hg rest
  | nonRunPixel px rest hg _ _ => exact h.nonRunPixel hg px rest
  | finish hm hp hobuf hcounted => exact h.finishEncode hm hp hobuf hcounted
  | streamOut hm hp hobuf =>
    exact h.toDone (by simp [hp]) (h.run_eq_zero (by simp [hp])) hobuf (h.pixCnt_eq (.inl hp))
  | emitPixel hm hp hrun _ => exact h.emitPixel hm hp hrun
  | endBody hm hp hrun hcounted => exact h.endBody hm hp hrun hcounted
  | sourceEnds hready _ _ =>
    obtain ⟨hm, hrun, -⟩ := s.byteInReady_iff.1 hready
    exact h.raise (by simp) hm hrun
  | takeByte b rest t _ _ hbyte => exact hbyte.keeps_inv (h.of_sameEngine rfl)

theorem TurnMove.keeps_inv {turn : Option HostTurn} {t : State} (hmove : TurnMove s turn t) (h : s.Inv) :
    t.Inv := by
  cases hmove with
  | engine p turn t _ hengine => exact hengine.keeps_inv h
  | reset v _ => exact State.Inv.engineReset s
  | startMismatch v _ _ hm _ =>
    exact State.Inv.of_cleared s (q := .error) (.inr (.inr rfl)) (by simp) (by simp)
      (fun hd => by simp [hm] at hd) (fun _ hq => by cases hq)
  | startEncode v _ _ hm hn =>
    exact State.Inv.of_cleared s (q := .header) (e := .none) (.inr (.inl rfl)) (by simp) (Nat.le_refl 8)
      (fun hd => by simp [hm] at hd) (fun _ _ => ⟨rfl, hn⟩)
  | startDecode v _ _ hm =>
    exact State.Inv.of_cleared s (q := .header) (e := .none) (.inr (.inl rfl)) (by simp) (by simp)
      (fun _ => ⟨rfl, rfl⟩) (fun he => by simp [hm] at he)
  | ignored r v => exact h
  | configure r v hb => exact h.writeConfig hb r v
  | read r => exact h.of_sameEngine rfl
  | offer ps bs ends => exact h.of_sameEngine rfl

/-- Settles O44: a step is one of the moves, and each keeps the invariants. -/
theorem stepKeepsInvariants : Obligations.StepKeepsInvariants :=
  fun _ _ h hstep => (turnMove_of_step hstep).keeps_inv (h.of_sameEngine rfl)

/-! ### What is refused (70_reset_and_hazards.md R371) -/

theorem State.Inv.not_subNeverOccurs (h : s.Inv) : ¬ s.SubNeverOccurs := by
  rintro (⟨hp, hsub⟩ | ⟨hp, hsub⟩)
  · exact Nat.not_lt_of_le (h.sub_header hp) hsub
  · exact Nat.not_lt_of_le (h.sub_body hp) hsub

/-- Two lists with different first elements, the first list having one. -/
theorem ne_nil_and_head?_ne_iff {α : Type} {xs : List α} {first : Option α} :
    xs ≠ [] ∧ xs.head? ≠ first ↔ ∃ x rest, xs = x :: rest ∧ first ≠ some x := by
  cases xs with
  | nil => simp
  | cons x rest => simp [eq_comm]

/-- An offer that is taken back is refused. -/
theorem State.offer_refused {ps : List Pixel} {bs : List Byte} {ends : Bool} (hb : s.busy = true)
    (hbad : (s.mode = .encode ∧ s.pixSrc ≠ [] ∧ s.pixSrc.head? ≠ ps.head?) ∨
      (s.mode = .decode ∧ s.byteSrc ≠ [] ∧ s.byteSrc.head? ≠ bs.head?) ∨
      (s.mode = .decode ∧ s.byteSrc = [] ∧ s.byteSrcEnds = true ∧ (bs ≠ [] ∨ ends = false))) :
    ∃ r, s.offer ps bs ends = .refused r := by
  obtain ⟨hm, hne, hhead⟩ | ⟨hm, hne, hhead⟩ | ⟨hm, hsrc, hends, hnew⟩ := hbad
  · exact ⟨.offerTakenBack, by simp [State.offer, hb, hm, holdsOffer, hne, hhead]⟩
  · exact ⟨.offerTakenBack, by simp [State.offer, hb, hm, holdsOffer, hne, hhead]⟩
  · have hlow : (bs.isEmpty && ends) = false := by
      obtain hbs | hends := hnew
      · simp [hbs]
      · simp [hends]
    exact ⟨.endTakenBack, by simp [State.offer, hb, hm, holdsOffer, State.byteInEnd, hsrc, hends, hlow]⟩

end

/-- Settles O45: of the two reasons to refuse a step the invariants rule out one, and the other is the
broken duty; a step that is not refused answers a next state, since no instruction faults. -/
theorem stepStopsOnlyOnBrokenDuty : Obligations.StepStopsOnlyOnBrokenDuty := by
  intro s h
  refine ⟨⟨?_, ?_⟩, ?_⟩
  · rintro ⟨r, hr⟩
    obtain ⟨hsub | ⟨ps, bs, ends, turns, hs, hb, hbad⟩, -⟩ | ⟨t, ht, -⟩ := step_move s
    · exact absurd hsub h.not_subNeverOccurs
    · simp only [ne_nil_and_head?_ne_iff] at hbad
      exact ⟨hb, ps, bs, ends, turns, hs, hbad⟩
    · simp [hr] at ht
  · rintro ⟨hb, ps, bs, ends, turns, hs, hbad⟩
    simp only [← ne_nil_and_head?_ne_iff] at hbad
    rw [step_of_offer hs]
    exact State.offer_refused (s := { s with script := turns }) hb hbad
  · intro hnot
    obtain ⟨-, r, hr⟩ | ⟨t, ht, -⟩ := step_move s
    · exact absurd hr (hnot r)
    · exact ⟨t, ht⟩

end Sys2Proof.Machine
end

section
/-!
PROOFS. Rules of the whole machine, each derived from what a move can do (20_memory.md R65 to R67, R80;
10_state.md R37; 60_exceptions.md R335 to R338): O46 to O51.
-/

namespace Sys2Proof.Machine

/-- The first turn of a script that has one. -/
theorem exists_script_of_head? {s : State} {turn : HostTurn} (h : s.script.head? = some turn) :
    ∃ turns, s.script = turn :: turns :=
  List.head?_eq_some_iff.1 h

section
variable {s t : State}

/-! ### Transfers (20_memory.md R65 to R67) -/

/-- From `s` to `t` the sources lose at most a first element, the sinks gain at most a last one, and at
most one element moves in all. -/
def State.MovesAtMostOne (s t : State) : Prop :=
  ∃ (pixIn pixOut : List Pixel) (byteIn byteOut : List Byte),
    s.pixSrc = pixIn ++ t.pixSrc ∧ s.byteSrc = byteIn ++ t.byteSrc ∧
    t.byteSink = s.byteSink ++ byteOut ∧ t.pixSink = s.pixSink ++ pixOut ∧
    pixIn.length + byteIn.length + byteOut.length + pixOut.length ≤ 1

/-- The sources and the sinks of `t` are those of `s`. -/
def State.samePorts (s t : State) : Prop :=
  t.pixSrc = s.pixSrc ∧ t.byteSrc = s.byteSrc ∧ t.byteSink = s.byteSink ∧ t.pixSink = s.pixSink

theorem State.movesAtMostOne_of_samePorts (h : s.samePorts t) : s.MovesAtMostOne t := by
  obtain ⟨hps, hbs, hbk, hpk⟩ := h
  exact ⟨[], [], [], [], by simp [hps], by simp [hbs], by simp [hbk], by simp [hpk], by simp⟩

/-- Once its byte has left the source an item moves nothing through a port. -/
theorem ByteMove.samePorts {b : Byte} (hmove : ByteMove s b t) : s.samePorts t := by
  cases hmove
  all_goals exact ⟨rfl, rfl, rfl, rfl⟩

theorem EngineMove.movesAtMostOne {p : Ports} (hmove : EngineMove p s t) : s.MovesAtMostOne t := by
  cases hmove with
  | emitByte b rest _ _ _ _ => exact ⟨[], [], [], [b], rfl, rfl, rfl, (List.append_nil _).symm, by simp⟩
  | runPixel rest _ hsrc =>
    exact ⟨[s.prev], [], [], [], hsrc, rfl, (List.append_nil _).symm, (List.append_nil _).symm, by simp⟩
  | nonRunPixel px rest _ hsrc _ =>
    exact ⟨[px], [], [], [], hsrc, rfl, (List.append_nil _).symm, (List.append_nil _).symm, by simp⟩
  | emitPixel => exact ⟨[], [s.prev], [], [], rfl, rfl, (List.append_nil _).symm, rfl, by simp⟩
  | takeByte b rest t _ hsrc hbyte =>
    obtain ⟨hps, hbs, hbk, hpk⟩ := hbyte.samePorts
    exact ⟨[], [], [b], [], by simp [hps], by simp [hsrc, hbs], by simp [hbk], by simp [hpk], by simp⟩
  | endBody =>
    rw [State.endBody_eq]
    exact State.movesAtMostOne_of_samePorts ⟨rfl, rfl, rfl, rfl⟩
  | still | headerOut | finish | streamOut | sourceEnds =>
    exact State.movesAtMostOne_of_samePorts ⟨rfl, rfl, rfl, rfl⟩

theorem State.samePorts_writeConfig (s : State) (r : Reg) (v : Word) :
    s.samePorts (s.writeConfig r v) := by
  cases r
  all_goals exact ⟨rfl, rfl, rfl, rfl⟩

/-- Only a change of the offers changes the sources otherwise. -/
theorem TurnMove.movesAtMostOne {turn : Option HostTurn} (hmove : TurnMove s turn t)
    (hoffer : ∀ ps bs ends, turn ≠ some (.offer ps bs ends)) : s.MovesAtMostOne t := by
  cases hmove with
  | engine p turn t _ hengine => exact hengine.movesAtMostOne
  | configure r v _ => exact State.movesAtMostOne_of_samePorts (s.samePorts_writeConfig r v)
  | offer ps bs ends => exact absurd rfl (hoffer ps bs ends)
  | reset | startMismatch | startEncode | startDecode | ignored | read =>
    exact State.movesAtMostOne_of_samePorts ⟨rfl, rfl, rfl, rfl⟩

theorem TurnMove.eq_of_offer {ps : List Pixel} {bs : List Byte} {ends : Bool}
    (hmove : TurnMove s (some (.offer ps bs ends)) t) :
    t = { s with pixSrc := ps, byteSrc := bs, byteSrcEnds := ends } := by
  cases hmove with
  | engine p turn t hturn _ => obtain hturn | hturn := hturn <;> cases hturn
  | offer => rfl

/-- Settles O46: a change of the offers is that change; any other turn by its move. -/
theorem oneTransferPerStep : Obligations.OneTransferPerStep := by
  intro s t hstep
  have hmove := turnMove_of_step hstep
  refine ⟨fun ps bs ends turns hs => ?_, fun hoffer => ?_⟩
  · rw [hs, List.head?_cons] at hmove
    rw [hmove.eq_of_offer, State.turnTaken, hs, List.tail_cons]
  · exact hmove.movesAtMostOne fun ps bs ends hturn => by
      obtain ⟨turns, hs⟩ := exists_script_of_head? hturn
      exact hoffer ps bs ends turns hs

/-! ### The cache and `prev` (40_pixel_cache.md R123, R124, R127) -/

/-- Both are unchanged, or the cache is the old one with the new `prev` inserted. -/
def State.Remembers (s t : State) : Prop :=
  (t.cache = s.cache ∧ t.prev = s.prev) ∨ t.cache = s.cache.insertPixel t.prev

theorem ByteMove.remembers {b : Byte} (hmove : ByteMove s b t) : s.Remembers t := by
  cases hmove with
  | literalHigh | index | diff => exact .inr rfl
  | magic | widthLow | widthHigh | heightLow | headerBad | headerGood | literalTag | literalLow | run
  | corrupt | endMarker | trailing => exact .inl ⟨rfl, rfl⟩

theorem EngineMove.remembers {p : Ports} (hmove : EngineMove p s t) : s.Remembers t := by
  cases hmove with
  | nonRunPixel => exact .inr rfl
  | takeByte b rest t _ _ hbyte => exact hbyte.remembers
  | endBody =>
    rw [State.endBody_eq]
    exact .inl ⟨rfl, rfl⟩
  | still | emitByte | headerOut | runPixel | finish | streamOut | emitPixel | sourceEnds =>
    exact .inl ⟨rfl, rfl⟩

/-- A write of CTRL that issues a command. -/
def CommandTurn (turn : Option HostTurn) : Prop :=
  ∃ v, turn = some (.writeReg .ctrl v) ∧ (v.getLsbD 0 = true ∨ v.getLsbD 1 = true)

theorem TurnMove.remembers {turn : Option HostTurn} (hmove : TurnMove s turn t) :
    s.Remembers t ∨ (t.cache = Cache.init ∧ t.prev = 0 ∧ CommandTurn turn) := by
  cases hmove with
  | engine p turn t _ hengine => exact .inl hengine.remembers
  | reset v h1 => exact .inr ⟨rfl, rfl, v, rfl, .inr h1⟩
  | startMismatch v h0 | startEncode v h0 | startDecode v h0 => exact .inr ⟨rfl, rfl, v, rfl, .inl h0⟩
  | configure r v _ => cases r <;> exact .inl (.inl ⟨rfl, rfl⟩)
  | ignored | read | offer => exact .inl (.inl ⟨rfl, rfl⟩)

/-- Settles O47: the insert by its one law, the step by its move. -/
theorem cacheAndPrevMoveTogether : Obligations.CacheAndPrevMoveTogether := by
  refine ⟨Cache.slot_insertPixel, fun s t hstep => ?_⟩
  obtain (hkept | hinsert) | ⟨hcache, hprev, v, hturn, hbit⟩ := (turnMove_of_step hstep).remembers
  · exact .inl hkept
  · exact .inr (.inl hinsert)
  · obtain ⟨turns, hs⟩ := exists_script_of_head? hturn
    exact .inr (.inr ⟨hcache, hprev, v, turns, hs, hbit⟩)

/-! ### The configuration (10_state.md R37) -/

theorem ByteMove.sameConfig {b : Byte} (hmove : ByteMove s b t) : s.sameConfig t := by
  cases hmove
  all_goals exact ⟨rfl, rfl, rfl, rfl, rfl⟩

theorem EngineMove.sameConfig {p : Ports} (hmove : EngineMove p s t) : s.sameConfig t := by
  cases hmove with
  | takeByte b rest t _ _ hbyte => exact hbyte.sameConfig
  | endBody =>
    rw [State.endBody_eq]
    exact ⟨rfl, rfl, rfl, rfl, rfl⟩
  | still | emitByte | headerOut | runPixel | nonRunPixel | finish | streamOut | emitPixel
  | sourceEnds => exact ⟨rfl, rfl, rfl, rfl, rfl⟩

/-- Settles O48: while busy START and the register writes are ignored, and RESET is not. -/
theorem configurationFrozenWhileBusy : Obligations.ConfigurationFrozenWhileBusy := by
  intro s t hb hstep
  have hmove := turnMove_of_step hstep
  generalize hturn : s.script.head? = turn at hmove
  have hidle (hb' : s.turnTaken.busy = false) : False := Bool.noConfusion (hb.symm.trans hb')
  cases hmove with
  | engine p turn t _ hengine => exact .inl hengine.sameConfig
  | reset v h1 =>
    obtain ⟨turns, hs⟩ := exists_script_of_head? hturn
    exact .inr ⟨rfl, v, turns, hs, h1⟩
  | startMismatch v _ hb' | startEncode v _ hb' | startDecode v _ hb' | configure r v hb' =>
    exact (hidle hb').elim
  | ignored | read | offer => exact .inl ⟨rfl, rfl, rfl, rfl, rfl⟩

/-! ### Outside an operation (60_exceptions.md R337, R338) -/

/-- A turn of the engine outside an operation leaves the state as it is. -/
theorem EngineMove.eq_of_not_busy {p : Ports} (hmove : EngineMove p s t) (hb : s.busy = false) :
    t = s := by
  have hphase : s.phase ≠ .header ∧ s.phase ≠ .body ∧ s.phase ≠ .trailer := by
    obtain hp | hp | hp := s.not_busy_iff.1 hb <;> simp [hp]
  obtain ⟨hheader, hbody, htrailer⟩ := hphase
  have hready := State.byteInReady_of_not_busy hb
  cases hmove with
  | still _ => rfl
  | emitByte b rest _ hb' _ _ => simp [hb] at hb'
  | headerOut _ hp _ => exact absurd hp hheader
  | runPixel rest hg _ => exact absurd hg.2.1 hbody
  | nonRunPixel px rest hg _ _ => exact absurd hg.2.1 hbody
  | finish _ hp _ _ => exact absurd hp hbody
  | streamOut _ hp _ => exact absurd hp htrailer
  | emitPixel _ hp _ _ => exact absurd hp hbody
  | endBody _ hp _ _ => exact absurd hp hbody
  | sourceEnds hr _ _ => simp [hready] at hr
  | takeByte b rest t hr _ _ => simp [hready] at hr

theorem State.engineStep_of_not_busy (p : Ports) (hb : s.busy = false) : s.engineStep p = .next s := by
  obtain ⟨⟨hp, -⟩ | ⟨hp, -⟩, -⟩ | ⟨t, hstep, hmove⟩ := s.engineStep_move p
  · simp [State.busy, hp] at hb
  · simp [State.busy, hp] at hb
  · rw [hstep, hmove.eq_of_not_busy hb]

/-- What a turn outside an operation keeps that issues no command: the operation state and the sinks; the
configuration but for its own writes; the offers but for a change of them. -/
def State.OnlyHostActs (s t : State) (turn : Option HostTurn) : Prop :=
  { s with mode := t.mode, strict := t.strict, width := t.width, height := t.height
           npix := t.npix : State }.sameEngine t ∧
    t.byteSink = s.byteSink ∧ t.pixSink = s.pixSink ∧
    (s.sameConfig t ∨ ∃ r v, turn = some (.writeReg r v) ∧ (r = .cfg ∨ r = .dim ∨ r = .npix)) ∧
    ((t.pixSrc = s.pixSrc ∧ t.byteSrc = s.byteSrc ∧ t.byteSrcEnds = s.byteSrcEnds) ∨
      ∃ ps bs ends, turn = some (.offer ps bs ends))

theorem State.onlyHostActs_refl (s : State) (turn : Option HostTurn) : s.OnlyHostActs s turn :=
  ⟨rfl, rfl, rfl, .inl ⟨rfl, rfl, rfl, rfl, rfl⟩, .inl ⟨rfl, rfl, rfl⟩⟩

theorem State.onlyHostActs_writeConfig (s : State) (r : Reg) (v : Word) :
    s.OnlyHostActs (s.writeConfig r v) (some (.writeReg r v)) := by
  cases r with
  | cfg => exact ⟨rfl, rfl, rfl, .inr ⟨.cfg, v, rfl, .inl rfl⟩, .inl ⟨rfl, rfl, rfl⟩⟩
  | dim => exact ⟨rfl, rfl, rfl, .inr ⟨.dim, v, rfl, .inr (.inl rfl)⟩, .inl ⟨rfl, rfl, rfl⟩⟩
  | npix => exact ⟨rfl, rfl, rfl, .inr ⟨.npix, v, rfl, .inr (.inr rfl)⟩, .inl ⟨rfl, rfl, rfl⟩⟩
  | ctrl | status | pixcnt | hdrdim => exact s.onlyHostActs_refl _

theorem TurnMove.onlyHostActs {turn : Option HostTurn} (hmove : TurnMove s turn t)
    (hb : s.busy = false) : CommandTurn turn ∨ s.OnlyHostActs t turn := by
  cases hmove with
  | engine p turn t _ hengine =>
    rw [hengine.eq_of_not_busy hb]
    exact .inr (s.onlyHostActs_refl turn)
  | reset v h1 => exact .inl ⟨v, rfl, .inr h1⟩
  | startMismatch v h0 | startEncode v h0 | startDecode v h0 => exact .inl ⟨v, rfl, .inl h0⟩
  | ignored r v => exact .inr (s.onlyHostActs_refl _)
  | configure r v _ => exact .inr (s.onlyHostActs_writeConfig r v)
  | read r =>
    exact .inr ⟨rfl, rfl, rfl, .inl ⟨rfl, rfl, rfl, rfl, rfl⟩, .inl ⟨rfl, rfl, rfl⟩⟩
  | offer ps bs ends =>
    exact .inr ⟨rfl, rfl, rfl, .inl ⟨rfl, rfl, rfl, rfl, rfl⟩, .inr ⟨ps, bs, ends, rfl⟩⟩

/-- Settles O49: the engine's turns change nothing there, the host's turns are looked at one by one. -/
theorem onlyTheHostActsOutsideAnOperation : Obligations.OnlyTheHostActsOutsideAnOperation := by
  intro s hp
  have hb : s.busy = false := s.not_busy_iff.2 hp
  refine ⟨fun p turns hs => ?_, fun hs => ?_, fun t hstep => ?_⟩
  · rw [step_of_ports hs]
    exact State.engineStep_of_not_busy (s := { s with script := turns }) p hb
  · rw [step_of_nil hs]
    exact State.engineStep_of_not_busy Ports.idle hb
  · obtain ⟨v, hturn, hbit⟩ | ⟨hengine, hbytes, hpixels, hconfig, hoffers⟩ :=
      (turnMove_of_step hstep).onlyHostActs hb
    · obtain ⟨turns, hs⟩ := exists_script_of_head? hturn
      exact .inl ⟨v, turns, hs, hbit⟩
    · refine .inr ⟨hengine, hbytes, hpixels, hconfig.imp_right ?_, hoffers.imp_right ?_⟩
      · rintro ⟨r, v, hturn, hr⟩
        obtain ⟨turns, hs⟩ := exists_script_of_head? hturn
        exact ⟨r, v, turns, hs, hr⟩
      · rintro ⟨ps, bs, ends, hturn⟩
        obtain ⟨turns, hs⟩ := exists_script_of_head? hturn
        exact ⟨ps, bs, ends, turns, hs⟩

/-! ### Errors (60_exceptions.md R320, R335, R336) -/

/-- The error `e` that a byte raises, by the phase it is taken in (47_opcode_decoder.md R280). -/
def State.ByteRaises (s : State) (e : ErrCode) : Prop :=
  (e = .invalidHeader ∧ s.phase = .header) ∨ (e = .corruptStream ∧ s.phase = .body) ∨
    (e = .trailingData ∧ s.phase = .trailer)

/-- A byte that ends a decode in ERROR: no pixel is owed, and beside `phase` and `err` only `hdr_h` may
have changed. -/
theorem ByteMove.into_error {b : Byte} (hmove : ByteMove s b t) (hs : s.phase ≠ .error)
    (ht : t.phase = .error) :
    s.mode = .decode ∧ s.run = 0 ∧ ∃ e height, t = { s with hdrH := height }.raise e ∧
      s.ByteRaises e := by
  cases hmove with
  | headerBad hg _ _ => exact ⟨hg.1, hg.2.2, .invalidHeader, _, rfl, .inl ⟨rfl, hg.2.1⟩⟩
  | corrupt hg _ _ =>
    exact ⟨hg.1, hg.2.2.1, .corruptStream, s.hdrH, rfl, .inr (.inl ⟨rfl, hg.2.1⟩)⟩
  | trailing hg _ => exact ⟨hg.1, hg.2.2, .trailingData, s.hdrH, rfl, .inr (.inr ⟨rfl, hg.2.1⟩)⟩
  | headerGood | endMarker => cases ht
  | magic | widthLow | widthHigh | heightLow | literalTag | literalLow | literalHigh | index | diff
  | run => exact absurd ht hs

/-- The engine ends in ERROR only in a decode, by the end of the source or by a byte. -/
theorem EngineMove.into_error {p : Ports} (hmove : EngineMove p s t) (hs : s.phase ≠ .error)
    (ht : t.phase = .error) :
    s.mode = .decode ∧ s.run = 0 ∧ ∃ e height rest,
      t = { s with hdrH := height, byteSrc := rest }.raise e ∧
        ((e = .unexpectedEnd ∧ s.busy = true ∧ s.byteSrc = []) ∨ s.ByteRaises e) := by
  cases hmove with
  | sourceEnds hready hsrc _ =>
    obtain ⟨hm, hrun, -⟩ := s.byteInReady_iff.1 hready
    have hb : s.busy = true := by
      rw [← State.needIn_eq_byteInReady_of_decode hm] at hready
      exact State.busy_of_needIn hready
    exact ⟨hm, hrun, .unexpectedEnd, s.hdrH, s.byteSrc, rfl, .inl ⟨rfl, hb, hsrc⟩⟩
  | takeByte b rest t _ _ hbyte =>
    obtain ⟨hm, hrun, e, height, heq, hcause⟩ := hbyte.into_error hs ht
    exact ⟨hm, hrun, e, height, rest, heq, .inr hcause⟩
  | endBody => exact absurd ht s.endBody_phase_ne_error
  | headerOut | finish | streamOut => cases ht
  | still | emitByte | runPixel | nonRunPixel | emitPixel => exact absurd ht hs

/-- A turn into ERROR is a START that finds `NPIX` wrong, or a step of a decode. -/
theorem TurnMove.into_error {turn : Option HostTurn} (hmove : TurnMove s turn t)
    (hs : s.phase ≠ .error) (ht : t.phase = .error) :
    (s.mode = .encode ∧ t = s.clearOperation.raise .dimensionMismatch ∧
      ∃ v, turn = some (.writeReg .ctrl v) ∧ v.getLsbD 0 = true) ∨
    ∃ p, EngineMove p s t := by
  cases hmove with
  | engine p turn t _ hengine => exact .inr ⟨p, hengine⟩
  | startMismatch v h0 _ hm _ => exact .inl ⟨hm, rfl, v, rfl, h0⟩
  | reset | startEncode | startDecode => cases ht
  | configure r v _ => cases r <;> exact absurd ht hs
  | ignored | read | offer => exact absurd ht hs

/-- Settles O50: the two kinds of turn that end in ERROR. -/
theorem errorsByOperation : Obligations.ErrorsByOperation := by
  intro s t hstep hs ht
  obtain ⟨hm, rfl, v, hturn, h0⟩ | ⟨p, hengine⟩ := (turnMove_of_step hstep).into_error hs ht
  · obtain ⟨turns, hscript⟩ := exists_script_of_head? hturn
    exact .inl ⟨hm, rfl, rfl, v, turns, hscript, h0⟩
  · obtain ⟨hm, -, e, height, rest, rfl, hend | hheader | hbody | htrailer⟩ := hengine.into_error hs ht
    · exact .inr (.inl ⟨hm, hend⟩)
    · exact .inr (.inr (.inl ⟨hm, hheader⟩))
    · exact .inr (.inr (.inr (.inl ⟨hm, hbody⟩)))
    · exact .inr (.inr (.inr (.inr ⟨hm, htrailer⟩)))

/-- Settles O51: what a decode leaves in ERROR differs from what it was in `phase`, `err` and `hdr_h`
and in the byte taken. -/
theorem decodeErrorsArePrecise : Obligations.DecodeErrorsArePrecise := by
  intro s t hstep hm hs ht
  obtain ⟨hencode, -⟩ | ⟨p, hengine⟩ := (turnMove_of_step hstep).into_error hs ht
  · exact Mode.noConfusion (hm.symm.trans hencode)
  · obtain ⟨-, hrun, e, height, rest, rfl, -⟩ := hengine.into_error hs ht
    exact ⟨hrun, hrun, rfl, rfl, rfl, rfl, rfl⟩

end

end Sys2Proof.Machine
end

section
/-!
PROOFS. What an encode or a decode comes to does not depend on the schedule of its transfers
(20_memory.md R68, 46_opcode_encoder.md R233, 47_opcode_decoder.md R273): O57, O58.
-/

namespace Sys2Proof.Machine

section
variable {s t : State}

/-- A turn that only offers ready signals is a move of the engine. -/
theorem TurnMove.engine_of_ports {p : Ports} (hmove : TurnMove s (some (.ports p)) t) :
    EngineMove p s t := by
  cases hmove with
  | engine p' turn t hturn hengine =>
    obtain hturn | hturn := hturn
    · cases hturn
    · cases hturn
      exact hengine

/-- A step with a turn of the engine, at the state without that turn. -/
theorem engineMove_of_step {p : Ports} {turns : List HostTurn} (hs : s.script = .ports p :: turns)
    (hstep : step s = .next t) : EngineMove p { s with script := turns } t := by
  have hmove := turnMove_of_step hstep
  rw [State.turnTaken, hs] at hmove
  exact hmove.engine_of_ports

theorem eq_of_step_offer {ps : List Pixel} {bs : List Byte} {ends : Bool} {turns : List HostTurn}
    (hs : s.script = .offer ps bs ends :: turns) (hstep : step s = .next t) :
    t = { s with script := turns, pixSrc := ps, byteSrc := bs, byteSrcEnds := ends } :=
  (oneTransferPerStep s t hstep).1 ps bs ends turns hs

/-! ### An encode (46_opcode_encoder.md R230) -/

/-- The pixels an encode has still to count. -/
def State.missing (s : State) : Nat := s.total.toNat - s.pixCnt.toNat

/-- The bytes an encode hands over in all: those in the sink and those to come. -/
def State.allBytes (s : State) (more : List Pixel) : List Byte := s.byteSink ++ s.pendingBytes more

theorem State.pendingBytes_of_open {more : List Pixel} (hp : s.phase = .header ∨ s.phase = .body) :
    s.pendingBytes more =
      s.obuf ++ encodeBody s.prev s.run.toNat s.cache ((s.pixSrc ++ more).take s.missing) := by
  obtain hp | hp := hp <;> simp [State.pendingBytes, State.missing, hp]

theorem State.pendingBytes_of_closed {more : List Pixel} (hheader : s.phase ≠ .header)
    (hbody : s.phase ≠ .body) : s.pendingBytes more = s.obuf := by
  cases hp : s.phase with
  | header => exact absurd hp hheader
  | body => exact absurd hp hbody
  | idle | trailer | done | error => simp [State.pendingBytes, hp]

/-- A pixel equal to `prev`: what it stages and what the longer run will write is what the encode function
writes (41_run.md R142, R143). -/
theorem runPixel_encodeBody (prev : Pixel) {run : BitVec 6} (hrun : run.toNat < 62) (cache : Cache)
    (rest : List Pixel) :
    runBytes (rleStep run true).2 ++ encodeBody prev (rleStep run true).1.toNat cache rest =
      encodeBody prev run.toNat cache (prev :: rest) := by
  obtain ⟨-, hfull, hr⟩ | ⟨-, hne, hr⟩ | ⟨hf, -⟩ | ⟨hf, -⟩ := rleStep_cases run true
  · rw [hr, encodeBody_cons_full _ _ _ _ hfull]
    rfl
  · rw [hr, encodeBody_cons_run _ _ _ _ hne, run_toNat_add_one hrun]
    rfl
  · cases hf
  · cases hf

/-- A pixel that differs: the pending run, its own record, and the rest from the new `prev` on
(46_opcode_encoder.md R226, R227). -/
theorem nonRunPixel_encodeBody {prev px : Pixel} (hne : px ≠ prev) (run : BitVec 6) (cache : Cache)
    (rest : List Pixel) :
    runBytes (rleStep run false).2 ++ encodeBytes (choose prev px cache) ++
        encodeBody px (rleStep run false).1.toNat (cache.insertPixel px) rest =
      encodeBody prev run.toNat cache (px :: rest) := by
  obtain ⟨hbytes, hrun⟩ := runBytes_rleStep_false run
  rw [hbytes, hrun, encodeBody_cons_other _ _ _ _ hne, pixelBytes_eq_choose]
  rfl

/-- The pixel on offer is the next one that is missing, and taking it leaves one fewer. -/
theorem State.PixelGuard.take_missing (hg : s.PixelGuard) {px : Pixel} {rest : List Pixel}
    (hsrc : s.pixSrc = px :: rest) (more : List Pixel) :
    (s.pixSrc ++ more).take s.missing =
      px :: (rest ++ more).take { s with pixCnt := s.pixCnt + 1 }.missing ∧
    { s with pixCnt := s.pixCnt + 1 }.missing + 1 = s.missing := by
  have hlt := hg.2.2.2
  have hcount := toNat_add_one_of_lt hlt
  have hmissing : { s with pixCnt := s.pixCnt + 1 }.missing + 1 = s.missing := by
    simp only [State.missing]
    omega
  refine ⟨?_, hmissing⟩
  rw [hsrc, ← hmissing]
  rfl

/-- A step of an encode moves bytes from what is to come to the sink and changes nothing of the two
together (46_opcode_encoder.md R233). -/
theorem EngineMove.allBytes_eq {p : Ports} (hmove : EngineMove p s t) (h : s.Inv) (hm : s.mode = .encode)
    (more : List Pixel) : t.allBytes more = s.allBytes more := by
  have hnotDecode (hd : s.mode = .decode) : False := Mode.noConfusion (hm.symm.trans hd)
  unfold State.allBytes
  cases hmove with
  | still _ => rfl
  | emitByte b rest _ _ hobuf _ => simp [State.pendingBytes, hobuf]
  | headerOut _ hp _ =>
    rw [State.pendingBytes_of_open (.inl hp), State.pendingBytes_of_open (.inr rfl)]
    rfl
  | runPixel rest hg hsrc =>
    obtain ⟨htake, -⟩ := hg.take_missing hsrc more
    have hp : { s with pixSrc := rest, pixCnt := s.pixCnt + 1 }.runPixel.phase = .body := hg.2.1
    rw [State.pendingBytes_of_open (.inr hp), State.pendingBytes_of_open (.inr hg.2.1), htake,
      ← runPixel_encodeBody s.prev (h.run_lt_of_encode hm) s.cache, hg.2.2.1]
    simp [State.runPixel, State.push, State.missing]
  | nonRunPixel px rest hg hsrc hne =>
    obtain ⟨htake, -⟩ := hg.take_missing hsrc more
    have hp : ({ s with pixSrc := rest, pixCnt := s.pixCnt + 1 }.nonRunPixel px).phase = .body := hg.2.1
    rw [State.pendingBytes_of_open (.inr hp), State.pendingBytes_of_open (.inr hg.2.1), htake,
      ← nonRunPixel_encodeBody hne, hg.2.2.1]
    simp [State.nonRunPixel, State.push, State.remember, State.missing]
  | finish _ hp hobuf hcounted =>
    have hmissing : s.missing = 0 := by simp [State.missing, hcounted]
    rw [State.pendingBytes_of_open (.inr hp), hmissing, State.finishEncode_eq hobuf,
      State.pendingBytes_of_closed (by simp) (by simp), hobuf]
    rfl
  | streamOut _ hp hobuf =>
    rw [State.pendingBytes_of_closed (by simp) (by simp),
      State.pendingBytes_of_closed (by simp [hp]) (by simp [hp])]
  | emitPixel hd _ _ _ => exact (hnotDecode hd).elim
  | endBody hd _ _ _ => exact (hnotDecode hd).elim
  | sourceEnds hready _ _ => exact (hnotDecode (s.byteInReady_iff.1 hready).1).elim
  | takeByte b rest t hready _ _ => exact (hnotDecode (s.byteInReady_iff.1 hready).1).elim

/-- What is missing and what the source holds shrink together. -/
theorem EngineMove.missing_cases {p : Ports} (hmove : EngineMove p s t) (hm : s.mode = .encode) :
    (t.pixSrc = s.pixSrc ∧ t.missing = s.missing) ∨
      ∃ px, s.pixSrc = px :: t.pixSrc ∧ t.missing + 1 = s.missing := by
  have hnotDecode (hd : s.mode = .decode) : False := Mode.noConfusion (hm.symm.trans hd)
  cases hmove with
  | still | emitByte | headerOut | finish | streamOut => exact .inl ⟨rfl, rfl⟩
  | runPixel rest hg hsrc => exact .inr ⟨s.prev, hsrc, (hg.take_missing hsrc []).2⟩
  | nonRunPixel px rest hg hsrc _ => exact .inr ⟨px, hsrc, (hg.take_missing hsrc []).2⟩
  | emitPixel hd _ _ _ => exact (hnotDecode hd).elim
  | endBody hd _ _ _ => exact (hnotDecode hd).elim
  | sourceEnds hready _ _ => exact (hnotDecode (s.byteInReady_iff.1 hready).1).elim
  | takeByte b rest t hready _ _ => exact (hnotDecode (s.byteInReady_iff.1 hready).1).elim

/-- A source that completes the missing pixels still does after a step. -/
theorem EngineMove.missing_le {p : Ports} (hmove : EngineMove p s t) (hm : s.mode = .encode)
    {more : List Pixel} (hlen : s.missing ≤ (s.pixSrc ++ more).length) :
    t.missing ≤ (t.pixSrc ++ more).length := by
  obtain ⟨hsrc, hmissing⟩ | ⟨px, hsrc, hmissing⟩ := hmove.missing_cases hm
  · rwa [hsrc, hmissing]
  · rw [hsrc, List.cons_append, List.length_cons] at hlen
    omega

/-- Settles O57: a step by its move, a change of the offers because the pixels it adds are the next ones
either way. -/
theorem encodeOutputIsScheduleFree : Obligations.EncodeOutputIsScheduleFree := by
  intro s t turns more h hm hstep
  refine ⟨fun p hs hlen => ?_, fun new bs ends hs => ?_⟩
  · have hmove := engineMove_of_step hs hstep
    exact ⟨hmove.allBytes_eq (h.of_sameEngine rfl) hm more, hmove.missing_le hm hlen⟩
  · rw [eq_of_step_offer hs hstep]
    simp only [State.pendingBytes, List.append_assoc]

/-! ### A decode: its header (47_opcode_decoder.md R270, 45_header_end.md R202, R203) -/

/-- What a decode comes to in all: the pixels in the sink and those to come, how it ends and the bytes it
leaves. -/
def State.allDecoded (s : State) (more : List Byte) : Decoded :=
  .after s.pixSink (s.pendingDecode more)

theorem State.pendingDecode_of_header (hp : s.phase = .header) (more : List Byte) :
    s.pendingDecode more =
      decodeSource (s.takenHeader ++ (s.byteSrc ++ more)) s.width s.height s.strict := by
  simp [State.pendingDecode, hp]

/-- Where the first bytes are not those of `MAGIC`, the decode function looks at the number of bytes
only. -/
theorem decodeSource_of_wrong_magic {bytes : List Byte} (hwrong : bytes.take 4 ≠ Config.magic)
    (w h : BitVec 16) (strict : Bool) :
    decodeSource bytes w h strict =
      if bytes.length < 8 then .stop (.failed .unexpectedEnd) []
      else .stop (.failed .invalidHeader) (bytes.drop 8) := by
  match bytes with
  | [] | [_] | [_, _] | [_, _, _] | [_, _, _, _] | [_, _, _, _, _] | [_, _, _, _, _, _]
  | [_, _, _, _, _, _, _] => rfl
  | m0 :: m1 :: m2 :: m3 :: wl :: wh :: hl :: hh :: rest =>
    have hmagic : [m0, m1, m2, m3] ≠ Config.magic := hwrong
    have hlen : ¬ (m0 :: m1 :: m2 :: m3 :: wl :: wh :: hl :: hh :: rest).length < 8 := by simp
    rw [if_neg hlen, decodeSource, if_pos hmagic]
    rfl

/-- So one wrong beginning of a magic is as good as another of its length. -/
theorem decodeSource_wrong_congr {xs ys : List Byte} (hlen : xs.length = ys.length)
    (hle : xs.length ≤ 4) (hxs : ¬ xs <+: Config.magic) (hys : ¬ ys <+: Config.magic)
    (rest : List Byte) (w h : BitVec 16) (strict : Bool) :
    decodeSource (xs ++ rest) w h strict = decodeSource (ys ++ rest) w h strict := by
  have hwrong {zs : List Byte} (hzs : zs.length ≤ 4) (hnot : ¬ zs <+: Config.magic) :
      (zs ++ rest).take 4 ≠ Config.magic := by
    rintro heq
    refine hnot (heq ▸ ?_)
    rw [List.take_append, List.take_of_length_le hzs]
    exact List.prefix_append zs _
  have hdrop {zs : List Byte} (hzs : zs.length ≤ 4) :
      (zs ++ rest).drop 8 = rest.drop (8 - zs.length) := by
    rw [List.drop_append, List.drop_of_length_le (by omega), List.nil_append]
  rw [decodeSource_of_wrong_magic (hwrong hle hxs),
    decodeSource_of_wrong_magic (hwrong (hlen ▸ hle) hys), hdrop hle, hdrop (hlen ▸ hle),
    List.length_append, List.length_append, hlen]

/-- What is remembered of the bytes at the places of `MAGIC`. -/
def rememberedMagic (bad : Bool) : List Byte := if bad then [0x00, 0x35, 0x36, 0x35] else Config.magic

theorem rememberedMagic_length (bad : Bool) : (rememberedMagic bad).length = 4 := by
  cases bad <;> rfl

/-- Behind the first byte the remembered bytes are those of `MAGIC`. -/
theorem rememberedMagic_getElem? {bad : Bool} {k : Nat} (h : bad = true → k ≠ 0) :
    (rememberedMagic bad)[k]? = Config.magic[k]? := by
  cases bad with
  | false => rfl
  | true =>
    cases k with
    | zero => exact absurd rfl (h rfl)
    | succ k => rfl

theorem State.takenHeader_eq (s : State) :
    s.takenHeader =
      (rememberedMagic s.hdrBad ++
        [loByte s.hdrW, hiByte s.hdrW, loByte s.hdrH, hiByte s.hdrH]).take s.sub.toNat := rfl

theorem State.takenHeader_of_le_four (hsub : s.sub.toNat ≤ 4) :
    s.takenHeader = (rememberedMagic s.hdrBad).take s.sub.toNat := by
  rw [State.takenHeader_eq, List.take_append_of_le_length]
  rwa [rememberedMagic_length]

/-- Bytes that agree with `MAGIC` up to a wrong one are no beginning of it. -/
theorem not_prefix_magic {xs : List Byte} {k : Nat} {b want : Byte} (hlen : xs.length = k)
    (hwant : Config.magic[k]? = some want) (hb : b ≠ want) : ¬ xs ++ [b] <+: Config.magic := by
  rintro ⟨suffix, heq⟩
  rw [← heq, ← hlen, List.append_assoc, List.getElem?_append_right (Nat.le_refl _), Nat.sub_self] at hwant
  exact hb (Option.some.inj hwant)

/-- A byte at a place of `MAGIC`: right or wrong, what is remembered afterwards decodes like the bytes
themselves, since of a wrong magic only its length counts. -/
theorem State.magicByte_decodeSource (h : s.Inv) (hg : s.HeaderGuard) {want : Byte} (b : Byte)
    (hwant : Config.magic[s.sub.toNat]? = some want) (rest : List Byte) (w ht : BitVec 16)
    (strict : Bool) :
    decodeSource ((s.magicByte want b).takenHeader ++ rest) w ht strict =
      decodeSource (s.takenHeader ++ b :: rest) w ht strict := by
  have hlt := sub_lt_four hwant
  have hnext : (s.sub + 1).toNat = s.sub.toNat + 1 := by bv_omega
  have hnextLe : (s.sub + 1).toNat ≤ 4 := by omega
  have hlen (bad : Bool) : ((rememberedMagic bad).take s.sub.toNat).length = s.sub.toNat := by
    rw [List.length_take, rememberedMagic_length]
    omega
  have hbytes : s.takenHeader ++ b :: rest = s.takenHeader ++ [b] ++ rest := by simp
  rw [State.takenHeader_of_le_four (s := s.magicByte want b) hnextLe, State.magicByte_sub, hnext, hbytes,
    State.takenHeader_of_le_four (Nat.le_of_lt hlt), State.magicByte_hdrBad]
  by_cases hb : b = want
  · have hkept : (s.hdrBad || b != want) = s.hdrBad := by simp [hb]
    have hplace : (rememberedMagic s.hdrBad)[s.sub.toNat]? = some want := by
      rw [rememberedMagic_getElem? fun hbad h0 => h.hdrBad_header hg.2.1 hbad (BitVec.eq_of_toNat_eq h0)]
      exact hwant
    rw [hkept, List.take_add_one, hplace, hb]
    rfl
  · have hset : (s.hdrBad || b != want) = true := by simp [hb]
    rw [hset]
    refine decodeSource_wrong_congr ?_ ?_ ?_ (not_prefix_magic (hlen s.hdrBad) hwant hb) ..
    · rw [List.length_append, hlen, List.length_take, rememberedMagic_length]
      exact Nat.min_eq_left hlt
    · rw [List.length_take]
      omega
    · simp [rememberedMagic, Config.magic]

theorem setLoByte_eq (v : BitVec 16) (b : Byte) : setLoByte v b = ofBytes b (hiByte v) := rfl

theorem setHiByte_eq (v : BitVec 16) (b : Byte) : setHiByte v b = ofBytes (loByte v) b := rfl

/-! The bytes of the dimensions are remembered as they are. -/

theorem State.takenHeader_widthLow (hsub : s.sub = 4) (b : Byte) :
    { s with hdrW := setLoByte s.hdrW b, sub := 5 }.takenHeader = s.takenHeader ++ [b] := by
  have hlen := rememberedMagic_length s.hdrBad
  simp [State.takenHeader_eq, hsub, List.take_append, List.take_of_length_le, hlen, setLoByte_eq]

theorem State.takenHeader_widthHigh (hsub : s.sub = 5) (b : Byte) :
    { s with hdrW := setHiByte s.hdrW b, sub := 6 }.takenHeader = s.takenHeader ++ [b] := by
  have hlen := rememberedMagic_length s.hdrBad
  simp [State.takenHeader_eq, hsub, List.take_append, List.take_of_length_le, hlen, setHiByte_eq]

theorem State.takenHeader_heightLow (hsub : s.sub = 6) (b : Byte) :
    { s with hdrH := setLoByte s.hdrH b, sub := 7 }.takenHeader = s.takenHeader ++ [b] := by
  have hlen := rememberedMagic_length s.hdrBad
  simp [State.takenHeader_eq, hsub, List.take_append, List.take_of_length_le, hlen, setLoByte_eq]

theorem State.takenHeader_of_seven (hsub : s.sub = 7) :
    s.takenHeader = rememberedMagic s.hdrBad ++ [loByte s.hdrW, hiByte s.hdrW, loByte s.hdrH] := by
  have hlen := rememberedMagic_length s.hdrBad
  simp [State.takenHeader_eq, hsub, List.take_append, List.take_of_length_le, hlen]

/-- The eighth byte: the decode function judges the header as the machine does (45_header_end.md R203). -/
theorem State.decodeSource_of_judgesBad (hsub : s.sub = 7) {b : Byte} (hbad : s.JudgesBad b)
    (rest : List Byte) :
    decodeSource (s.takenHeader ++ b :: rest) s.width s.height s.strict =
      .stop (.failed .invalidHeader) rest := by
  rw [State.takenHeader_of_seven hsub]
  cases hmagic : s.hdrBad with
  | true => rfl
  | false =>
    have hdims : s.hdrW = 0 ∨ ofBytes (loByte s.hdrH) b = 0 ∨ s.hdrW ≠ s.width ∨
        ofBytes (loByte s.hdrH) b ≠ s.height :=
      hbad.resolve_left (by simp [hmagic])
    simp only [rememberedMagic, Config.magic, Bool.false_eq_true, if_false, List.cons_append,
      List.nil_append, decodeSource, ofBytes_loByte_hiByte, ne_eq, not_true_eq_false]
    exact if_pos hdims

theorem State.decodeSource_of_not_judgesBad (hsub : s.sub = 7) {b : Byte} (hgood : ¬ s.JudgesBad b)
    (rest : List Byte) :
    decodeSource (s.takenHeader ++ b :: rest) s.width s.height s.strict =
      decodeBody s.strict (s.width.toNat * s.height.toNat) Config.prevInit Cache.init rest := by
  have hmagic : s.hdrBad = false := Bool.eq_false_iff.2 fun hbad => hgood (.inl hbad)
  have hdims : ¬ (s.hdrW = 0 ∨ ofBytes (loByte s.hdrH) b = 0 ∨ s.hdrW ≠ s.width ∨
      ofBytes (loByte s.hdrH) b ≠ s.height) := fun h => hgood (.inr h)
  rw [State.takenHeader_of_seven hsub, hmagic]
  simp only [rememberedMagic, Config.magic, Bool.false_eq_true, if_false, List.cons_append,
    List.nil_append, decodeSource, ofBytes_loByte_hiByte, ne_eq, not_true_eq_false]
  exact if_neg hdims

/-- A source that ends inside the header. -/
theorem decodeSource_of_short {bytes : List Byte} (hlen : bytes.length < 8) (w h : BitVec 16)
    (strict : Bool) : decodeSource bytes w h strict = .stop (.failed .unexpectedEnd) [] := by
  match bytes with
  | [] | [_] | [_, _] | [_, _, _] | [_, _, _, _] | [_, _, _, _, _] | [_, _, _, _, _, _]
  | [_, _, _, _, _, _, _] => rfl
  | _ :: _ :: _ :: _ :: _ :: _ :: _ :: _ :: _ => simp at hlen; omega

/-! ### A decode: its body and its end (47_opcode_decoder.md R270) -/

theorem State.pendingDecode_of_body (hp : s.phase = .body) (more : List Byte) :
    s.pendingDecode more =
      .after (List.replicate s.run.toNat s.prev)
        (decodeBody s.strict (s.total.toNat - s.pixCnt.toNat - s.run.toNat) s.prev s.cache
          (s.takenBytes ++ (s.byteSrc ++ more))) := by
  simp [State.pendingDecode, hp]

theorem State.pendingDecode_of_trailer (hp : s.phase = .trailer) (more : List Byte) :
    s.pendingDecode more = trailerEnd true (s.byteSrc ++ more) := by
  simp [State.pendingDecode, hp]

/-- Where a record byte is asked for nothing is owed. -/
theorem State.RecordGuard.pendingDecode_eq (hg : s.RecordGuard) (more : List Byte) :
    s.pendingDecode more =
      decodeBody s.strict s.missing s.prev s.cache (s.takenBytes ++ (s.byteSrc ++ more)) := by
  rw [State.pendingDecode_of_body hg.2.1, run_toNat_eq_zero hg.2.2.1]
  rfl

theorem State.RecordGuard.missing_ne_zero (hg : s.RecordGuard) : s.missing ≠ 0 :=
  Nat.sub_ne_zero_of_lt hg.2.2.2

/-- At a leading position no byte of the record has been taken. -/
theorem State.RecordGuard.pendingDecode_leading (hg : s.RecordGuard) (hsub : s.sub = 0)
    (more : List Byte) :
    s.pendingDecode more = decodeBody s.strict s.missing s.prev s.cache (s.byteSrc ++ more) := by
  rw [hg.pendingDecode_eq, State.takenBytes, if_pos hsub]
  rfl

/-- The pixel of a record is owed once, and the rest is decoded from it on. -/
theorem State.RecordGuard.pendingDecode_produce (hg : s.RecordGuard) (px : Pixel) (more : List Byte) :
    { s.produce px with sub := 0 }.pendingDecode more =
      decodePixel s.strict s.missing px s.cache (s.byteSrc ++ more) := by
  have hp : { s.produce px with sub := 0 }.phase = .body := hg.2.1
  rw [State.pendingDecode_of_body hp]
  rfl

/-- The state before the byte `b` has left the source. -/
def State.untake (s : State) (b : Byte) : State := { s with byteSrc := b :: s.byteSrc }

theorem State.pendingDecode_untake_header (hp : s.phase = .header) (b : Byte) (more : List Byte) :
    (s.untake b).pendingDecode more =
      decodeSource (s.takenHeader ++ b :: (s.byteSrc ++ more)) s.width s.height s.strict :=
  State.pendingDecode_of_header (s := s.untake b) hp more

theorem State.RecordGuard.pendingDecode_untake (hg : s.RecordGuard) (b : Byte) (more : List Byte) :
    (s.untake b).pendingDecode more =
      decodeBody s.strict s.missing s.prev s.cache (s.takenBytes ++ b :: (s.byteSrc ++ more)) :=
  State.RecordGuard.pendingDecode_eq (s := s.untake b) hg more

/-- A leading byte is read by what it stands for. -/
theorem State.RecordGuard.pendingDecode_untake_leading (hg : s.RecordGuard) (hsub : s.sub = 0) (b : Byte)
    (more : List Byte) :
    (s.untake b).pendingDecode more =
      decodeItem s.strict s.missing s.prev s.cache (s.byteSrc ++ more) (leadingItem b) := by
  rw [← decodeBody_cons s.prev s.cache hg.missing_ne_zero]
  exact State.RecordGuard.pendingDecode_leading (s := s.untake b) hg hsub more

theorem State.pendingDecode_untake_trailer (hp : s.phase = .trailer) (b : Byte) (more : List Byte) :
    (s.untake b).pendingDecode more =
      .stop (if b = Config.trailer then .done else .failed .trailingData) (s.byteSrc ++ more) :=
  State.pendingDecode_of_trailer (s := s.untake b) hp more

/-- A header byte that is remembered as it is. -/
theorem State.pendingDecode_eq_untake {b : Byte} (hbytes : t.takenHeader = s.takenHeader ++ [b])
    (hp : s.phase = .header) (htp : t.phase = .header) (hsrc : t.byteSrc = s.byteSrc)
    (hconfig : s.sameConfig t) (more : List Byte) :
    t.pendingDecode more = (s.untake b).pendingDecode more := by
  obtain ⟨-, hstrict, hwidth, hheight, -⟩ := hconfig
  rw [State.pendingDecode_of_header htp, State.pendingDecode_untake_header hp, hbytes, hsrc, hstrict,
    hwidth, hheight, List.append_assoc]
  rfl

/-- A valid header leaves the loop with every pixel missing. -/
theorem State.pendingDecode_headerGood (h : s.Inv) (hg : s.HeaderGuard) {b : Byte}
    (hgood : ¬ s.JudgesBad b) (more : List Byte) :
    { s with
      hdrH := setHiByte s.hdrH b
      total := area s.hdrW (setHiByte s.hdrH b)
      sub := 0
      phase := .body }.pendingDecode more =
      decodeBody s.strict (s.width.toNat * s.height.toNat) Config.prevInit Cache.init
        (s.byteSrc ++ more) := by
  obtain ⟨-, hp, hrun⟩ := hg
  obtain ⟨hprev, hcache⟩ := h.fresh_header hp
  obtain ⟨-, -, -, hwidth, hheight⟩ := State.header_of_not_judgesBad hgood
  rw [State.pendingDecode_of_body rfl]
  simp only [State.takenBytes, hrun, hprev, hcache, h.pixCnt_header hp, hwidth, hheight, area_toNat]
  rfl

/-- A run record owes its pixels, and the rest is decoded from the same `prev` and cache on. -/
theorem State.RecordGuard.pendingDecode_run (hg : s.RecordGuard) (hsub : s.sub = 0) {n : BitVec 6}
    (hn : n.toNat + 1 ≤ 62) (more : List Byte) :
    { s with run := n + 1 }.pendingDecode more =
      .after (List.replicate (n.toNat + 1) s.prev)
        (decodeBody s.strict (s.missing - (n.toNat + 1)) s.prev s.cache (s.byteSrc ++ more)) := by
  have hp : { s with run := n + 1 }.phase = .body := hg.2.1
  have hnext : (n + 1).toNat = n.toNat + 1 := run_toNat_add_one (by omega)
  rw [State.pendingDecode_of_body hp, State.takenBytes, if_pos hsub, hnext]
  rfl

/-- The decode function finds the same records corrupt (30_encoding.md R104, 41_run.md R148). -/
theorem State.CorruptAt.decodeItem_eq {b : Byte} (hcorrupt : s.CorruptAt b) (rest : List Byte) :
    decodeItem s.strict s.missing s.prev s.cache rest (leadingItem b) =
      .stop (.failed .corruptStream) rest := by
  obtain hi | ⟨x, hi⟩ | ⟨n, hi, hlong⟩ := hcorrupt
  · rw [hi, decodeItem]
  · rw [hi, decodeItem]
  · rw [hi, decodeItem]
    exact if_pos hlong

/-- A record of one pixel at a leading position. -/
theorem State.RecordGuard.pendingDecode_produce_leading (hg : s.RecordGuard) (hsub : s.sub = 0)
    (px : Pixel) (more : List Byte) :
    (s.produce px).pendingDecode more = decodePixel s.strict s.missing px s.cache (s.byteSrc ++ more) := by
  have hsame : s.produce px = { s.produce px with sub := 0 } := by rw [← hsub]; rfl
  rw [hsame, hg.pendingDecode_produce]

/-- Taking a byte changes nothing of what the decode comes to. -/
theorem ByteMove.pendingDecode_eq {b : Byte} (hmove : ByteMove s b t) (h : s.Inv) (more : List Byte) :
    t.pendingDecode more = (s.untake b).pendingDecode more := by
  cases hmove with
  | magic want hg hwant =>
    have hp : (s.magicByte want b).phase = .header := hg.2.1
    rw [State.pendingDecode_of_header hp, State.pendingDecode_untake_header hg.2.1]
    exact s.magicByte_decodeSource h hg b hwant ..
  | widthLow hg hsub =>
    exact State.pendingDecode_eq_untake (State.takenHeader_widthLow hsub b) hg.2.1 hg.2.1 rfl
      ⟨rfl, rfl, rfl, rfl, rfl⟩ more
  | widthHigh hg hsub =>
    exact State.pendingDecode_eq_untake (State.takenHeader_widthHigh hsub b) hg.2.1 hg.2.1 rfl
      ⟨rfl, rfl, rfl, rfl, rfl⟩ more
  | heightLow hg hsub =>
    exact State.pendingDecode_eq_untake (State.takenHeader_heightLow hsub b) hg.2.1 hg.2.1 rfl
      ⟨rfl, rfl, rfl, rfl, rfl⟩ more
  | headerBad hg hsub hbad =>
    rw [State.pendingDecode_untake_header hg.2.1, State.decodeSource_of_judgesBad hsub hbad]
    rfl
  | headerGood hg hsub hgood =>
    rw [State.pendingDecode_untake_header hg.2.1, State.decodeSource_of_not_judgesBad hsub hgood,
      State.pendingDecode_headerGood h hg hgood]
  | literalTag hg hsub hb =>
    have hg' : { s with sub := 1 }.RecordGuard := hg
    rw [hg'.pendingDecode_eq, hg.pendingDecode_untake, hb]
    simp only [State.takenBytes, hsub]
    rfl
  | literalLow hg hsub =>
    have hg' : { s with hold := b, sub := 2 }.RecordGuard := hg
    rw [hg'.pendingDecode_eq, hg.pendingDecode_untake]
    simp only [State.takenBytes, hsub]
    rfl
  | literalHigh hg hsub =>
    rw [hg.pendingDecode_produce, hg.pendingDecode_untake]
    simp only [State.takenBytes, hsub]
    exact (decodeBody_literal s.prev s.cache hg.missing_ne_zero s.hold b _).symm
  | index i hg hsub hi =>
    rw [hg.pendingDecode_untake_leading hsub, hi, hg.pendingDecode_produce_leading hsub, decodeItem]
  | diff fr fg fb hg hsub hi =>
    rw [hg.pendingDecode_untake_leading hsub, hi, hg.pendingDecode_produce_leading hsub, decodeItem]
  | run n hg hsub hi hfit =>
    rw [hg.pendingDecode_untake_leading hsub, hi, hg.pendingDecode_run hsub (run_field_le hi), decodeItem]
    exact (if_neg (Nat.not_lt_of_le hfit)).symm
  | corrupt hg hsub hcorrupt =>
    rw [hg.pendingDecode_untake_leading hsub, hcorrupt.decodeItem_eq]
    rfl
  | endMarker hg hb =>
    rw [State.pendingDecode_untake_trailer hg.2.1, if_pos hb]
    rfl
  | trailing hg hb =>
    rw [State.pendingDecode_untake_trailer hg.2.1, if_neg hb]
    rfl

/-- Where a byte is asked for and none comes any more, the decode function runs out of bytes too
(47_opcode_decoder.md R281). -/
theorem State.pendingDecode_of_source_ended (h : s.Inv) (hready : s.byteInReady = true)
    (hsrc : s.byteSrc = []) : s.pendingDecode [] = .stop (.failed .unexpectedEnd) [] := by
  obtain ⟨hm, hrun, hp | ⟨hp, hlt⟩ | hp⟩ := s.byteInReady_iff.1 hready
  · have hlen : s.takenHeader.length < 8 := by
      have hsub := h.sub_header hp
      rw [State.takenHeader_eq, List.length_take]
      omega
    rw [State.pendingDecode_of_header hp, hsrc, List.append_nil, List.append_nil,
      decodeSource_of_short hlen]
  · have hg : s.RecordGuard := ⟨hm, hp, hrun, hlt⟩
    rw [hg.pendingDecode_eq, hsrc, List.append_nil, List.append_nil]
    unfold State.takenBytes
    split
    · exact decodeBody_nil s.prev s.cache hg.missing_ne_zero
    · split
      · exact decodeBody_cons s.prev s.cache hg.missing_ne_zero _ _
      · exact decodeBody_cons s.prev s.cache hg.missing_ne_zero _ _
  · rw [State.pendingDecode_of_trailer hp, hsrc]
    rfl

/-- Handing over an owed pixel. -/
theorem State.allDecoded_emitPixel (h : s.Inv) (hm : s.mode = .decode) (hp : s.phase = .body)
    (hrun : 0 < s.run.toNat) (more : List Byte) : s.emitPixel.allDecoded more = s.allDecoded more := by
  have howed := h.owed_le hm
  have hcount : (s.pixCnt + 1).toNat = s.pixCnt.toNat + 1 :=
    toNat_add_one_of_lt (b := s.total) (by omega)
  have hdown : (s.run - 1).toNat = s.run.toNat - 1 := by bv_omega
  have hmissing : s.total.toNat - (s.pixCnt.toNat + 1) - (s.run.toNat - 1) =
      s.total.toNat - s.pixCnt.toNat - s.run.toNat := by omega
  have hcopies : List.replicate s.run.toNat s.prev = s.prev :: List.replicate (s.run.toNat - 1) s.prev := by
    rw [← List.replicate_succ, Nat.sub_add_cancel hrun]
  have hp' : s.emitPixel.phase = .body := hp
  rw [State.allDecoded, State.allDecoded, State.pendingDecode_of_body hp', State.pendingDecode_of_body hp,
    hcopies]
  simp only [State.emitPixel, hcount, hdown, hmissing, Decoded.after_after, List.append_assoc,
    List.singleton_append]
  rfl

/-- The end of the body: the loop is over and the trailer check remains (45_header_end.md R208, R212). -/
theorem State.pendingDecode_endBody (h : s.Inv) (hp : s.phase = .body) (hrun : s.run = 0)
    (hcounted : s.pixCnt = s.total) (more : List Byte) :
    s.endBody.pendingDecode more = s.pendingDecode more := by
  have hsub : s.sub = 0 := by
    refine Classical.byContradiction fun hne => ?_
    obtain ⟨-, hlt⟩ := h.sub_literal hp hne
    simp [hcounted] at hlt
  have hbody : s.pendingDecode more = trailerEnd s.strict (s.byteSrc ++ more) := by
    rw [State.pendingDecode_of_body hp, hrun, hcounted, Nat.sub_self, State.takenBytes, if_pos hsub]
    exact decodeBody_zero ..
  rw [hbody, State.endBody_eq]
  cases hstrict : s.strict with
  | true => exact State.pendingDecode_of_trailer (s := { s with strict := true, phase := .trailer }) rfl more
  | false => rfl

/-- A step of a decode moves pixels from what is to come to the sink and changes nothing of what the decode
comes to (47_opcode_decoder.md R273); the bytes `more` come only if the source has not ended. -/
theorem EngineMove.allDecoded_eq {p : Ports} (hmove : EngineMove p s t) (h : s.Inv)
    (hm : s.mode = .decode) {more : List Byte} (hmore : s.byteSrcEnds = true → more = []) :
    t.allDecoded more = s.allDecoded more := by
  have hnotEncode (he : s.mode = .encode) : False := Mode.noConfusion (hm.symm.trans he)
  cases hmove with
  | still _ => rfl
  | emitByte b rest he _ _ _ => exact (hnotEncode he).elim
  | headerOut he _ _ => exact (hnotEncode he).elim
  | runPixel rest hg _ => exact (hnotEncode hg.1).elim
  | nonRunPixel px rest hg _ _ => exact (hnotEncode hg.1).elim
  | finish he _ _ _ => exact (hnotEncode he).elim
  | streamOut he _ _ => exact (hnotEncode he).elim
  | emitPixel _ hp hrun _ => exact State.allDecoded_emitPixel h hm hp hrun more
  | endBody _ hp hrun hcounted =>
    have hsink : s.endBody.pixSink = s.pixSink := by rw [State.endBody_eq]
    rw [State.allDecoded, State.allDecoded, hsink, State.pendingDecode_endBody h hp hrun hcounted]
  | sourceEnds hready hsrc hends =>
    rw [hmore hends, State.allDecoded, State.allDecoded, State.pendingDecode_of_source_ended h hready hsrc]
    simp only [State.pendingDecode, State.raise_phase, State.raise_byteSrc, hsrc]
    rfl
  | takeByte b rest t hready hsrc hbyte =>
    have hpending := hbyte.pendingDecode_eq (h.of_sameEngine rfl) more
    have hbefore : { s with byteSrc := rest }.untake b = s := by
      rw [State.untake, ← hsrc]
    obtain ⟨-, -, -, hsink⟩ := hbyte.samePorts
    rw [State.allDecoded, State.allDecoded, hpending, hbefore, hsink]

/-- The three parts of what a decode comes to. -/
theorem State.parts_of_allDecoded {more more' : List Byte} (heq : t.allDecoded more = s.allDecoded more') :
    (t.pendingDecode more).fin = (s.pendingDecode more').fin ∧
      (t.pendingDecode more).left = (s.pendingDecode more').left ∧
      t.pixSink ++ (t.pendingDecode more).pixels = s.pixSink ++ (s.pendingDecode more').pixels := by
  have hfin := congrArg Decoded.fin heq
  have hleft := congrArg Decoded.left heq
  have hpixels := congrArg Decoded.pixels heq
  exact ⟨hfin, hleft, hpixels⟩

/-- Settles O58: a step by its move, a change of the offers because the bytes it adds are the next ones
either way. -/
theorem decodeOutputIsScheduleFree : Obligations.DecodeOutputIsScheduleFree := by
  intro s t turns more h hm hstep
  refine ⟨fun p hs hmore => ?_, fun new ps ends hs => ?_⟩
  · exact State.parts_of_allDecoded
      ((engineMove_of_step hs hstep).allDecoded_eq (h.of_sameEngine rfl) hm hmore)
  · rw [eq_of_step_offer hs hstep]
    refine State.parts_of_allDecoded ?_
    simp only [State.allDecoded, State.pendingDecode, List.append_assoc]
    rfl

end

end Sys2Proof.Machine
end

section
/-!
PROOFS. Whole operations with a host that takes what is offered (70_reset_and_hazards.md R380): O59, O60.
-/

namespace Sys2Proof.Machine

/-! ### Runs -/

theorem core_run_succ {s t : State} (hstep : step s = .next t) (k : Nat) :
    core.run (k + 1) s = core.run k t := by
  have hcore : core.step s = .next t := hstep
  simp only [Host.Core.run, hcore]

/-- A run in which every step keeps `P`, uses up `fuel` while the engine is busy and leaves it not busy
afterwards: with as many turns as `fuel` it comes to an end. -/
theorem run_takeAll {P : State → Prop} {fuel : State → Nat}
    (hpos : ∀ s, s.busy = true → 0 < fuel s)
    (hstep : ∀ s turns, P s → s.script = HostTurn.takeAll :: turns →
      ∃ t, step s = .next t ∧ P t ∧ t.script = turns ∧
        (s.busy = true → fuel t < fuel s) ∧ (s.busy = false → t.busy = false)) :
    ∀ n s, P s → s.script = List.replicate n HostTurn.takeAll → (s.busy = true → fuel s ≤ n) →
      ∃ t, core.run n s = .next t ∧ P t ∧ t.busy = false := by
  intro n
  induction n with
  | zero =>
    intro s hP _ hfuel
    exact ⟨s, rfl, hP, Bool.eq_false_iff.2 fun hb => Nat.not_lt_of_le (hfuel hb) (hpos s hb)⟩
  | succ n ih =>
    intro s hP hs hfuel
    obtain ⟨t, ht, hPt, hscript, hless, hidle⟩ := hstep s (List.replicate n HostTurn.takeAll) hP hs
    rw [core_run_succ ht]
    refine ih t hPt hscript fun hbt => ?_
    cases hb : s.busy with
    | true => exact Nat.le_of_lt_succ (Nat.lt_of_lt_of_le (hless hb) (hfuel hb))
    | false => exact Bool.noConfusion ((hidle hb).symm.trans hbt)

section
variable {s t : State}

theorem ByteMove.host_eq {b : Byte} (hmove : ByteMove s b t) :
    t.script = s.script ∧ t.byteSrcEnds = s.byteSrcEnds := by
  cases hmove
  all_goals exact ⟨rfl, rfl⟩

/-- The engine takes no host turn and does not end the byte source. -/
theorem EngineMove.host_eq {p : Ports} (hmove : EngineMove p s t) :
    t.script = s.script ∧ t.byteSrcEnds = s.byteSrcEnds := by
  cases hmove with
  | takeByte b rest t _ _ hbyte => exact hbyte.host_eq
  | endBody =>
    rw [State.endBody_eq]
    exact ⟨rfl, rfl⟩
  | still | emitByte | headerOut | runPixel | nonRunPixel | finish | streamOut | emitPixel
  | sourceEnds => exact ⟨rfl, rfl⟩

/-- The engine never goes back to IDLE. -/
theorem EngineMove.phase_ne_idle {p : Ports} (hmove : EngineMove p s t) (hp : s.phase ≠ .idle) :
    t.phase ≠ .idle := by
  cases hmove with
  | takeByte b rest t _ _ hbyte =>
    cases hbyte with
    | headerBad | headerGood | corrupt | endMarker | trailing => exact Phase.noConfusion
    | magic | widthLow | widthHigh | heightLow | literalTag | literalLow | literalHigh | index | diff
    | run => exact hp
  | endBody =>
    rw [State.endBody_eq]
    cases s.strict <;> exact Phase.noConfusion
  | headerOut | finish | streamOut | sourceEnds => exact Phase.noConfusion
  | still | emitByte | runPixel | nonRunPixel | emitPixel => exact hp

/-- From a state that meets the invariants a turn that takes what is offered is a move of the engine. -/
theorem State.Inv.step_takeAll (h : s.Inv) {turns : List HostTurn}
    (hs : s.script = HostTurn.takeAll :: turns) :
    ∃ t, step s = .next t ∧ EngineMove ⟨true, true⟩ { s with script := turns } t := by
  have hu : { s with script := turns }.Inv := h.of_sameEngine rfl
  obtain ⟨hsub, -⟩ | ⟨t, ht, hmove⟩ := { s with script := turns }.engineStep_move ⟨true, true⟩
  · exact absurd hsub hu.not_subNeverOccurs
  · exact ⟨t, (step_of_ports hs).trans ht, hmove⟩

/-- A busy engine whose outputs are taken waits for an input only. -/
theorem State.Waits.input_missing (hwait : s.Waits ⟨true, true⟩) (h : s.Inv) (hb : s.busy = true) :
    (s.pixInReady = true ∧ s.pixSrc = []) ∨
      (s.byteInReady = true ∧ s.byteSrc = [] ∧ s.byteSrcEnds = false) := by
  obtain hidle | ⟨-, htake⟩ | ⟨-, htake⟩ | hpix | hbyte | hcount | ⟨hp, hrun⟩ := hwait
  · simp [hb] at hidle
  · simp at htake
  · simp at htake
  · exact .inl hpix
  · exact .inr hbyte
  · exact absurd h.pixCnt_le (Nat.not_le_of_lt hcount)
  · exact absurd (h.run_eq_zero hp) hrun

/-! ### An encode (46_opcode_encoder.md R230, 70_reset_and_hazards.md R380) -/

/-- How many internal steps an encode has still to take. -/
def Phase.encodeRank : Phase → Nat
  | .header => 3
  | .body => 2
  | .trailer => 1
  | .idle => 0
  | .done => 0
  | .error => 0

/-- How many steps an encode has still to take: one for each byte to come, each pixel missing and each
internal step. -/
def State.encodeFuel (s : State) : Nat :=
  (s.pendingBytes []).length + s.missing + s.phase.encodeRank

/-- Every step of a busy encode that is not kept waiting hands over a byte, takes a pixel or goes on to the
next phase. -/
theorem EngineMove.encode_progress (hmove : EngineMove ⟨true, true⟩ s t) (h : s.Inv)
    (hm : s.mode = .encode) (hb : s.busy = true) (hsrc : s.missing ≤ s.pixSrc.length) :
    t.missing + t.phase.encodeRank + s.byteSink.length + 1 =
      s.missing + s.phase.encodeRank + t.byteSink.length := by
  have hnotDecode (hd : s.mode = .decode) : False := Mode.noConfusion (hm.symm.trans hd)
  cases hmove with
  | still hwait =>
    obtain ⟨hready, hnil⟩ | ⟨hready, -⟩ := hwait.input_missing h hb
    · have hin : s.needIn = true := by
        rw [State.pixInReady, Bool.and_eq_true] at hready
        exact hready.2
      obtain ⟨-, -, hlt⟩ := (State.needIn_iff_of_encode hm).1 hin
      rw [hnil, State.missing, List.length_nil] at hsrc
      omega
    · exact (hnotDecode (s.byteInReady_iff.1 hready).1).elim
  | emitByte b rest _ _ _ _ =>
    have hsink : (s.byteSink ++ [b]).length = s.byteSink.length + 1 := by simp
    exact (congrArg (s.missing + s.phase.encodeRank + ·) hsink).symm
  | headerOut _ hp _ => simp only [State.missing, hp, Phase.encodeRank]; omega
  | runPixel rest hg hpx =>
    have hmissing := (hg.take_missing hpx []).2
    simp only [State.missing, State.runPixel_total, State.runPixel_pixCnt, State.runPixel_phase,
      State.runPixel_byteSink] at hmissing ⊢
    omega
  | nonRunPixel px rest hg hpx _ =>
    have hmissing := (hg.take_missing hpx []).2
    simp only [State.missing, State.nonRunPixel_total, State.nonRunPixel_pixCnt,
      State.nonRunPixel_phase, State.nonRunPixel_byteSink] at hmissing ⊢
    omega
  | finish _ hp _ _ =>
    simp only [State.missing, State.finishEncode_total, State.finishEncode_pixCnt,
      State.finishEncode_phase, State.finishEncode_byteSink, hp, Phase.encodeRank]
    omega
  | streamOut _ hp _ => simp only [State.missing, hp, Phase.encodeRank]; omega
  | emitPixel hd _ _ _ => exact (hnotDecode hd).elim
  | endBody hd _ _ _ => exact (hnotDecode hd).elim
  | sourceEnds hready _ _ => exact (hnotDecode (s.byteInReady_iff.1 hready).1).elim
  | takeByte b rest t hready _ _ => exact (hnotDecode (s.byteInReady_iff.1 hready).1).elim

/-- So it uses up fuel, since the bytes handed over and those to come are the same in all. -/
theorem EngineMove.encodeFuel_lt (hmove : EngineMove ⟨true, true⟩ s t) (h : s.Inv)
    (hm : s.mode = .encode) (hb : s.busy = true) (hsrc : s.missing ≤ s.pixSrc.length) :
    t.encodeFuel < s.encodeFuel := by
  have hbytes := congrArg List.length (hmove.allBytes_eq h hm [])
  have hprogress := hmove.encode_progress h hm hb hsrc
  simp only [State.allBytes, List.length_append] at hbytes
  simp only [State.encodeFuel]
  omega

/-- A running or ended encode that will have handed over `out` and left `rest` of its source. -/
structure State.Encoding (out : List Byte) (rest : List Pixel) (s : State) : Prop where
  inv : s.Inv
  mode_eq : s.mode = .encode
  phase_ne_idle : s.phase ≠ .idle
  phase_ne_error : s.phase ≠ .error
  bytes_eq : s.allBytes [] = out
  missing_le : s.missing ≤ s.pixSrc.length
  drop_eq : s.pixSrc.drop s.missing = rest

/-- An encode does not fail once it has been started. -/
theorem EngineMove.phase_ne_error_of_encode {p : Ports} (hmove : EngineMove p s t)
    (hm : s.mode = .encode) (hp : s.phase ≠ .error) : t.phase ≠ .error := fun ht =>
  Mode.noConfusion (hm.symm.trans (hmove.into_error hp ht).1)

theorem EngineMove.keeps_encoding {p : Ports} {out : List Byte} {rest : List Pixel}
    (hmove : EngineMove p s t) (h : s.Encoding out rest) : t.Encoding out rest where
  inv := hmove.keeps_inv h.inv
  mode_eq := hmove.sameConfig.1.trans h.mode_eq
  phase_ne_idle := hmove.phase_ne_idle h.phase_ne_idle
  phase_ne_error := hmove.phase_ne_error_of_encode h.mode_eq h.phase_ne_error
  bytes_eq := (hmove.allBytes_eq h.inv h.mode_eq []).trans h.bytes_eq
  missing_le := by
    have hle := h.missing_le
    simpa using hmove.missing_le h.mode_eq (more := []) (by simpa using hle)
  drop_eq := by
    rw [← h.drop_eq]
    obtain ⟨hsrc, hmissing⟩ | ⟨px, hsrc, hmissing⟩ := hmove.missing_cases h.mode_eq
    · rw [hsrc, hmissing]
    · rw [hsrc, ← hmissing, List.drop_succ_cons]

/-- The turn that a state is at does not matter to it. -/
theorem State.Encoding.of_script {out : List Byte} {rest : List Pixel} (h : s.Encoding out rest)
    (turns : List HostTurn) : { s with script := turns }.Encoding out rest :=
  { h with inv := h.inv.of_sameEngine rfl }

theorem State.encodeFuel_pos (hb : s.busy = true) : 0 < s.encodeFuel := by
  have hrank : 0 < s.phase.encodeRank := by
    obtain hp | hp | hp := s.busy_iff.1 hb <;> simp [hp, Phase.encodeRank]
  exact Nat.lt_of_lt_of_le hrank (Nat.le_add_left ..)

/-- One turn that takes the byte on offer, while the encode runs and after it. -/
theorem State.Encoding.exists_step {out : List Byte} {rest : List Pixel} {turns : List HostTurn}
    (h : s.Encoding out rest) (hs : s.script = HostTurn.takeAll :: turns) :
    ∃ t, step s = .next t ∧ t.Encoding out rest ∧ t.script = turns ∧
      (s.busy = true → t.encodeFuel < s.encodeFuel) ∧ (s.busy = false → t.busy = false) := by
  have hu := h.of_script turns
  obtain ⟨t, ht, hmove⟩ := h.inv.step_takeAll hs
  refine ⟨t, ht, hmove.keeps_encoding hu, hmove.host_eq.1, fun hb => ?_, fun hb => ?_⟩
  · exact hmove.encodeFuel_lt hu.inv hu.mode_eq hb hu.missing_le
  · rw [hmove.eq_of_not_busy hb]
    exact hb

/-- An encode that is over has handed over everything. -/
theorem State.Encoding.at_end {out : List Byte} {rest : List Pixel} (h : s.Encoding out rest)
    (hb : s.busy = false) : s.phase = .done ∧ s.pixSrc = rest ∧ s.byteSink = out := by
  have hp : s.phase = .done := by
    obtain hp | hp | hp := s.not_busy_iff.1 hb
    · exact absurd hp h.phase_ne_idle
    · exact hp
    · exact absurd hp h.phase_ne_error
  have hmissing : s.missing = 0 := by simp [State.missing, h.inv.pixCnt_eq (.inr hp)]
  have hobuf : s.obuf = [] := List.eq_nil_of_length_eq_zero <| Nat.eq_zero_of_le_zero <| by
    simpa [hp, Phase.obufLimit] using h.inv.obuf_le
  have hsrc := h.drop_eq
  have hsink := h.bytes_eq
  rw [hmissing, List.drop_zero] at hsrc
  rw [State.allBytes, State.pendingBytes_of_closed (by simp [hp]) (by simp [hp]), hobuf,
    List.append_nil] at hsink
  exact ⟨hp, hsrc, hsink⟩

/-- A write of 1 to CTRL outside an operation starts one. -/
theorem step_of_start {turns : List HostTurn} (hs : s.script = .writeReg .ctrl 1 :: turns) :
    step s = execStart { s with script := turns } := by
  rw [step_of_writeReg hs]
  rfl

/-- The state after a START of an encode whose `NPIX` is right. -/
def State.startedEncode (s : State) : State :=
  { s.clearOperation.push (packHeader s.width s.height) with
    total := area s.width s.height
    phase := .header }

theorem execStart_of_npix (hb : s.busy = false) (hm : s.mode = .encode)
    (hn : s.npix = area s.width s.height) : execStart s = .next s.startedEncode := by
  rw [execStart_of_encode hb hm, State.startEncode]
  exact congrArg Host.Outcome.next (if_neg fun hne => hne hn)

theorem State.startedEncode_inv (hm : s.mode = .encode) (hn : s.npix = area s.width s.height) :
    s.startedEncode.Inv :=
  State.Inv.of_cleared s (q := .header) (e := .none) (.inr (.inl rfl)) (by simp) (Nat.le_refl 8)
    (fun hd => by simp [hm] at hd) (fun _ _ => ⟨rfl, hn⟩)

/-- A started encode has every pixel missing, and all its bytes to come. -/
theorem State.startedEncode_pendingBytes {pixels rest : List Pixel}
    (hlen : pixels.length = s.width.toNat * s.height.toNat) (hsrc : s.pixSrc = pixels ++ rest) :
    s.startedEncode.missing = pixels.length ∧
      s.startedEncode.pendingBytes [] = encodeImage pixels s.width s.height := by
  have hmissing : s.startedEncode.missing = pixels.length := by
    rw [hlen, ← area_toNat]
    rfl
  refine ⟨hmissing, ?_⟩
  have hsrc' : s.startedEncode.pixSrc = pixels ++ rest := hsrc
  rw [State.pendingBytes_of_open (.inl rfl), hmissing, hsrc', List.append_nil, List.take_left']
  · rfl
  · rfl

theorem State.startedEncode_encoding {pixels rest : List Pixel} (hm : s.mode = .encode)
    (hn : s.npix = area s.width s.height) (hlen : pixels.length = s.width.toNat * s.height.toNat)
    (hsrc : s.pixSrc = pixels ++ rest) :
    s.startedEncode.Encoding (s.byteSink ++ encodeImage pixels s.width s.height) rest := by
  obtain ⟨hmissing, hpending⟩ := State.startedEncode_pendingBytes hlen hsrc
  have hsrc' : s.startedEncode.pixSrc = pixels ++ rest := hsrc
  exact {
    inv := State.startedEncode_inv hm hn
    mode_eq := hm
    phase_ne_idle := Phase.noConfusion
    phase_ne_error := Phase.noConfusion
    bytes_eq := congrArg (s.byteSink ++ ·) hpending
    missing_le := by simp [hmissing, hsrc']
    drop_eq := by rw [hmissing, hsrc', List.drop_left'] ; rfl }

/-- As many turns as the bytes, the pixels and the three internal steps carry a started encode to its end. -/
theorem State.startedEncode_completes {pixels rest : List Pixel} {n : Nat} (hm : s.mode = .encode)
    (hn : s.npix = area s.width s.height) (hlen : pixels.length = s.width.toNat * s.height.toNat)
    (hsrc : s.pixSrc = pixels ++ rest) (hs : s.script = List.replicate n HostTurn.takeAll)
    (hturns : 12 + 4 * pixels.length ≤ n) :
    ∃ t, core.run n s.startedEncode = .next t ∧ t.phase = .done ∧ t.pixSrc = rest ∧
      t.byteSink = s.byteSink ++ encodeImage pixels s.width s.height := by
  have hfuel : s.startedEncode.encodeFuel ≤ n := by
    obtain ⟨hmissing, hpending⟩ := State.startedEncode_pendingBytes hlen hsrc
    have hsize := (encodedSizeBounds s.width s.height pixels hlen).2
    have hrank : s.startedEncode.phase.encodeRank = 3 := rfl
    rw [State.encodeFuel, hpending, hmissing, hrank]
    omega
  obtain ⟨t, ht, hend, hidle⟩ := run_takeAll (fun _ => State.encodeFuel_pos)
    (fun _ _ => State.Encoding.exists_step) n s.startedEncode
    (State.startedEncode_encoding hm hn hlen hsrc) hs fun _ => hfuel
  exact ⟨t, ht, hend.at_end hidle⟩

/-- Settles O59: START, and then the run of the started encode. -/
theorem encodeCompletes : Obligations.EncodeCompletes := by
  intro s pixels rest n hm hb hlen hnpix hsrc hturns hs
  have hn : s.npix = area s.width s.height := (eq_area_iff ..).2 (hnpix.trans hlen)
  have hstart := (step_of_start hs).trans
    (execStart_of_npix (s := { s with script := List.replicate n HostTurn.takeAll }) hb hm hn)
  rw [core_run_succ hstart]
  exact State.startedEncode_completes (s := { s with script := List.replicate n HostTurn.takeAll })
    hm hn hlen hsrc rfl hturns

/-! ### A decode (47_opcode_decoder.md R270, 70_reset_and_hazards.md R380) -/

/-- How many steps a decode has still to take at most: one for each header byte, four for each pixel whose
record has not been read, one for each pixel owed, and the end of the body and the trailer. -/
def State.decodeFuel (s : State) : Nat :=
  match s.phase with
  | .header => (8 - s.sub.toNat) + 4 * (s.width.toNat * s.height.toNat) + 2
  | .body => 4 * (s.total.toNat - s.pixCnt.toNat - s.run.toNat) - s.sub.toNat + s.run.toNat + 2
  | .trailer => 1
  | .idle => 0
  | .done => 0
  | .error => 0

theorem State.decodeFuel_pos (hb : s.busy = true) : 0 < s.decodeFuel := by
  obtain hp | hp | hp := s.busy_iff.1 hb <;> simp [State.decodeFuel, hp]

theorem State.decodeFuel_of_body (hp : s.phase = .body) :
    s.decodeFuel =
      4 * (s.total.toNat - s.pixCnt.toNat - s.run.toNat) - s.sub.toNat + s.run.toNat + 2 := by
  simp [State.decodeFuel, hp]

/-- A header byte is one fewer to come, and the last one brings the body's fuel. -/
theorem ByteMove.decodeFuel_lt_of_header {b : Byte} (hmove : ByteMove s b t) (h : s.Inv)
    (hp : s.phase = .header) : t.decodeFuel < s.decodeFuel := by
  have hnotRecord (hg : s.RecordGuard) : False := Phase.noConfusion (hp.symm.trans hg.2.1)
  have hnotTrailer (hg : s.TrailerGuard) : False := Phase.noConfusion (hp.symm.trans hg.2.1)
  cases hmove with
  | magic want _ hwant =>
    have hlt := sub_lt_four hwant
    have hnext : (s.sub + 1).toNat = s.sub.toNat + 1 := by bv_omega
    simp only [State.decodeFuel, State.magicByte_phase, State.magicByte_sub, State.magicByte_width,
      State.magicByte_height, hp, hnext]
    omega
  | widthLow _ hsub | widthHigh _ hsub | heightLow _ hsub =>
    simp [State.decodeFuel, hp, hsub]
  | headerBad _ hsub _ => simp [State.decodeFuel, hp, hsub]
  | headerGood hg hsub hgood =>
    obtain ⟨-, -, -, hwidth, hheight⟩ := State.header_of_not_judgesBad hgood
    simp [State.decodeFuel, hp, hsub, hg.2.2, h.pixCnt_header hp, hwidth, hheight, area_toNat]
  | literalTag hg | literalLow hg | literalHigh hg | index _ hg | diff _ _ _ hg | run _ hg | corrupt hg =>
    exact (hnotRecord hg).elim
  | endMarker hg | trailing hg => exact (hnotTrailer hg).elim

/-- Where a record byte is asked for, four steps are counted for each missing pixel, less the bytes of its
record that have been taken. -/
theorem State.RecordGuard.decodeFuel_eq (hg : s.RecordGuard) :
    s.decodeFuel = 4 * s.missing - s.sub.toNat + 2 := by
  rw [State.decodeFuel_of_body hg.2.1, run_toNat_eq_zero hg.2.2.1]
  rfl

/-- A record of one pixel leaves one step for that pixel. -/
theorem State.RecordGuard.decodeFuel_produce (hg : s.RecordGuard) (px : Pixel) :
    { s.produce px with sub := 0 }.decodeFuel = 4 * (s.missing - 1) + 3 := by
  have hp : { s.produce px with sub := 0 }.phase = .body := hg.2.1
  rw [State.decodeFuel_of_body hp]
  rfl

theorem State.RecordGuard.decodeFuel_produce_lt (hg : s.RecordGuard) (hsub : s.sub.toNat ≤ 2)
    (px : Pixel) : { s.produce px with sub := 0 }.decodeFuel < s.decodeFuel := by
  have hmissing := hg.missing_ne_zero
  rw [hg.decodeFuel_produce, hg.decodeFuel_eq]
  omega

theorem State.RecordGuard.decodeFuel_leading_lt (hg : s.RecordGuard) (hsub : s.sub = 0) (px : Pixel) :
    (s.produce px).decodeFuel < s.decodeFuel := by
  have hsame : s.produce px = { s.produce px with sub := 0 } := by rw [← hsub]; rfl
  rw [hsame]
  exact hg.decodeFuel_produce_lt (by simp [hsub]) px

/-- A record byte is one of at most three of its pixel, or owes no more pixels than it makes fewer
missing. -/
theorem ByteMove.decodeFuel_lt_of_record {b : Byte} (hmove : ByteMove s b t) (hg : s.RecordGuard) :
    t.decodeFuel < s.decodeFuel := by
  have hmissing := hg.missing_ne_zero
  have hnotHeader (hh : s.HeaderGuard) : False := Phase.noConfusion (hg.2.1.symm.trans hh.2.1)
  have hnotTrailer (ht : s.TrailerGuard) : False := Phase.noConfusion (hg.2.1.symm.trans ht.2.1)
  have hpos : 0 < s.decodeFuel := State.decodeFuel_pos (s.busy_iff.2 (.inr (.inl hg.2.1)))
  cases hmove with
  | literalTag _ hsub _ =>
    have hg' : { s with sub := 1 }.RecordGuard := hg
    have hsame : { s with sub := 1 }.missing = s.missing := rfl
    rw [hg'.decodeFuel_eq, hg.decodeFuel_eq, hsame, hsub]
    simp
    omega
  | literalLow _ hsub =>
    have hg' : { s with hold := b, sub := 2 }.RecordGuard := hg
    have hsame : { s with hold := b, sub := 2 }.missing = s.missing := rfl
    rw [hg'.decodeFuel_eq, hg.decodeFuel_eq, hsame, hsub]
    simp
    omega
  | literalHigh _ hsub => exact hg.decodeFuel_produce_lt (by simp [hsub]) _
  | index i _ hsub _ => exact hg.decodeFuel_leading_lt hsub _
  | diff fr fg fb _ hsub _ => exact hg.decodeFuel_leading_lt hsub _
  | run n _ hsub hi hfit =>
    have hp : { s with run := n + 1 }.phase = .body := hg.2.1
    have hnext : (n + 1).toNat = n.toNat + 1 := run_toNat_add_one (by have := run_field_le hi; omega)
    rw [State.decodeFuel_of_body hp, hg.decodeFuel_eq, State.missing]
    simp only [hnext, hsub]
    simp
    omega
  | corrupt => exact hpos
  | magic _ hh | widthLow hh | widthHigh hh | heightLow hh | headerBad hh | headerGood hh =>
    exact (hnotHeader hh).elim
  | endMarker ht | trailing ht => exact (hnotTrailer ht).elim

/-- The trailer byte ends the decode, one way or the other. -/
theorem ByteMove.decodeFuel_lt_of_trailer {b : Byte} (hmove : ByteMove s b t) (hp : s.phase = .trailer) :
    t.decodeFuel < s.decodeFuel := by
  have hnotHeader (hh : s.HeaderGuard) : False := Phase.noConfusion (hp.symm.trans hh.2.1)
  have hnotRecord (hg : s.RecordGuard) : False := Phase.noConfusion (hp.symm.trans hg.2.1)
  have hpos : 0 < s.decodeFuel := State.decodeFuel_pos (s.busy_iff.2 (.inr (.inr hp)))
  cases hmove with
  | endMarker | trailing => exact hpos
  | magic _ hh | widthLow hh | widthHigh hh | heightLow hh | headerBad hh | headerGood hh =>
    exact (hnotHeader hh).elim
  | literalTag hg | literalLow hg | literalHigh hg | index _ hg | diff _ _ _ hg | run _ hg | corrupt hg =>
    exact (hnotRecord hg).elim

/-- Every byte a decode takes uses up fuel. -/
theorem ByteMove.decodeFuel_lt {b : Byte} (hmove : ByteMove s b t) (h : s.Inv)
    (hready : s.byteInReady = true) : t.decodeFuel < s.decodeFuel := by
  obtain ⟨hm, hrun, hp | ⟨hp, hlt⟩ | hp⟩ := s.byteInReady_iff.1 hready
  · exact hmove.decodeFuel_lt_of_header h hp
  · exact hmove.decodeFuel_lt_of_record ⟨hm, hp, hrun, hlt⟩
  · exact hmove.decodeFuel_lt_of_trailer hp

/-- A pixel handed over is one fewer owed, and none more is missing. -/
theorem State.emitPixel_decodeFuel_lt (h : s.Inv) (hm : s.mode = .decode) (hp : s.phase = .body)
    (hrun : 0 < s.run.toNat) : s.emitPixel.decodeFuel < s.decodeFuel := by
  have howed := h.owed_le hm
  have hcount : (s.pixCnt + 1).toNat = s.pixCnt.toNat + 1 :=
    toNat_add_one_of_lt (b := s.total) (by omega)
  have hdown : (s.run - 1).toNat = s.run.toNat - 1 := by bv_omega
  have hp' : s.emitPixel.phase = .body := hp
  rw [State.decodeFuel_of_body hp', State.decodeFuel_of_body hp]
  simp only [State.emitPixel, hcount, hdown]
  omega

theorem State.endBody_decodeFuel_lt (hp : s.phase = .body) : s.endBody.decodeFuel < s.decodeFuel := by
  have hpos : 1 < s.decodeFuel := by
    rw [State.decodeFuel_of_body hp]
    omega
  rw [State.endBody_eq]
  cases s.strict with
  | true => exact hpos
  | false => exact Nat.lt_of_succ_lt hpos

/-- Every step of a busy decode whose source has bytes or has ended uses up fuel. -/
theorem EngineMove.decodeFuel_lt (hmove : EngineMove ⟨true, true⟩ s t) (h : s.Inv)
    (hm : s.mode = .decode) (hb : s.busy = true) (hends : s.byteSrcEnds = true) :
    t.decodeFuel < s.decodeFuel := by
  have hnotEncode (he : s.mode = .encode) : False := Mode.noConfusion (hm.symm.trans he)
  cases hmove with
  | still hwait =>
    obtain ⟨hready, -⟩ | ⟨-, -, hopen⟩ := hwait.input_missing h hb
    · simp [State.pixInReady, hm] at hready
    · exact Bool.noConfusion (hends.symm.trans hopen)
  | emitByte b rest he _ _ _ => exact (hnotEncode he).elim
  | headerOut he _ _ => exact (hnotEncode he).elim
  | runPixel rest hg _ => exact (hnotEncode hg.1).elim
  | nonRunPixel px rest hg _ _ => exact (hnotEncode hg.1).elim
  | finish he _ _ _ => exact (hnotEncode he).elim
  | streamOut he _ _ => exact (hnotEncode he).elim
  | emitPixel _ hp hrun _ => exact State.emitPixel_decodeFuel_lt h hm hp hrun
  | endBody _ hp _ _ => exact State.endBody_decodeFuel_lt hp
  | sourceEnds => exact State.decodeFuel_pos hb
  | takeByte b rest t hready _ hbyte => exact hbyte.decodeFuel_lt (h.of_sameEngine rfl) hready

/-- A running or ended decode of a finite source that will have come to `all`. -/
structure State.Decoding (all : Decoded) (s : State) : Prop where
  inv : s.Inv
  mode_eq : s.mode = .decode
  ends : s.byteSrcEnds = true
  phase_ne_idle : s.phase ≠ .idle
  all_eq : s.allDecoded [] = all

theorem EngineMove.keeps_decoding {p : Ports} {all : Decoded} (hmove : EngineMove p s t)
    (h : s.Decoding all) : t.Decoding all where
  inv := hmove.keeps_inv h.inv
  mode_eq := hmove.sameConfig.1.trans h.mode_eq
  ends := hmove.host_eq.2.trans h.ends
  phase_ne_idle := hmove.phase_ne_idle h.phase_ne_idle
  all_eq := (hmove.allDecoded_eq h.inv h.mode_eq fun _ => rfl).trans h.all_eq

theorem State.Decoding.of_script {all : Decoded} (h : s.Decoding all) (turns : List HostTurn) :
    { s with script := turns }.Decoding all :=
  { h with inv := h.inv.of_sameEngine rfl }

/-- One turn that takes the pixel on offer, while the decode runs and after it. -/
theorem State.Decoding.exists_step {all : Decoded} {turns : List HostTurn} (h : s.Decoding all)
    (hs : s.script = HostTurn.takeAll :: turns) :
    ∃ t, step s = .next t ∧ t.Decoding all ∧ t.script = turns ∧
      (s.busy = true → t.decodeFuel < s.decodeFuel) ∧ (s.busy = false → t.busy = false) := by
  have hu := h.of_script turns
  obtain ⟨t, ht, hmove⟩ := h.inv.step_takeAll hs
  refine ⟨t, ht, hmove.keeps_decoding hu, hmove.host_eq.1, fun hb => ?_, fun hb => ?_⟩
  · exact hmove.decodeFuel_lt hu.inv hu.mode_eq hb hu.ends
  · rw [hmove.eq_of_not_busy hb]
    exact hb

/-- The phase and `err` in which a decode ends that ends like `e`. -/
def State.EndsAs (s : State) : DecodeEnd → Prop
  | .done => s.phase = .done
  | .failed e => s.phase = .error ∧ s.err = e

/-- A decode that is over has ended as it was to end, and nothing is to come. -/
theorem State.Decoding.at_end {all : Decoded} (h : s.Decoding all) (hb : s.busy = false) :
    s.EndsAs all.fin ∧ s.pixSink = all.pixels ∧ s.byteSrc = all.left := by
  rw [← h.all_eq]
  obtain hp | hp | hp := s.not_busy_iff.1 hb
  · exact absurd hp h.phase_ne_idle
  · simp [State.allDecoded, State.pendingDecode, State.EndsAs, hp]
  · simp [State.allDecoded, State.pendingDecode, State.EndsAs, hp]

/-- The state after a START of a decode. -/
def State.startedDecode (s : State) : State := { s.clearOperation with phase := .header }

/-- A started decode comes to what the decode function gives for the whole source. -/
theorem State.startedDecode_decoding (hm : s.mode = .decode) (hends : s.byteSrcEnds = true) :
    s.startedDecode.Decoding
      (.after s.pixSink (decodeSource s.byteSrc s.width s.height s.strict)) where
  inv := State.Inv.of_cleared s (q := .header) (e := .none) (.inr (.inl rfl)) (by simp) (by simp)
    (fun _ => ⟨rfl, rfl⟩) (fun he => by simp [hm] at he)
  mode_eq := hm
  ends := hends
  phase_ne_idle := Phase.noConfusion
  all_eq := by
    have hbytes : s.startedDecode.takenHeader ++ (s.startedDecode.byteSrc ++ []) = s.byteSrc :=
      List.append_nil s.byteSrc
    rw [State.allDecoded, State.pendingDecode_of_header rfl, hbytes]
    rfl

theorem State.startedDecode_completes {n : Nat} (hm : s.mode = .decode) (hends : s.byteSrcEnds = true)
    (hs : s.script = List.replicate n HostTurn.takeAll)
    (hturns : 12 + 4 * (s.width.toNat * s.height.toNat) ≤ n) :
    ∃ t, core.run n s.startedDecode = .next t ∧
      t.EndsAs (decodeSource s.byteSrc s.width s.height s.strict).fin ∧
      t.pixSink = s.pixSink ++ (decodeSource s.byteSrc s.width s.height s.strict).pixels ∧
      t.byteSrc = (decodeSource s.byteSrc s.width s.height s.strict).left := by
  have hfuel : s.startedDecode.decodeFuel ≤ n := by
    have hbytes : s.startedDecode.decodeFuel = 8 + 4 * (s.width.toNat * s.height.toNat) + 2 := rfl
    omega
  obtain ⟨t, ht, hend, hidle⟩ := run_takeAll (fun _ => State.decodeFuel_pos)
    (fun _ _ => State.Decoding.exists_step) n s.startedDecode
    (State.startedDecode_decoding hm hends) hs fun _ => hfuel
  exact ⟨t, ht, hend.at_end hidle⟩

/-- Settles O60: START, and then the run of the started decode. -/
theorem decodeCompletes : Obligations.DecodeCompletes := by
  intro s n hm hb hends hturns hs
  have hstart := (step_of_start hs).trans
    (execStart_of_decode (s := { s with script := List.replicate n HostTurn.takeAll }) hb hm)
  rw [core_run_succ hstart]
  obtain ⟨t, ht, hend, hpixels, hleft⟩ :=
    State.startedDecode_completes (s := { s with script := List.replicate n HostTurn.takeAll })
      hm hends rfl hturns
  refine ⟨t, ht, ?_, hpixels, hleft⟩
  simp only at hend
  cases hfin : (decodeSource s.byteSrc s.width s.height s.strict).fin with
  | done => rwa [hfin] at hend
  | failed e => rwa [hfin] at hend

end

end Sys2Proof.Machine
end

section
/-!
PROOFS. Single instructions and single steps of the engine, written out: the decoder's bytes
(47_opcode_decoder.md R262), the encoder's pixels (46_opcode_encoder.md R224 to R229), suspension, the host
commands and the register reads: O12, O16, O17, O20, O22, O23, O26, O27, O29 to O34, O39, O41, O56.
-/

namespace Sys2Proof.Machine

section
variable {s : State}

/-! ### Instructions -/

theorem exec_reserved (x : BitVec 6) (s : State) : exec (.reserved x) s = execReserved x s := rfl

/-- Settles O17: at a leading position the reserved tag does its own work, which raises. -/
theorem reservedResult : Obligations.ReservedResult := by
  intro x s hg hsub
  rw [exec_reserved, execReserved, hg.recordOutcome_eq hsub, State.raise]

/-- The pixel 0x0000 is inserted into slot 0 (40_pixel_cache.md R128). -/
theorem Cache.insertPixel_zero (c : Cache) : c.insertPixel 0 = c.set 0 0 := rfl

/-- Settles O12: a keyed slot whose pixel hashes elsewhere holds 0x0000, and the record does what INDEX
does with that pixel. -/
theorem indexOfUnwrittenSlot : Obligations.IndexOfUnwrittenSlot := by
  intro idx s hg hsub hkeyed hne
  have hzero : s.cache.slot idx = 0 := (hkeyed idx).resolve_right hne
  refine ⟨hzero, ?_⟩
  rw [indexResult idx s hg hsub, hzero, Cache.insertPixel_zero]

/-- Settles O23: while an operation runs START is ignored. -/
theorem startIgnoredWhileBusy : Obligations.StartIgnoredWhileBusy := by
  intro s hp
  rw [exec_start, execStart, if_pos (s.busy_iff.2 hp)]

/-- What START makes of the engine's part of a state that it is accepted in: the items it does not set are
those of the configuration. -/
theorem State.started_sameEngine {s' : State} (hconfig : s.sameConfig s') :
    s.clearOperation.startEncode.sameEngine s'.clearOperation.startEncode ∧
      s.clearOperation.startDecode.sameEngine s'.clearOperation.startDecode := by
  obtain ⟨hm, hstrict, hw, hh, hn⟩ := hconfig
  refine ⟨?_, by simp only [State.sameEngine, State.startDecode, State.clearOperation, hm, hstrict, hw, hh, hn]⟩
  by_cases hnpix : s.npix = area s.width s.height
  · simp only [State.sameEngine, State.startEncode, State.push, State.clearOperation, hm, hstrict, hw, hh,
      hn, hnpix, ne_eq, not_true_eq_false, if_false]
  · simp only [State.sameEngine, State.startEncode, State.raise, State.clearOperation, hm, hstrict, hw, hh,
      hn, hnpix, ne_eq, not_false_eq_true, if_true]

/-- Settles O26: START is accepted in both states, in the same mode, and its two parts look at the
configuration alone. -/
theorem startForgetsTheLastOperation : Obligations.StartForgetsTheLastOperation := by
  intro s s' t t' hb hb' hconfig ht ht'
  obtain ⟨hencode, hdecode⟩ := State.started_sameEngine hconfig
  have hmode : s'.mode = s.mode := hconfig.1
  rw [exec_start] at ht ht'
  cases hm : s.mode with
  | encode =>
    rw [execStart_of_encode hb hm] at ht
    rw [execStart_of_encode hb' (hmode.trans hm)] at ht'
    cases ht
    cases ht'
    exact hencode
  | decode =>
    rw [execStart_of_decode hb hm] at ht
    rw [execStart_of_decode hb' (hmode.trans hm)] at ht'
    cases ht
    cases ht'
    exact hdecode

/-- Settles O27: RESET is the reset state with the host's side kept. -/
theorem resetResult : Obligations.ResetResult := by
  intro s
  rw [exec_reset, execReset, State.engineReset]
  rfl

/-- Settles O29: thirteen steps, by evaluation. -/
theorem emptyImageAfterReset : Obligations.EmptyImageAfterReset := ⟨_, rfl, rfl, rfl⟩

/-! ### A byte is taken (47_opcode_decoder.md R262) -/

/-- Where a byte is asked for and one is on offer, the step is exec of the item it belongs to. -/
theorem step_of_byte {p : Ports} {turns : List HostTurn} {b : Byte} {rest : List Byte}
    (hready : s.byteInReady = true) (hs : s.script = .ports p :: turns) (hsrc : s.byteSrc = b :: rest) :
    step s = exec (s.itemOf b) { s with script := turns, byteSrc := rest } := by
  have hready' : { s with script := turns }.byteInReady = true := hready
  rw [step_of_ports hs, State.engineStep_of_decode (s := { s with script := turns }) p
    (s.byteInReady_iff.1 hready).1, State.decodeStep_of_byteInReady p hready', State.takeByte]
  simp only [hsrc]
  rfl

theorem State.RecordGuard.byteInReady (hg : s.RecordGuard) : s.byteInReady = true :=
  s.byteInReady_iff.2 ⟨hg.1, hg.2.2.1, .inr (.inl ⟨hg.2.1, hg.2.2.2⟩)⟩

theorem State.HeaderGuard.byteInReady (hg : s.HeaderGuard) : s.byteInReady = true :=
  s.byteInReady_iff.2 ⟨hg.1, hg.2.2, .inl hg.2.1⟩

theorem State.TrailerGuard.byteInReady (hg : s.TrailerGuard) : s.byteInReady = true :=
  s.byteInReady_iff.2 ⟨hg.1, hg.2.2, .inr (.inr hg.2.1)⟩

/-- A leading byte, as the first byte of a record, is read as that record but for the pixel of a
literal, which stands in the next two bytes. -/
theorem leadingItem_of_encode {i : Instr} {b : Byte} (hrun : ∀ n, i = .run n → n.toNat ≤ 61)
    (henc : encode i = .record (encodeBytes i)) (hb : (encodeBytes i)[0]? = some b) :
    leadingItem b = i ∨ ∃ px, i = .rgb565 px ∧ leadingItem b = .rgb565 0 := by
  cases i with
  | index i =>
    cases hb
    exact .inl (leadingItem_packIndex i)
  | diff fr fg fb =>
    cases hb
    exact .inl (leadingItem_packDiff fr fg fb)
  | reserved x =>
    cases hb
    exact .inl (leadingItem_packReserved x)
  | run n =>
    cases hb
    exact .inl (leadingItem_packRun (hrun n rfl))
  | rgb565 px =>
    cases hb
    exact .inr ⟨px, rfl, rfl⟩
  | endMarker =>
    cases hb
    exact .inl leadingItem_trailer
  | header | start | reset => cases henc

/-- A byte behind the first of a record is one of the two data bytes of a literal. -/
theorem literal_of_encodeBytes {i : Instr} {k : Nat} {b : Byte} (hk : k ≠ 0)
    (henc : encode i = .record (encodeBytes i)) (hb : (encodeBytes i)[k]? = some b) :
    ∃ px, i = .rgb565 px ∧ ((k = 1 ∧ b = loByte px) ∨ (k = 2 ∧ b = hiByte px)) := by
  obtain ⟨k, rfl⟩ := Nat.exists_eq_succ_of_ne_zero hk
  cases i with
  | rgb565 px =>
    match k with
    | 0 => exact ⟨px, rfl, .inl ⟨rfl, (Option.some.inj hb).symm⟩⟩
    | 1 => exact ⟨px, rfl, .inr ⟨rfl, (Option.some.inj hb).symm⟩⟩
    | _ + 2 => cases hb
  | index | diff | reserved | run | endMarker => cases hb
  | header | start | reset => cases henc

/-- Inside a header the byte whose turn it is decides what HEADER does. -/
theorem State.exec_itemOf_header (hp : s.phase = .header) {i : Instr} {b : Byte}
    (henc : encode i = .header (encodeBytes i)) (hb : (encodeBytes i)[s.sub.toNat]? = some b) :
    exec (s.itemOf b) s = exec i s := by
  cases i with
  | header m0 m1 m2 m3 w h =>
    have hlt : s.sub.toNat < 8 := (List.getElem?_eq_some_iff.1 hb).1
    have hplace : s.sub = 0 ∨ s.sub = 1 ∨ s.sub = 2 ∨ s.sub = 3 ∨ s.sub = 4 ∨ s.sub = 5 ∨ s.sub = 6 ∨
        s.sub = 7 := by bv_omega
    rw [State.itemOf, if_pos hp, exec_header, exec_header]
    obtain hsub | hsub | hsub | hsub | hsub | hsub | hsub | hsub := hplace
    all_goals
      rw [hsub] at hb
      cases hb
      simp [execHeader, hsub]
  | index | diff | reserved | run | rgb565 | endMarker | start | reset => cases henc

/-- Inside a record likewise. -/
theorem State.RecordGuard.exec_itemOf (hg : s.RecordGuard) {i : Instr} {b : Byte}
    (hrun : ∀ n, i = .run n → n.toNat ≤ 61) (henc : encode i = .record (encodeBytes i))
    (hb : (encodeBytes i)[s.sub.toNat]? = some b) : exec (s.itemOf b) s = exec i s := by
  rw [hg.itemOf_eq]
  by_cases h0 : s.sub = 0
  · rw [h0] at hb
    rw [if_pos h0]
    obtain hi | ⟨px, rfl, hi⟩ := leadingItem_of_encode hrun henc hb
    · rw [hi]
    · rw [hi, exec_rgb565, exec_rgb565, hg.execRgb565_tag h0, hg.execRgb565_tag h0]
  · have hk : s.sub.toNat ≠ 0 := fun hk => h0 (BitVec.eq_of_toNat_eq hk)
    rw [if_neg h0]
    obtain ⟨px, rfl, ⟨hk1, rfl⟩ | ⟨hk2, rfl⟩⟩ := literal_of_encodeBytes hk henc hb
    · have h1 : s.sub = 1 := BitVec.eq_of_toNat_eq hk1
      rw [exec_rgb565, exec_rgb565, hg.execRgb565_low h1, hg.execRgb565_low h1, loByte_ofBytes]
    · have h2 : s.sub = 2 := BitVec.eq_of_toNat_eq hk2
      rw [exec_rgb565, exec_rgb565, hg.execRgb565_high h2, hg.execRgb565_high h2, hiByte_ofBytes]

/-- And at the trailer position. -/
theorem State.TrailerGuard.exec_itemOf (hg : s.TrailerGuard) {i : Instr} {b : Byte}
    (hrun : ∀ n, i = .run n → n.toNat ≤ 61) (henc : encode i = .record (encodeBytes i))
    (hb : (encodeBytes i)[0]? = some b) : exec (s.itemOf b) s = exec i s := by
  rw [hg.itemOf_eq]
  obtain hi | ⟨px, rfl, hi⟩ := leadingItem_of_encode hrun henc hb
  · rw [hi]
  · rw [hi, exec_rgb565, exec_rgb565, hg.execRgb565_eq, hg.execRgb565_eq]

/-- Settles O30: the step is exec of the item the byte belongs to, and that item does what the whole item
does, at each of the decoder's three positions. -/
theorem stepRunsDecodedItem : Obligations.StepRunsDecodedItem := by
  intro s i p turns b rest hrun hready hs hsrc henc hb
  rw [step_of_byte hready hs hsrc]
  obtain ⟨hm, hrun0, hp | ⟨hp, hlt⟩ | hp⟩ := s.byteInReady_iff.1 hready
  · have hsub : ¬ s.phase = .trailer := by simp [hp]
    rw [if_pos hp] at henc
    rw [if_neg hsub] at hb
    exact State.exec_itemOf_header (s := { s with script := turns, byteSrc := rest }) hp henc hb
  · have hsub : ¬ s.phase = .trailer := by simp [hp]
    have hheader : ¬ s.phase = .header := by simp [hp]
    rw [if_neg hheader] at henc
    rw [if_neg hsub] at hb
    exact State.RecordGuard.exec_itemOf (s := { s with script := turns, byteSrc := rest })
      ⟨hm, hp, hrun0, hlt⟩ hrun henc hb
  · have hheader : ¬ s.phase = .header := by simp [hp]
    rw [if_neg hheader] at henc
    rw [if_pos hp] at hb
    exact State.TrailerGuard.exec_itemOf (s := { s with script := turns, byteSrc := rest })
      ⟨hm, hp, hrun0⟩ hrun henc hb

/-- Settles O22: at the trailer position a byte that is not END raises, whatever it stands for. -/
theorem trailerByteNotEnd : Obligations.TrailerByteNotEnd := by
  intro s p turns b rest hg hs hsrc hb
  rw [step_of_byte hg.byteInReady hs hsrc, hg.itemOf_eq]
  exact State.TrailerGuard.exec_of_ne (s := { s with script := turns, byteSrc := rest }) hg hb

/-- A leading byte on offer is exec of what it stands for. -/
theorem State.RecordGuard.step_leading (hg : s.RecordGuard) (hsub : s.sub = 0) {p : Ports}
    {turns : List HostTurn} {b : Byte} {rest : List Byte} (hs : s.script = .ports p :: turns)
    (hsrc : s.byteSrc = b :: rest) :
    step s = exec (leadingItem b) { s with script := turns, byteSrc := rest } := by
  rw [step_of_byte hg.byteInReady hs hsrc, hg.itemOf_eq, if_pos hsub]

/-- A one-byte record of a pixel on offer produces that pixel (42_index.md R161, 43_diff.md R178). -/
theorem State.RecordGuard.step_produce (hg : s.RecordGuard) (hsub : s.sub = 0) {p : Ports}
    {turns : List HostTurn} {b : Byte} {rest : List Byte} (hs : s.script = .ports p :: turns)
    (hsrc : s.byteSrc = b :: rest) {px : Pixel}
    (hi : (∃ i, leadingItem b = .index i ∧ s.cache.slot i = px) ∨
      ∃ fr fg fb, leadingItem b = .diff fr fg fb ∧ applyDelta s.prev fr fg fb = px) :
    step s = .next ({ s with script := turns, byteSrc := rest }.produce px) := by
  have hrecord := State.RecordGuard.recordOutcome_eq (s := { s with script := turns, byteSrc := rest }) hg
    hsub
  rw [hg.step_leading hsub hs hsrc]
  obtain ⟨i, hi, rfl⟩ | ⟨fr, fg, fb, hi, rfl⟩ := hi
  · rw [hi, exec_index, execIndex, hrecord]
  · rw [hi, exec_diff, execDiff, hrecord]

/-! The three bytes of a literal on offer, one step each (44_literal.md R191). -/

section
variable {p : Ports} {turns : List HostTurn} {b : Byte} {rest : List Byte}

theorem State.RecordGuard.step_literalTag (hg : s.RecordGuard) (hsub : s.sub = 0)
    (hs : s.script = .ports p :: turns) (hsrc : s.byteSrc = Config.literalTag :: rest) :
    step s = .next { s with script := turns, byteSrc := rest, sub := 1 } := by
  rw [hg.step_leading hsub hs hsrc]
  exact State.RecordGuard.execRgb565_tag (s := { s with script := turns, byteSrc := rest }) hg hsub 0

theorem State.RecordGuard.step_literalLow (hg : s.RecordGuard) (hsub : s.sub = 1)
    (hs : s.script = .ports p :: turns) (hsrc : s.byteSrc = b :: rest) :
    step s = .next { s with script := turns, byteSrc := rest, hold := b, sub := 2 } := by
  have hlow := State.RecordGuard.execRgb565_low (s := { s with script := turns, byteSrc := rest }) hg hsub
    (ofBytes b b)
  rw [loByte_ofBytes] at hlow
  rw [step_of_byte hg.byteInReady hs hsrc, hg.itemOf_eq, if_neg (by simp [hsub])]
  exact hlow

theorem State.RecordGuard.step_literalHigh (hg : s.RecordGuard) (hsub : s.sub = 2)
    (hs : s.script = .ports p :: turns) (hsrc : s.byteSrc = b :: rest) :
    step s = .next { s with
      script := turns, byteSrc := rest, cache := s.cache.insertPixel (b ++ s.hold), prev := b ++ s.hold
      run := 1, sub := 0 } := by
  have hhigh := State.RecordGuard.execRgb565_high (s := { s with script := turns, byteSrc := rest }) hg
    hsub (ofBytes b b)
  rw [hiByte_ofBytes] at hhigh
  rw [step_of_byte hg.byteInReady hs hsrc, hg.itemOf_eq, if_neg (by simp [hsub])]
  exact hhigh

end

/-- Settles O16: the three steps, one after the other. -/
theorem literalTakenWhole : Obligations.LiteralTakenWhole := by
  intro s p q r turns lo hi rest hg hsub hs hsrc
  have htag := hg.step_literalTag hsub hs hsrc
  have hlow := State.RecordGuard.step_literalLow
    (s := { s with script := .ports q :: .ports r :: turns, byteSrc := lo :: hi :: rest, sub := 1 })
    hg rfl rfl rfl
  have hhigh := State.RecordGuard.step_literalHigh
    (s := { s with script := .ports r :: turns, byteSrc := hi :: rest, hold := lo, sub := 2 })
    hg rfl rfl rfl
  rw [core_run_succ htag, core_run_succ hlow, core_run_succ hhigh, hsub]
  rfl

/-- Settles O56: the record chosen is a one-byte record, whose step produces the pixel, or a literal. -/
theorem lockstepOfOnePixel : Obligations.LockstepOfOnePixel := by
  intro d px served turns rest hg hsub _ hlen hs hsrc
  obtain ⟨hslot, hc⟩ | ⟨-, hfits, hc⟩ | ⟨-, -, hc⟩ := choose_cases d.prev px d.cache
  · rw [hc] at hlen hsrc
    obtain ⟨p, rfl⟩ := List.length_eq_one_iff.1 hlen
    have hstep := hg.step_produce hsub (turns := turns) hs (rest := rest) hsrc
      (.inl ⟨_, leadingItem_packIndex _, hslot⟩)
    exact ⟨_, core_run_succ hstep 0, rfl, rfl, rfl, hsub, hg.2.1, rfl, rfl⟩
  · rw [hc] at hlen hsrc
    obtain ⟨p, rfl⟩ := List.length_eq_one_iff.1 hlen
    have hstep := hg.step_produce hsub (turns := turns) hs (rest := rest) hsrc
      (.inr ⟨_, _, _, leadingItem_packDiff _ _ _, applyDelta_delta hfits⟩)
    exact ⟨_, core_run_succ hstep 0, rfl, rfl, rfl, hsub, hg.2.1, rfl, rfl⟩
  · rw [hc] at hlen hsrc
    match served, hlen with
    | [p, q, r], _ =>
      have hrun := literalTakenWhole d p q r turns (loByte px) (hiByte px) rest hg hsub hs hsrc
      have hpx : hiByte px ++ loByte px = px := ofBytes_loByte_hiByte px
      rw [hpx] at hrun
      exact ⟨_, hrun, rfl, rfl, rfl, hsub, hg.2.1, rfl, rfl⟩

/-! ### A header is taken whole (45_header_end.md R202, R203) -/

/-- The bytes of the header of a stream of `w` by `h` pixels. -/
def headerBytesOf (w h : BitVec 16) : List Byte :=
  [0x71, 0x35, 0x36, 0x35, w.extractLsb' 0 8, w.extractLsb' 8 8, h.extractLsb' 0 8, h.extractLsb' 8 8]

/-- `s` inside a right header of dimensions `w` and `h`, the first `k` of its eight bytes taken. -/
def State.insideHeader (s : State) (w h : BitVec 16) (k : Nat) (turns : List HostTurn) (bytes : List Byte) :
    State :=
  { s with
    script := turns
    byteSrc := bytes
    sub := BitVec.ofNat 4 k
    hdrW := if k ≤ 4 then s.hdrW else if k = 5 then setLoByte s.hdrW (loByte w) else w
    hdrH := if k ≤ 6 then s.hdrH else setLoByte s.hdrH (loByte h) }

/-- A header byte on offer is exec of the whole header. -/
theorem State.HeaderGuard.step_header (hg : s.HeaderGuard) {p : Ports} {turns : List HostTurn} {b : Byte}
    {rest : List Byte} (hs : s.script = .ports p :: turns) (hsrc : s.byteSrc = b :: rest)
    {w h : BitVec 16} (hb : (headerBytesOf w h)[s.sub.toNat]? = some b) :
    step s = exec (.header 0x71 0x35 0x36 0x35 w h) { s with script := turns, byteSrc := rest } := by
  rw [step_of_byte hg.byteInReady hs hsrc]
  exact State.exec_itemOf_header (s := { s with script := turns, byteSrc := rest }) hg.2.1 rfl hb

/-- The two bytes of a dimension, taken one after the other, are that dimension. -/
theorem setHiByte_setLoByte (v w : BitVec 16) : setHiByte (setLoByte v (loByte w)) (hiByte w) = w := by
  rw [setHiByte_eq, setLoByte_eq, loByte_ofBytes, ofBytes_loByte_hiByte]

/-- Each of the first seven bytes goes to its place. -/
theorem State.HeaderGuard.step_insideHeader (hg : s.HeaderGuard) {w h : BitVec 16} {k : Nat} (hk : k < 7)
    {p : Ports} {turns : List HostTurn} {b : Byte} {rest : List Byte}
    (hb : (headerBytesOf w h)[k]? = some b) :
    step (s.insideHeader w h k (.ports p :: turns) (b :: rest)) =
      .next (s.insideHeader w h (k + 1) turns rest) := by
  have hplace : (BitVec.ofNat 4 k).toNat = k := (BitVec.toNat_ofNat ..).trans (Nat.mod_eq_of_lt (by omega))
  have hstep := State.HeaderGuard.step_header
    (s := s.insideHeader w h k (.ports p :: turns) (b :: rest)) hg rfl rfl (hplace.symm ▸ hb)
  obtain ⟨hmagic0, hmagic1, hmagic2, hmagic3, hwl, hwh, hhl⟩ :=
    headerBytes 0x71 0x35 0x36 0x35 w h (s.insideHeader w h k turns rest) hg
  refine hstep.trans ?_
  match k, hk with
  | 0, _ => exact hmagic0 rfl
  | 1, _ => exact hmagic1 rfl
  | 2, _ => exact hmagic2 rfl
  | 3, _ => exact hmagic3 rfl
  | 4, _ => exact hwl rfl
  | 5, _ =>
    have hwidth := setHiByte_setLoByte s.hdrW w
    rw [setHiByte, hiByte, loByte] at hwidth
    refine (hwh rfl).trans ?_
    simp [State.insideHeader, hwidth]
  | 6, _ => exact hhl rfl

/-- The eighth byte completes the height and has the header judged. -/
theorem State.HeaderGuard.step_headerLast (hg : s.HeaderGuard) {w h : BitVec 16} (hbad : s.hdrBad = false)
    {p : Ports} {turns : List HostTurn} {rest : List Byte} :
    step (s.insideHeader w h 7 (.ports p :: turns) (hiByte h :: rest)) =
      if w = 0 ∨ h = 0 ∨ w ≠ s.width ∨ h ≠ s.height then
        .next { s with
          script := turns, byteSrc := rest, hdrW := w, hdrH := h, sub := 7
          phase := .error, err := .invalidHeader }
      else
        .next { s with
          script := turns, byteSrc := rest, hdrW := w, hdrH := h, sub := 0
          phase := .body, total := BitVec.ofNat 32 (w.toNat * h.toNat) } := by
  have hheight : (h.extractLsb' 8 8 ++ (setLoByte s.hdrH (loByte h)).extractLsb' 0 8 : BitVec 16) = h :=
    setHiByte_setLoByte s.hdrH h
  have hjudge := headerCompletion 0x71 0x35 0x36 0x35 w h (s.insideHeader w h 7 turns rest) hg rfl
  refine (State.HeaderGuard.step_header
    (s := s.insideHeader w h 7 (.ports p :: turns) (hiByte h :: rest)) hg rfl rfl rfl).trans
    (hjudge.trans ?_)
  simp [State.insideHeader, hheight, hbad]

/-- Eight steps from the start of a header: seven bytes to their places and the one that completes it. -/
theorem State.HeaderGuard.run_header (hg : s.HeaderGuard) (w h : BitVec 16)
    (p0 p1 p2 p3 p4 p5 p6 p7 : Ports) (turns : List HostTurn) (rest : List Byte) :
    core.run 8 (s.insideHeader w h 0
        (.ports p0 :: .ports p1 :: .ports p2 :: .ports p3 :: .ports p4 :: .ports p5 :: .ports p6 ::
          .ports p7 :: turns) (headerBytesOf w h ++ rest)) =
      core.run 1 (s.insideHeader w h 7 (.ports p7 :: turns) (hiByte h :: rest)) := by
  simp only [headerBytesOf, List.cons_append, List.nil_append]
  rw [core_run_succ (hg.step_insideHeader (k := 0) (by decide) rfl),
    core_run_succ (hg.step_insideHeader (k := 1) (by decide) rfl),
    core_run_succ (hg.step_insideHeader (k := 2) (by decide) rfl),
    core_run_succ (hg.step_insideHeader (k := 3) (by decide) rfl),
    core_run_succ (hg.step_insideHeader (k := 4) (by decide) rfl),
    core_run_succ (hg.step_insideHeader (k := 5) (by decide) rfl),
    core_run_succ (hg.step_insideHeader (k := 6) (by decide) rfl)]
  rfl

theorem core_run_one (s : State) : core.run 1 s = step s := by
  have hcore : core.step s = step s := rfl
  simp only [Host.Core.run, hcore]
  cases step s <;> rfl

/-- Settles O20: the eight steps from the state as it stands. -/
theorem headerTakenWhole : Obligations.HeaderTakenWhole := by
  intro s served turns w h rest hg hsub hbad hlen hs hsrc
  match served, hlen with
  | [p0, p1, p2, p3, p4, p5, p6, p7], _ =>
    have hstart : s.insideHeader w h 0 s.script s.byteSrc = s := by
      have hzero : BitVec.ofNat 4 0 = s.sub := hsub.symm
      rw [State.insideHeader, if_pos (by decide), if_pos (by decide), hzero]
    rw [← hstart, hs, hsrc]
    exact (hg.run_header w h p0 p1 p2 p3 p4 p5 p6 p7 turns rest).trans
      ((core_run_one _).trans (hg.step_headerLast hbad))

/-! ### Host commands and register reads (48_host_commands.md R301 to R307) -/

theorem State.writeReg_ctrl_of_bit0 (s : State) {v : Word} (h1 : v.getLsbD 1 = false)
    (h0 : v.getLsbD 0 = true) : s.writeReg .ctrl v = exec .start s := by
  have hdecode : decodeControl v = .ok .start := by
    rw [decodeControl, h1, h0]
    rfl
  simp [State.writeReg, hdecode]

/-- Settles O31: the write by its two command bits. -/
theorem stepRunsHostCommand : Obligations.StepRunsHostCommand := by
  intro s v turns hs
  rw [step_of_writeReg hs]
  exact ⟨fun h1 => State.writeReg_ctrl_of_bit1 _ h1, fun h1 h0 => State.writeReg_ctrl_of_bit0 _ h1 h0,
    fun h1 h0 => State.writeReg_ctrl_of_no_bit _ h1 h0⟩

/-- `CFG` as a number. -/
theorem State.cfgWord_toNat (s : State) :
    s.cfgWord.toNat = (if s.mode = .decode then 1 else 0) + (if s.strict = true then 2 else 0) := by
  cases hm : s.mode <;> cases hstrict : s.strict <;> simp [State.cfgWord, hm, hstrict, Mode.code]

/-- Two halves of a register as a number. -/
theorem append_halves_toNat (hi lo : BitVec 16) : (hi ++ lo).toNat = lo.toNat + 65536 * hi.toNat := by
  rw [toNat_append_eq]
  omega

/-- `STATUS` as a number: the sum of its fields at their places (10_state.md R29). -/
theorem State.statusWord_toNat (s : State) :
    s.statusWord.toNat = s.phase.code.toNat + 16 * s.err.code.toNat +
      (if s.needIn = true then 256 else 0) + (if s.needOut = true then 512 else 0) := by
  unfold State.statusWord
  simp only [toNat_append_eq, BitVec.toNat_ofNat, BitVec.toNat_ofBool]
  cases s.needIn <;> cases s.needOut <;> simp <;> omega

theorem Phase.code_toNat (q : Phase) :
    q.code.toNat =
      match q with
      | .idle => 0 | .header => 1 | .body => 2 | .trailer => 3 | .done => 4 | .error => 5 := by
  cases q <;> rfl

theorem ErrCode.code_toNat (e : ErrCode) :
    e.code.toNat =
      match e with
      | .none => 0 | .dimensionMismatch => 1 | .invalidHeader => 2 | .unexpectedEnd => 3
      | .corruptStream => 4 | .trailingData => 5 := by
  cases e <;> rfl

/-- Settles O41: a read leaves the engine as it is, and each register reads as its fields. -/
theorem registerReads : Obligations.RegisterReads := by
  intro s r turns hs
  refine ⟨s.readWord r, step_of_readReg hs, ?_⟩
  cases r with
  | ctrl | npix | pixcnt => rfl
  | cfg => exact s.cfgWord_toNat
  | dim => exact append_halves_toNat s.height s.width
  | hdrdim => exact append_halves_toNat s.hdrH s.hdrW
  | status =>
    have hbusy := s.busy_iff
    have hin := s.needIn_iff
    have hout := s.needOut_iff
    rw [hbusy] at hout
    simp only [State.readWord, ← hin, ← hout, s.statusWord_toNat, Phase.code_toNat, ErrCode.code_toNat] <;>
      rfl

/-! ### Suspension (20_memory.md R67, R68) -/

/-! Each of the four waits leaves the state as it is. -/

theorem State.engineStep_of_byte_not_taken {p : Ports} (hvalid : s.byteOutValid = true)
    (htake : p.byteOut = false) : s.engineStep p = .next s := by
  rw [State.engineStep_of_encode p (s.byteOutValid_iff.1 hvalid).1, State.encodeStep, if_pos hvalid, htake]
  rfl

theorem State.engineStep_of_pixel_not_taken {p : Ports} (hvalid : s.pixOutValid = true)
    (htake : p.pixOut = false) : s.engineStep p = .next s := by
  rw [State.engineStep_of_decode p (s.pixOutValid_iff.1 hvalid).1, State.decodeStep, if_pos hvalid, htake]
  rfl

theorem State.engineStep_of_no_pixel (p : Ports) (hready : s.pixInReady = true) (hsrc : s.pixSrc = []) :
    s.engineStep p = .next s := by
  rw [State.pixInReady, Bool.and_eq_true, decide_eq_true_eq] at hready
  obtain ⟨hm, hin⟩ := hready
  obtain ⟨hp, hobuf, hlt⟩ := (State.needIn_iff_of_encode hm).1 hin
  have hstep : s.encodeStep p = s := by
    simp [State.encodeStep, State.byteOutValid, hp, hobuf, hlt, hsrc]
  rw [State.engineStep_of_encode p hm, hstep]

theorem State.engineStep_of_no_byte (p : Ports) (hready : s.byteInReady = true) (hsrc : s.byteSrc = [])
    (hopen : s.byteSrcEnds = false) : s.engineStep p = .next s := by
  have htake : s.takeByte = .next s := by simp [State.takeByte, hsrc, hopen]
  rw [State.engineStep_of_decode p (s.byteInReady_iff.1 hready).1,
    State.decodeStep_of_byteInReady p hready, htake]

/-- Settles O39: the turn is used up and the engine waits, for each of its four ports. -/
theorem suspensionLeavesNoTrace : Obligations.SuspensionLeavesNoTrace := by
  intro s p turns hs
  rw [step_of_ports hs]
  exact ⟨State.engineStep_of_byte_not_taken (s := { s with script := turns }),
    State.engineStep_of_pixel_not_taken (s := { s with script := turns }),
    State.engineStep_of_no_pixel (s := { s with script := turns }) p,
    State.engineStep_of_no_byte (s := { s with script := turns }) p⟩

/-! ### The encoder's own steps (46_opcode_encoder.md R223 to R229) -/

/-- Nothing staged is nothing on offer. -/
theorem State.byteOutValid_of_nil (hobuf : s.obuf = []) : s.byteOutValid = false := by
  simp [State.byteOutValid, hobuf]

/-- The byte of a pending run, written out (41_run.md R144). -/
theorem pendingRun_eq {run : Nat} (hrun : run ≤ 62) :
    pendingRun run = if run = 0 then [] else [BitVec.ofNat 8 (0xC0 + (run - 1))] := by
  unfold pendingRun
  by_cases hzero : run = 0
  · rw [if_pos hzero, if_neg (by omega)]
  · rw [if_neg hzero, if_pos (by omega), packRun_eq_ofNat (by omega) hrun]

theorem State.encodeStep_finish (p : Ports) (hp : s.phase = .body) (hobuf : s.obuf = [])
    (hcounted : s.pixCnt = s.total) (hrun : s.run.toNat < 62) :
    s.encodeStep p = { s with
      obuf := if s.run.toNat = 0 then [0xFF] else [BitVec.ofNat 8 (0xC0 + (s.run.toNat - 1)), 0xFF]
      run := 0
      phase := .trailer } := by
  have hstep : s.encodeStep p = s.finishEncode := by
    simp [State.encodeStep, State.byteOutValid_of_nil hobuf, hp, hcounted]
  have hbytes : pendingRun s.run.toNat ++ packEnd =
      if s.run.toNat = 0 then [0xFF] else [BitVec.ofNat 8 (0xC0 + (s.run.toNat - 1)), 0xFF] := by
    rw [pendingRun_eq (Nat.le_of_lt hrun)]
    split <;> rfl
  rw [hstep, State.finishEncode_eq hobuf, hbytes]

theorem State.encodeStep_headerOut (p : Ports) (hp : s.phase = .header) (hobuf : s.obuf = []) :
    s.encodeStep p = { s with phase := .body } := by
  simp [State.encodeStep, State.byteOutValid_of_nil hobuf, hp]

theorem State.encodeStep_streamOut (p : Ports) (hp : s.phase = .trailer) (hobuf : s.obuf = []) :
    s.encodeStep p = { s with phase := .done } := by
  simp [State.encodeStep, State.byteOutValid_of_nil hobuf, hp]

/-- Settles O34: with nothing staged each phase has its internal step. -/
theorem encodeTauSteps : Obligations.EncodeTauSteps := by
  intro s p turns hm hobuf hs
  rw [step_of_ports hs, State.engineStep_of_encode (s := { s with script := turns }) p hm]
  refine ⟨fun hp => congrArg Host.Outcome.next ?header,
    fun hp hcounted hrun => congrArg Host.Outcome.next ?body,
    fun hp => congrArg Host.Outcome.next ?trailer⟩
  case header => exact State.encodeStep_headerOut (s := { s with script := turns }) p hp hobuf
  case body => exact State.encodeStep_finish (s := { s with script := turns }) p hp hobuf hcounted hrun
  case trailer => exact State.encodeStep_streamOut (s := { s with script := turns }) p hp hobuf

theorem State.encodeStep_of_pixel (p : Ports) {px : Pixel} {rest : List Pixel} (hp : s.phase = .body)
    (hobuf : s.obuf = []) (hlt : s.pixCnt.toNat < s.total.toNat) (hsrc : s.pixSrc = px :: rest) :
    s.encodeStep p = { s with pixSrc := rest }.consumePixel px := by
  simp [State.encodeStep, State.byteOutValid_of_nil hobuf, hp, hlt, hsrc]

/-- A pixel that is asked for and on offer is consumed. -/
theorem State.PixelGuard.step_pixel (hg : s.PixelGuard) {p : Ports} {turns : List HostTurn} {px : Pixel}
    {rest : List Pixel} (hs : s.script = .ports p :: turns) (hsrc : s.pixSrc = px :: rest) :
    step s = .next ({ s with script := turns, pixSrc := rest }.consumePixel px) := by
  obtain ⟨hm, hp, hobuf, hlt⟩ := hg
  rw [step_of_ports hs, State.engineStep_of_encode (s := { s with script := turns }) p hm,
    State.encodeStep_of_pixel (s := { s with script := turns }) p hp hobuf hlt hsrc]

/-- Counting in a register is adding one to it. -/
theorem ofNat_toNat_add_one {w : Nat} (x : BitVec w) : BitVec.ofNat w (x.toNat + 1) = x + 1 := by
  simp [BitVec.ofNat_add]

/-- A consumed run pixel, written out (46_opcode_encoder.md R225). -/
theorem State.consumePixel_prev (hobuf : s.obuf = []) :
    s.consumePixel s.prev = { s with
      pixCnt := BitVec.ofNat 32 (s.pixCnt.toNat + 1)
      run := if s.run.toNat = 61 then 0 else BitVec.ofNat 6 (s.run.toNat + 1)
      obuf := if s.run.toNat = 61 then [0xFD] else [] } := by
  obtain ⟨-, hc⟩ | ⟨hne, -⟩ := s.consumePixel_cases s.prev
  · rw [hc, ofNat_toNat_add_one, ofNat_toNat_add_one]
    simp only [State.runPixel, State.push, hobuf]
    obtain ⟨-, hfull, hr⟩ | ⟨-, hfull, hr⟩ | ⟨hf, -⟩ | ⟨hf, -⟩ := rleStep_cases s.run true
    · rw [hr, if_pos hfull, if_pos hfull]
      rfl
    · rw [hr, if_neg hfull, if_neg hfull]
      rfl
    · cases hf
    · cases hf
  · exact absurd rfl hne

/-- Settles O32: the pixel on offer is consumed, and it is `prev`. -/
theorem runPixelStep : Obligations.RunPixelStep := by
  intro s p turns rest hg hs hsrc _
  rw [hg.step_pixel hs hsrc]
  exact congrArg Host.Outcome.next
    (State.consumePixel_prev (s := { s with script := turns, pixSrc := rest }) hg.2.2.1)

theorem packIndex_eq_ofNat (i : BitVec 6) : packIndex i = BitVec.ofNat 8 i.toNat := by
  apply BitVec.eq_of_toNat_eq
  rw [packIndex_toNat, BitVec.toNat_ofNat]
  omega

theorem packDiff_eq_ofNat (fr fg fb : BitVec 2) :
    packDiff fr fg fb = BitVec.ofNat 8 (0x40 + fr.toNat * 16 + fg.toNat * 4 + fb.toNat) := by
  apply BitVec.eq_of_toNat_eq
  rw [packDiff_toNat, BitVec.toNat_ofNat]
  omega

/-- A consumed pixel that differs from `prev`, written out (46_opcode_encoder.md R226, R227). -/
theorem State.consumePixel_other {px : Pixel} (hne : px ≠ s.prev) (hobuf : s.obuf = []) :
    s.consumePixel px = { s with
      pixCnt := BitVec.ofNat 32 (s.pixCnt.toNat + 1)
      run := 0
      obuf := pendingRun s.run.toNat ++ pixelBytes s.prev px s.cache
      cache := s.cache.insertPixel px
      prev := px } := by
  obtain ⟨heq, -⟩ | ⟨-, hc⟩ := s.consumePixel_cases px
  · exact absurd heq hne
  · obtain ⟨hbytes, hrun⟩ := runBytes_rleStep_false s.run
    rw [hc, ofNat_toNat_add_one, pixelBytes_eq_choose]
    simp only [State.nonRunPixel, State.push, State.remember, hobuf, hbytes, hrun, List.nil_append]

/-- Settles O33: the pixel on offer is consumed, and it differs from `prev`; its bytes as numbers. -/
theorem nonRunPixelStep : Obligations.NonRunPixelStep := by
  intro s p turns px rest hg hs hsrc hne hrun
  have hconsumed := State.consumePixel_other (s := { s with script := turns, pixSrc := rest }) hne hg.2.2.1
  rw [hg.step_pixel hs hsrc, hconsumed, ← pendingRun_eq (Nat.le_of_lt hrun), ← packIndex_eq_ofNat,
    ← packDiff_eq_ofNat]
  rfl

end

end Sys2Proof.Machine
end
